-- ==== Sys2Proof/Word.lean ====
section
/-! DEFINITION. The bit-vector types of the controller (spec/00_scope.md R9). -/

namespace Sys2Proof

/-- One byte: a controller register, an operand field, or a byte on the upstream port. -/
abbrev Byte := BitVec 8

/-- One request word `REQ` of the request port (R80). -/
abbrev Request := BitVec 32

/-- A 64-bit device identifier, little-endian packed from its 8-byte ROM code (R24, R56). -/
abbrev Ident := BitVec 64

/-- The 4-bit bridge configuration value `cfg` (R36). -/
abbrev Nibble := BitVec 4

end Sys2Proof
end

