-- ==== Sys2Proof/Config.lean ====
section
/-! DEFINITION. The implementation parameters of spec/00_scope.md R7 and R8, the answers of the upstream
channel (spec/20_memory.md R52, R53), and the one free value of the model. -/

namespace Sys2Proof

/-- `POLL_LIMIT`: the most status reads in one `waitOnBusy` (R7, source value). -/
def Config.pollLimit : Nat := 1000

/-- `POLL_DELAY_US`: the least delay between two status polls, in microseconds (R7, R330, source value). -/
def Config.pollDelayUs : Nat := 20

/-- `CRC_POLY`: the reflected CRC-8 polynomial (R7, source value). -/
def Config.crcPoly : Byte := 0x8C#8

/-- The parameters that R7 marks OPEN, each under its name of R7. A machine's `Params` never change (R40); every
statement about all states holds for every binding of them (notes/assumptions/1.md). -/
structure Params where
  /-- `CRC_INIT` -/
  crcInit : Byte
  /-- `NUM_CHANNELS`, 1 or 8 -/
  numChannels : Nat
  /-- `BRIDGE_ADDR` -/
  bridgeAddr : BitVec 7
  /-- `CMD_SRP` -/
  cmdSrp : Byte
  /-- `CMD_WCFG` -/
  cmdWcfg : Byte
  /-- `CMD_CHSL` -/
  cmdChsl : Byte
  /-- `CMD_1WRS` -/
  cmd1wrs : Byte
  /-- `CMD_1WSB` -/
  cmd1wsb : Byte
  /-- `CMD_1WWB` -/
  cmd1wwb : Byte
  /-- `CMD_1WRB` -/
  cmd1wrb : Byte
  /-- `CMD_1WT` -/
  cmd1wt : Byte
  /-- `CMD_DRST`, used only by the requester's recovery sequence (R318) -/
  cmdDrst : Byte
  /-- `PTR_STATUS` -/
  ptrStatus : Byte
  /-- `PTR_DATA` -/
  ptrData : Byte
  /-- `PTR_CONFIG` -/
  ptrConfig : Byte
  /-- `ST_1WB` -/
  st1wb : Fin 8
  /-- `ST_PPD` -/
  stPpd : Fin 8
  /-- `ST_SD` -/
  stSd : Fin 8
  /-- `ST_SBR` -/
  stSbr : Fin 8
  /-- `ST_TSB` -/
  stTsb : Fin 8
  /-- `ST_DIR` -/
  stDir : Fin 8
  /-- `SPU_MASK` -/
  spuMask : Nibble
  /-- `BIT_ONE` -/
  bitOne : Byte
  /-- `BIT_ZERO` -/
  bitZero : Byte
  /-- `CH_WRITE[0..7]` -/
  chWrite : Vector Byte 8
  /-- `CH_READ[0..7]` -/
  chRead : Vector Byte 8
  /-- `ROM_SEARCH` -/
  romSearch : Byte
  /-- `ROM_MATCH` -/
  romMatch : Byte
  /-- `ROM_SKIP` -/
  romSkip : Byte
deriving DecidableEq, Repr

/-- What R8 lets a model assume of any binding, with the two values R7 allows `NUM_CHANNELS`. All eight entries of
`CH_READ` are distinct whatever `NUM_CHANNELS` is: with one channel only channel 0 exists (D31) and R8 may be read to ask
nothing, so asking it there too is a DESIGN CHOICE (notes/assumptions/17.md). -/
def Params.wf (p : Params) : Bool :=
  (p.numChannels == 1 || p.numChannels == 8) &&
  decide [p.st1wb, p.stPpd, p.stSd, p.stSbr, p.stTsb, p.stDir].Nodup &&
  [0x1#4, 0x2#4, 0x4#4, 0x8#4].contains p.spuMask &&
  p.bitOne != p.bitZero &&
  decide p.chRead.toList.Nodup

/-- The suggested values R7 marks GK, with eight channels (PRESUMED: `[from general knowledge, not in source]`;
`numChannels` DESIGN CHOICE). Only `State.reset` and the tests bind them (notes/assumptions/1.md). -/
def Params.gk : Params where
  crcInit := 0x00#8
  numChannels := 8
  bridgeAddr := 0x18#7
  cmdSrp := 0xE1#8
  cmdWcfg := 0xD2#8
  cmdChsl := 0xC3#8
  cmd1wrs := 0xB4#8
  cmd1wsb := 0x87#8
  cmd1wwb := 0xA5#8
  cmd1wrb := 0x96#8
  cmd1wt := 0x78#8
  cmdDrst := 0xF0#8
  ptrStatus := 0xF0#8
  ptrData := 0xE1#8
  ptrConfig := 0xC3#8
  st1wb := 0
  stPpd := 1
  stSd := 2
  stSbr := 5
  stTsb := 6
  stDir := 7
  spuMask := 0x4#4
  bitOne := 0x80#8
  bitZero := 0x00#8
  chWrite := #v[0xF0#8, 0xE1#8, 0xD2#8, 0xC3#8, 0xB4#8, 0xA5#8, 0x96#8, 0x87#8]
  chRead := #v[0xB8#8, 0xB1#8, 0xAA#8, 0xA3#8, 0x9C#8, 0x95#8, 0x8E#8, 0x87#8]
  romSearch := 0xF0#8
  romMatch := 0x55#8
  romSkip := 0xCC#8

/-- How the environment ends one upstream transfer. All three parts are the environment's own choice. -/
structure Reply where
  /-- the transfer was acknowledged; otherwise it failed and the controller raises `DU` (R52, R53) -/
  ack : Bool
  /-- the byte a read yields; after a failed read it is the draw of R53 -/
  byte : Byte
  /-- how many leading bytes of a failed write reached the bridge (R52, decision D10) -/
  delivered : Nat
deriving DecidableEq, Repr, Inhabited

/-- FREE VALUE. How the `n`-th transfer past the listed ones (`State.replies`) ends: nothing constrains it
(notes/assumptions/2.md). -/
opaque Config.freeReply : Nat → Reply

end Sys2Proof
end

