-- ==== Sys2Proof/Syntax.lean ====
section
/-! DEFINITION. The requests of the opcode map (spec/30_encoding.md R86), one constructor for each row of
spec/opcode_table.json; the pseudo-instructions (R90), the recovery sequence (R318) and the assembler text (R89). -/

namespace Sys2Proof

/-- A decoded request. `c` is a channel, `k` a byte index, `n` a length, `p` the power flag (R80, R81). -/
inductive Instr where
  | brWb (imm : Byte)
  | brWb2 (imm imm2 : Byte)
  | brRb
  | brSrp (imm : Byte)
  | brRstat
  | brRdata
  | brRcfg
  | brWcfg (cfg : Nibble)
  | brWait
  | owReset
  | owWb (imm : Byte) (p : Bool)
  | owRb
  | owWbit (bit p : Bool)
  | owRbit
  | owSkip
  | owSelect
  | owChan (c : Fin 8)
  | owTrip (dir : Bool)
  | owRframe
  | owPullup (on : Bool)
  | srReset (c : Fin 8)
  | srNext (c : Fin 8)
  | srAll (c : Fin 8)
  | srState (c : Fin 8)
  | srRomb (c k : Fin 8)
  | crcStep (imm imm2 : Byte)
  | crcAddr (n : Fin 9)
  | crcFrame (n : Fin 10)
  | crcChkaddr
  | crcChkframe
  | errRd
  | errClr (m : BitVec 7)
  | addrSetb (k : Fin 8) (imm : Byte)
  | addrGetb (k : Fin 8)
  | frameSetb (k : Fin 9) (imm : Byte)
  | frameGetb (k : Fin 9)
deriving DecidableEq, Repr

/-- The channel a search request names in `idx` (R27). -/
def Instr.searchChannel : Instr → Option (Fin 8)
  | .srReset c | .srNext c | .srAll c | .srState c | .srRomb c _ => some c
  | .brWb _ | .brWb2 _ _ | .brRb | .brSrp _ | .brRstat | .brRdata | .brRcfg | .brWcfg _ | .brWait
  | .owReset | .owWb _ _ | .owRb | .owWbit _ _ | .owRbit | .owSkip | .owSelect | .owChan _ | .owTrip _
  | .owRframe | .owPullup _ | .crcStep _ _ | .crcAddr _ | .crcFrame _ | .crcChkaddr | .crcChkframe
  | .errRd | .errClr _ | .addrSetb _ _ | .addrGetb _ | .frameSetb _ _ | .frameGetb _ => none

/-- The pseudo-instructions of R90. -/
inductive Pseudo where
  | addrLoad (id : Ident)
  | frameLoad (bytes : Vector Byte 9)
  | errClrall
  | srFirst (c : Fin 8)
  | owMatch (id : Ident)
deriving DecidableEq, Repr

/-- `ADDR.LOAD id64`: `ADDR.SETB k, (id64 >> 8k) & 0xFF` for k = 0..7, in that order (R90). -/
def expandAddrLoad (id : Ident) : List Instr :=
  ([0, 1, 2, 3, 4, 5, 6, 7] : List (Fin 8)).map fun k => .addrSetb k ((id >>> (8 * k.val)).setWidth 8)

/-- The expansion of each pseudo-instruction (R90). -/
def Pseudo.expand : Pseudo → List Instr
  | .addrLoad id => expandAddrLoad id
  | .frameLoad bs => ([0, 1, 2, 3, 4, 5, 6, 7, 8] : List (Fin 9)).map fun k => .frameSetb k bs[k]
  | .errClrall => [.errClr 0x7F#7]
  | .srFirst c => [.srReset c, .srNext c]
  | .owMatch id => expandAddrLoad id ++ [.owSelect]

/-- The requester's recovery of a bridge left mid-sequence: the device-reset command as a raw byte, a wait, and a
search reset of every channel whose enumeration was in progress (R297, R318). -/
def recoverySequence (p : Params) (channels : List (Fin 8)) : List Instr :=
  [.brWb p.cmdDrst, .brWait] ++ channels.map .srReset

/-- A number operand of the assembler text. -/
def asmNum (n : Nat) : String := toString n

/-- A request's assembler line (R89), numbers in decimal. -/
def Instr.asm : Instr → String
  | .brWb b => "BR.WB " ++ asmNum b.toNat
  | .brWb2 b0 b1 => "BR.WB2 " ++ asmNum b0.toNat ++ ", " ++ asmNum b1.toNat
  | .brRb => "BR.RB"
  | .brSrp b => "BR.SRP " ++ asmNum b.toNat
  | .brRstat => "BR.RSTAT"
  | .brRdata => "BR.RDATA"
  | .brRcfg => "BR.RCFG"
  | .brWcfg cfg => "BR.WCFG " ++ asmNum cfg.toNat
  | .brWait => "BR.WAIT"
  | .owReset => "OW.RESET"
  | .owWb b p => (if p then "OW.WB.P " else "OW.WB ") ++ asmNum b.toNat
  | .owRb => "OW.RB"
  | .owWbit b p => (if p then "OW.WBIT.P " else "OW.WBIT ") ++ asmNum b.toNat
  | .owRbit => "OW.RBIT"
  | .owSkip => "OW.SKIP"
  | .owSelect => "OW.SELECT"
  | .owChan c => "OW.CHAN " ++ asmNum c.val
  | .owTrip d => "OW.TRIP " ++ asmNum d.toNat
  | .owRframe => "OW.RFRAME"
  | .owPullup o => "OW.PULLUP " ++ asmNum o.toNat
  | .srReset c => "SR.RESET " ++ asmNum c.val
  | .srNext c => "SR.NEXT " ++ asmNum c.val
  | .srAll c => "SR.ALL " ++ asmNum c.val
  | .srState c => "SR.STATE " ++ asmNum c.val
  | .srRomb c k => "SR.ROMB " ++ asmNum c.val ++ ", " ++ asmNum k.val
  | .crcStep b c => "CRC.STEP " ++ asmNum b.toNat ++ ", " ++ asmNum c.toNat
  | .crcAddr n => "CRC.ADDR " ++ asmNum n.val
  | .crcFrame n => "CRC.FRAME " ++ asmNum n.val
  | .crcChkaddr => "CRC.CHKADDR"
  | .crcChkframe => "CRC.CHKFRAME"
  | .errRd => "ERR.RD"
  | .errClr m => "ERR.CLR " ++ asmNum m.toNat
  | .addrSetb k b => "ADDR.SETB " ++ asmNum k.val ++ ", " ++ asmNum b.toNat
  | .addrGetb k => "ADDR.GETB " ++ asmNum k.val
  | .frameSetb k b => "FRAME.SETB " ++ asmNum k.val ++ ", " ++ asmNum b.toNat
  | .frameGetb k => "FRAME.GETB " ++ asmNum k.val

end Sys2Proof
end

