-- ==== Sys2Proof/WellFormed.lean ====
section
/-! DEFINITION. Which requests are legal under a number of channels (spec/30_encoding.md R81, R82). The ranges
of `k` and `n` are kept by the types of Instr's fields. -/

namespace Sys2Proof

/-- The value constraints of R82, points 3 and 4, that depend on `NUM_CHANNELS`. -/
def Instr.wf (numChannels : Nat) : Instr → Bool
  | .owChan c => decide (c.val < numChannels) && numChannels == 8
  | .srReset c | .srNext c | .srAll c | .srState c | .srRomb c _ => decide (c.val < numChannels)
  | .brWb _ | .brWb2 _ _ | .brRb | .brSrp _ | .brRstat | .brRdata | .brRcfg | .brWcfg _ | .brWait
  | .owReset | .owWb _ _ | .owRb | .owWbit _ _ | .owRbit | .owSkip | .owSelect | .owTrip _
  | .owRframe | .owPullup _ | .crcStep _ _ | .crcAddr _ | .crcFrame _ | .crcChkaddr | .crcChkframe
  | .errRd | .errClr _ | .addrSetb _ _ | .addrGetb _ | .frameSetb _ _ | .frameGetb _ => true

end Sys2Proof
end

