-- ==== Sys2Proof/Decode.lean ====
section
/-! DEFINITION. The request word (spec/30_encoding.md R80 to R88): its fields, the decoder, and the encoder. -/

namespace Sys2Proof

/-- The fields of format Q (R80). -/
structure Fields where
  op : Byte
  imm : Byte
  idx : BitVec 4
  p : Bool
  rsv : BitVec 3
  imm2 : Byte
deriving DecidableEq, Repr

/-- The fields of a request word: `op` 7:0, `imm` 15:8, `idx` 19:16, `p` 20, `rsv` 23:21, `imm2` 31:24 (R80). -/
def unpack (w : Request) : Fields where
  op := w.extractLsb' 0 8
  imm := w.extractLsb' 8 8
  idx := w.extractLsb' 16 4
  p := w.getLsbD 20
  rsv := w.extractLsb' 21 3
  imm2 := w.extractLsb' 24 8

/-- The request word with these fields (R80). -/
def pack (f : Fields) : Request :=
  f.imm2 ++ f.rsv ++ BitVec.ofBool f.p ++ f.idx ++ f.imm ++ f.op

/-- Why a request word is ILLEGAL (R82). The controller's answer is the same for every reason (R83). -/
inductive Illegal where
  /-- `op` is not in the opcode map (R82 point 1, R87) -/
  | reservedOp
  /-- a bit outside the row's used fields is set (R82 point 2) -/
  | unusedBits
  /-- `idx` is outside the row's range, or its channel is not below `NUM_CHANNELS` (R82 point 3) -/
  | idxRange
  /-- `OW.CHAN` on a bridge without eight channels (R82 point 4) -/
  | needsEightChannels
deriving DecidableEq, Repr

/-- No field beside `op` and `imm` is set. -/
def Fields.onlyImm (f : Fields) : Bool := f.idx == 0 && !f.p && f.rsv == 0 && f.imm2 == 0

/-- No field beside `op`, `imm` and `imm2` is set. -/
def Fields.onlyImms (f : Fields) : Bool := f.idx == 0 && !f.p && f.rsv == 0

/-- No field beside `op` is set. -/
def Fields.onlyOp (f : Fields) : Bool := f.onlyImm && f.imm == 0

/-- No field beside `op`, `imm` and `p` is set. -/
def Fields.onlyImmP (f : Fields) : Bool := f.idx == 0 && f.rsv == 0 && f.imm2 == 0

/-- No field beside `op`, `imm` and `idx` is set. -/
def Fields.onlyIdxImm (f : Fields) : Bool := !f.p && f.rsv == 0 && f.imm2 == 0

/-- No field beside `op` and `idx` is set. -/
def Fields.onlyIdx (f : Fields) : Bool := f.onlyIdxImm && f.imm == 0

/-- `imm` carries a 1-bit operand: `imm[7:1]` = 0 (R81). -/
def Fields.immBit (f : Fields) : Bool := f.imm.extractLsb' 1 7 == 0

/-- `i` where the row's unused bits are 0. -/
def accept (unusedZero : Bool) (i : Instr) : Except Illegal Instr :=
  if unusedZero then .ok i else .error .unusedBits

/-- A row whose `idx` is an index or a length below `bound` (R81). -/
def acceptIdx (bound : Nat) (unusedZero : Bool) (f : Fields) (i : Fin bound → Instr) : Except Illegal Instr :=
  if unusedZero then
    if h : f.idx.toNat < bound then .ok (i ⟨f.idx.toNat, h⟩) else .error .idxRange
  else .error .unusedBits

/-- A row whose `idx` is a channel below `NUM_CHANNELS` (R81). -/
def acceptChan (numChannels : Nat) (unusedZero : Bool) (f : Fields) (i : Fin 8 → Instr) : Except Illegal Instr :=
  if f.idx.toNat < numChannels then acceptIdx 8 unusedZero f i else .error .idxRange

/-- The opcode map (R82, R86), by the request's fields. -/
def decodeFields (numChannels : Nat) (f : Fields) : Except Illegal Instr :=
  match f.op.toNat with
  | 0x01 => accept f.onlyImm (.brWb f.imm)
  | 0x02 => accept f.onlyImms (.brWb2 f.imm f.imm2)
  | 0x03 => accept f.onlyOp .brRb
  | 0x04 => accept f.onlyImm (.brSrp f.imm)
  | 0x05 => accept f.onlyOp .brRstat
  | 0x06 => accept f.onlyOp .brRdata
  | 0x07 => accept f.onlyOp .brRcfg
  | 0x08 => accept (f.onlyImm && f.imm.extractLsb' 4 4 == 0) (.brWcfg (f.imm.extractLsb' 0 4))
  | 0x09 => accept f.onlyOp .brWait
  | 0x10 => accept f.onlyOp .owReset
  | 0x11 => accept f.onlyImmP (.owWb f.imm f.p)
  | 0x12 => accept f.onlyOp .owRb
  | 0x13 => accept (f.onlyImmP && f.immBit) (.owWbit (f.imm.getLsbD 0) f.p)
  | 0x14 => accept f.onlyOp .owRbit
  | 0x15 => accept f.onlyOp .owSkip
  | 0x16 => accept f.onlyOp .owSelect
  | 0x17 => if numChannels = 8 then acceptChan numChannels f.onlyIdx f .owChan else .error .needsEightChannels
  | 0x18 => accept (f.onlyImm && f.immBit) (.owTrip (f.imm.getLsbD 0))
  | 0x19 => accept f.onlyOp .owRframe
  | 0x1A => accept (f.onlyImm && f.immBit) (.owPullup (f.imm.getLsbD 0))
  | 0x20 => acceptChan numChannels f.onlyIdx f .srReset
  | 0x21 => acceptChan numChannels f.onlyIdx f .srNext
  | 0x22 => acceptChan numChannels f.onlyIdx f .srAll
  | 0x23 => acceptChan numChannels f.onlyIdx f .srState
  | 0x24 => acceptChan numChannels (f.onlyIdxImm && f.imm.extractLsb' 3 5 == 0) f
      fun c => .srRomb c (f.imm.extractLsb' 0 3).toFin
  | 0x30 => accept f.onlyImms (.crcStep f.imm f.imm2)
  | 0x31 => acceptIdx 9 f.onlyIdx f .crcAddr
  | 0x32 => acceptIdx 10 f.onlyIdx f .crcFrame
  | 0x33 => accept f.onlyOp .crcChkaddr
  | 0x34 => accept f.onlyOp .crcChkframe
  | 0x38 => accept f.onlyOp .errRd
  | 0x39 => accept (f.onlyImm && !f.imm.getLsbD 7) (.errClr (f.imm.extractLsb' 0 7))
  | 0x3A => acceptIdx 8 f.onlyIdxImm f fun k => .addrSetb k f.imm
  | 0x3B => acceptIdx 8 f.onlyIdx f .addrGetb
  | 0x3C => acceptIdx 9 f.onlyIdxImm f fun k => .frameSetb k f.imm
  | 0x3D => acceptIdx 9 f.onlyIdx f .frameGetb
  | _ => .error .reservedOp

/-- The request a word stands for, or why it is ILLEGAL: it reads only the word and `NUM_CHANNELS` (R82). -/
def decode (numChannels : Nat) (w : Request) : Except Illegal Instr :=
  decodeFields numChannels (unpack w)

/-- A request with only its `op`. -/
def Fields.bare (op : Byte) : Fields := ⟨op, 0, 0, false, 0, 0⟩

/-- A 1-bit operand as an `imm` byte (R81). -/
def bitImm (b : Bool) : Byte := (BitVec.ofBool b).setWidth 8

/-- A channel, index or length as an `idx` field (R81). -/
def idxOf {n : Nat} (k : Fin n) : BitVec 4 := BitVec.ofNat 4 k.val

/-- The fields of each request (R86). -/
def encodeFields : Instr → Fields
  | .brWb b => { Fields.bare 0x01 with imm := b }
  | .brWb2 b0 b1 => { Fields.bare 0x02 with imm := b0, imm2 := b1 }
  | .brRb => .bare 0x03
  | .brSrp b => { Fields.bare 0x04 with imm := b }
  | .brRstat => .bare 0x05
  | .brRdata => .bare 0x06
  | .brRcfg => .bare 0x07
  | .brWcfg cfg => { Fields.bare 0x08 with imm := cfg.setWidth 8 }
  | .brWait => .bare 0x09
  | .owReset => .bare 0x10
  | .owWb b p => { Fields.bare 0x11 with imm := b, p := p }
  | .owRb => .bare 0x12
  | .owWbit b p => { Fields.bare 0x13 with imm := bitImm b, p := p }
  | .owRbit => .bare 0x14
  | .owSkip => .bare 0x15
  | .owSelect => .bare 0x16
  | .owChan c => { Fields.bare 0x17 with idx := idxOf c }
  | .owTrip d => { Fields.bare 0x18 with imm := bitImm d }
  | .owRframe => .bare 0x19
  | .owPullup o => { Fields.bare 0x1A with imm := bitImm o }
  | .srReset c => { Fields.bare 0x20 with idx := idxOf c }
  | .srNext c => { Fields.bare 0x21 with idx := idxOf c }
  | .srAll c => { Fields.bare 0x22 with idx := idxOf c }
  | .srState c => { Fields.bare 0x23 with idx := idxOf c }
  | .srRomb c k => { Fields.bare 0x24 with idx := idxOf c, imm := BitVec.ofNat 8 k.val }
  | .crcStep b c => { Fields.bare 0x30 with imm := b, imm2 := c }
  | .crcAddr n => { Fields.bare 0x31 with idx := idxOf n }
  | .crcFrame n => { Fields.bare 0x32 with idx := idxOf n }
  | .crcChkaddr => .bare 0x33
  | .crcChkframe => .bare 0x34
  | .errRd => .bare 0x38
  | .errClr m => { Fields.bare 0x39 with imm := m.setWidth 8 }
  | .addrSetb k b => { Fields.bare 0x3A with idx := idxOf k, imm := b }
  | .addrGetb k => { Fields.bare 0x3B with idx := idxOf k }
  | .frameSetb k b => { Fields.bare 0x3C with idx := idxOf k, imm := b }
  | .frameGetb k => { Fields.bare 0x3D with idx := idxOf k }

/-- The word of a request (R80, R86). -/
def encode (i : Instr) : Request := pack (encodeFields i)

/-- The mask and the match of the request's row in spec/opcode_table.json (R82 point 2). -/
def Instr.row : Instr → Request × Request
  | .brWb _ => (0xFFFF00FF, 0x00000001)
  | .brWb2 _ _ => (0x00FF00FF, 0x00000002)
  | .brRb => (0xFFFFFFFF, 0x00000003)
  | .brSrp _ => (0xFFFF00FF, 0x00000004)
  | .brRstat => (0xFFFFFFFF, 0x00000005)
  | .brRdata => (0xFFFFFFFF, 0x00000006)
  | .brRcfg => (0xFFFFFFFF, 0x00000007)
  | .brWcfg _ => (0xFFFFF0FF, 0x00000008)
  | .brWait => (0xFFFFFFFF, 0x00000009)
  | .owReset => (0xFFFFFFFF, 0x00000010)
  | .owWb _ _ => (0xFFEF00FF, 0x00000011)
  | .owRb => (0xFFFFFFFF, 0x00000012)
  | .owWbit _ _ => (0xFFEFFEFF, 0x00000013)
  | .owRbit => (0xFFFFFFFF, 0x00000014)
  | .owSkip => (0xFFFFFFFF, 0x00000015)
  | .owSelect => (0xFFFFFFFF, 0x00000016)
  | .owChan _ => (0xFFF8FFFF, 0x00000017)
  | .owTrip _ => (0xFFFFFEFF, 0x00000018)
  | .owRframe => (0xFFFFFFFF, 0x00000019)
  | .owPullup _ => (0xFFFFFEFF, 0x0000001A)
  | .srReset _ => (0xFFF8FFFF, 0x00000020)
  | .srNext _ => (0xFFF8FFFF, 0x00000021)
  | .srAll _ => (0xFFF8FFFF, 0x00000022)
  | .srState _ => (0xFFF8FFFF, 0x00000023)
  | .srRomb _ _ => (0xFFF8F8FF, 0x00000024)
  | .crcStep _ _ => (0x00FF00FF, 0x00000030)
  | .crcAddr _ => (0xFFF0FFFF, 0x00000031)
  | .crcFrame _ => (0xFFF0FFFF, 0x00000032)
  | .crcChkaddr => (0xFFFFFFFF, 0x00000033)
  | .crcChkframe => (0xFFFFFFFF, 0x00000034)
  | .errRd => (0xFFFFFFFF, 0x00000038)
  | .errClr _ => (0xFFFF80FF, 0x00000039)
  | .addrSetb _ _ => (0xFFF800FF, 0x0000003A)
  | .addrGetb _ => (0xFFF8FFFF, 0x0000003B)
  | .frameSetb _ _ => (0xFFF000FF, 0x0000003C)
  | .frameGetb _ => (0xFFF0FFFF, 0x0000003D)

/-- What the decoder reads from a row of spec/opcode_table.json whose bits are `w`, for a controller with eight
channels; bits from `nbits` up are 0 and a request is one 32-bit word (R80, R88). -/
def decodeTableWord (nbits w : Nat) : Option Instr :=
  match decode 8 (BitVec.ofNat 32 (w % 2 ^ nbits)) with
  | .ok i => some i
  | .error _ => none

end Sys2Proof
end

