-- ==== Sys2Proof/Machine/State.lean ====
section
/-! DEFINITION. The controller's state (spec/10_state.md R20), what stands at its two ports, and its reset values
(R39). -/

namespace Sys2Proof.Machine

/-- The seven error kinds, in the order of their bits in `ERR` (R22, R282). -/
inductive ErrKind where
  /-- `TO`: the busy flag never cleared within the poll bound -/
  | timeout
  /-- `SC`: bus electrically shorted, detected via a status bit after reset -/
  | shortCircuit
  /-- `CM`: write-then-verify of the configuration register disagreed -/
  | configMismatch
  /-- `CSM`: the channel readback code did not match the expected one -/
  | channelSelectMismatch
  /-- `DU`: an upstream transfer failed -/
  | deviceUnavailable
  /-- `CRC`: an identifier or a data frame failed its checksum -/
  | crcValidationFailure
  /-- `SI`: a search triplet observed both bits set -/
  | searchInconsistent
deriving DecidableEq, Repr

/-- The code of a response (R84). -/
inductive ResponseCode where
  | ok
  | illegal
deriving DecidableEq, Repr

/-- One thing the controller puts on a port, or waits out (R30, R51, R84, R330). -/
inductive Output where
  /-- one upstream write transfer to the 7-bit address `dev`, and how many of its bytes reached the device (R52) -/
  | write (dev : BitVec 7) (bytes : List Byte) (ack : Bool) (delivered : Nat)
  /-- one upstream read transfer of one byte, and the byte the rule goes on with (R53) -/
  | read (dev : BitVec 7) (ack : Bool) (byte : Byte)
  /-- one `Delay(us)` between two status polls (R109, R330) -/
  | delay (us : Nat)
  /-- one `emit FOUND(id)` (R30, R206) -/
  | found (id : Ident)
  /-- one response on the request port (R84) -/
  | response (code : ResponseCode) (res : Byte)
  /-- the reset input was asserted (R310); it separates the outputs before it from those after it -/
  | reset
deriving DecidableEq, Repr

/-- One channel's search state `SS[c]` (R26). -/
structure SearchState where
  /-- `ROMBUF[c][0..7]` -/
  romBuf : Vector Byte 8
  /-- `LD[c]`, -1..63 -/
  ld : Int
  /-- `LDF[c]` -/
  ldf : Bool
deriving DecidableEq, Repr

/-- The search state after a reset: buffer all zero, no discrepancy, flag false (R39, R191). -/
def SearchState.fresh : SearchState := ⟨Vector.replicate 8 0#8, -1, false⟩

/-- An `SR.ALL` that has not yet responded: its channel and its found-device count `n` (R29, R205). -/
structure SearchAllRun where
  chan : Fin 8
  found : Nat
deriving DecidableEq, Repr

/-- When the reset input is asserted (R310, R311). -/
inductive ResetTime where
  /-- between two requests, before the next one is accepted -/
  | beforeRequest
  /-- while the next step's request (or the next pass of an unfinished `SR.ALL`) runs: after it has issued this many
  transfers, and in any case before its response -/
  | during (transfers : Nat)
deriving DecidableEq, Repr

/-- An assertion of the reset input, with the values the registers of R39 marked "unspecified (draw)" take. -/
structure ResetInput where
  time : ResetTime
  res : Byte
  addr : Vector Byte 8
  frame : Vector Byte 9
deriving DecidableEq, Repr

/-- The controller (R20), with its parameters (R40), the inputs that wait at its ports, and the record of what it has
put out. No request's effect depends on `log`, and no request reads or writes `params` as a register. -/
structure State where
  /-- `RES`, the result of the last completed request (R21) -/
  res : Byte
  /-- `ERR`, the sticky error flags (R22) -/
  err : Byte
  /-- `ADDR[0..7]` (R24) -/
  addr : Vector Byte 8
  /-- `FRAME[0..8]` (R25) -/
  frame : Vector Byte 9
  /-- `SS[0..7]`; with `NUM_CHANNELS` = 1 only `SS[0]` is ever used (R20, R26) -/
  search : Vector SearchState 8
  /-- the `SR.ALL` that runs, if one does; the request port is ready when none does (R29, R31) -/
  running : Option SearchAllRun
  /-- INPUT: the requests that wait on the request port, in arrival order (R31, R32) -/
  requests : List Request
  /-- INPUT: a pending assertion of the reset input (R310) -/
  resetIn : Option ResetInput
  /-- INPUT: how the next upstream transfers end, in order (R52, R53) -/
  replies : List Reply
  /-- how many transfers past the listed ones have ended: the index into the free value `Config.freeReply` -/
  drawn : Nat
  /-- OUTPUT: everything put on the ports so far, oldest first -/
  log : List Output
  /-- the parameters (R7, R40) -/
  params : Params
deriving DecidableEq, Repr

/-- The controller has no faults: no trap and no error that stops it (R280, R294, R296). No step answers one. -/
inductive Fault where
deriving DecidableEq, Repr

/-- Why a step has no meaning. No step of this model answers one: every request of the opcode map has its meaning. -/
inductive Refusal where
  /-- an arm of `exec` whose instruction has no meaning yet; no arm raises it (safe) -/
  | notModelled (mnemonic : String)
deriving DecidableEq, Repr

/-- What a step answers. -/
abbrev StepResult := Host.Outcome State Fault Refusal

/-- The controller right after reset (R39), with nothing waiting at its ports. `res`, `addr` and `frame` are
"unspecified (draw)" in R39: here 0, DESIGN CHOICE (notes/assumptions/3.md); `params` is notes/assumptions/1.md. -/
def State.reset : State where
  res := 0#8
  err := 0#8
  addr := Vector.replicate 8 0#8
  frame := Vector.replicate 9 0#8
  search := Vector.replicate 8 .fresh
  running := none
  requests := []
  resetIn := none
  replies := []
  drawn := 0
  log := []
  params := .gk

end Sys2Proof.Machine
end

