-- ==== Sys2Proof/Machine/Flags.lean ====
section
/-! DEFINITION. The sticky error flags (spec/10_state.md R22, R23; spec/60_exceptions.md R281, R282). -/

namespace Sys2Proof.Machine

/-- The code of an error kind: its bit number in `ERR` (R22, R282). -/
def ErrKind.code : ErrKind → Nat
  | .timeout => 0
  | .shortCircuit => 1
  | .configMismatch => 2
  | .channelSelectMismatch => 3
  | .deviceUnavailable => 4
  | .crcValidationFailure => 5
  | .searchInconsistent => 6

/-- The `ERR` byte with only this kind's bit. -/
def ErrKind.mask (k : ErrKind) : Byte := 1#8 <<< k.code

/-- `raise Err(K)`: sets bit K, changes no other bit, and the rule goes on with its next step (R23, R281). It is the
nearest this controller has to taking an exception: no pc, no saved state, no handler (R280, R294). -/
def raiseErr (k : ErrKind) (s : State) : State := { s with err := s.err ||| k.mask }

/-- `raise Err(K)` where `b` holds. -/
def raiseIf (b : Bool) (k : ErrKind) (s : State) : State := if b then raiseErr k s else s

/-- Clears the flags a mask selects (R261). -/
def clearErr (m : BitVec 7) (s : State) : State := { s with err := s.err &&& ~~~(m.setWidth 8) }

end Sys2Proof.Machine
end

