-- ==== Sys2Proof/Machine/Operands.lean ====
section
/-! DEFINITION. The operand forms: bytes that carry a bit or a configuration, the fields of a status byte, the bits
of a search buffer, and the packed identifier (spec/10_state.md R24, R35, R36; spec/20_memory.md R56, R58;
spec/30_encoding.md R85, R92, R93). -/

namespace Sys2Proof.Machine

/-- A boolean in an 8-bit register: 0x01 for true, 0x00 for false (R85). -/
def boolByte (b : Bool) : Byte := if b then 0x01#8 else 0x00#8

/-- The operand byte that carries a bit: `BIT_ONE` or `BIT_ZERO` (R93). -/
def bitOperand (p : Params) (b : Bool) : Byte := if b then p.bitOne else p.bitZero

/-- The configuration write byte `(~cfg[3:0], cfg[3:0])`, complement in the high nibble (R92). -/
def configByte (cfg : Nibble) : Byte := ~~~cfg ++ cfg

/-- The readback a configuration write expects: `zext_8(cfg)` (R36, R108). -/
def configReadback (cfg : Nibble) : Byte := cfg.setWidth 8

/-- `c[3:0]` of a configuration byte (R141). -/
def configNibble (c : Byte) : Nibble := c.extractLsb' 0 4

/-- The status byte's busy bit (R35). -/
def statusBusy (p : Params) (s : Byte) : Bool := s.getLsbD p.st1wb.val

/-- The status byte's presence bit (R35). -/
def statusPresence (p : Params) (s : Byte) : Bool := s.getLsbD p.stPpd.val

/-- The status byte's short bit (R35). -/
def statusShort (p : Params) (s : Byte) : Bool := s.getLsbD p.stSd.val

/-- The status byte's sample bit (R35). -/
def statusSample (p : Params) (s : Byte) : Bool := s.getLsbD p.stSbr.val

/-- The three bits a triplet returns (R159). -/
structure Triplet where
  id : Bool
  cmp : Bool
  dir : Bool
deriving DecidableEq, Repr

/-- The triplet bits of a status byte: sample, complement, direction (R35, R159). -/
def statusTriplet (p : Params) (s : Byte) : Triplet :=
  ⟨statusSample p s, s.getLsbD p.stTsb.val, s.getLsbD p.stDir.val⟩

/-- The result byte of `OW.TRIP`: dir at bit 2, cmp at bit 1, id at bit 0 (R159). -/
def Triplet.byte (r : Triplet) : Byte := 0#5 ++ BitVec.ofBool r.dir ++ BitVec.ofBool r.cmp ++ BitVec.ofBool r.id

/-- Bit `i` of a search buffer: bit `i & 7` of byte `i >> 3` (R58). -/
def romBit (buf : Vector Byte 8) (i : Fin 64) : Bool :=
  (buf[i.val / 8]'(by omega)).getLsbD (i.val % 8)

/-- A byte with its bit `j` replaced. -/
def putBit (x : Byte) (j : Nat) (b : Bool) : Byte :=
  if b then x ||| 1#8 <<< j else x &&& ~~~(1#8 <<< j)

/-- A search buffer with its bit `i` replaced (R58). -/
def setRomBit (buf : Vector Byte 8) (i : Fin 64) (b : Bool) : Vector Byte 8 :=
  buf.set (i.val / 8) (putBit (buf[i.val / 8]'(by omega)) (i.val % 8) b) (by omega)

/-- `ADDR[k]` (R24). -/
def State.addrByte (s : State) (k : Fin 8) : Byte := s.addr[k]

/-- `FRAME[k]` (R25). -/
def State.frameByte (s : State) (k : Fin 9) : Byte := s.frame[k]

/-- `SS[c]` (R26). -/
def State.ss (s : State) (c : Fin 8) : SearchState := s.search[c]

/-- The eight byte indexes of `ADDR`, 0 first. -/
def addrIndexes : List (Fin 8) := [0, 1, 2, 3, 4, 5, 6, 7]

/-- The nine byte indexes of `FRAME`, 0 first. -/
def frameIndexes : List (Fin 9) := [0, 1, 2, 3, 4, 5, 6, 7, 8]

/-- The identifier a ROM code denotes: the sum of `zext_64(rom[k]) << 8k` (R24, R56). -/
def identOf (rom : Vector Byte 8) : Ident :=
  addrIndexes.foldl (fun (id : Ident) (k : Fin 8) => id + (rom[k].setWidth 64 : Ident) <<< (8 * k.val)) 0#64

/-- The byte `(LDF, LD[6:0])`, `LD` in 7-bit two's complement (R210). -/
def SearchState.byte (x : SearchState) : Byte := BitVec.ofBool x.ldf ++ BitVec.ofInt 7 x.ld

end Sys2Proof.Machine
end

