-- ==== Sys2Proof/Machine/Ops.lean ====
section
/-! DEFINITION. The operations every meaning is made of: the two upstream transfers, the delay, the event output and
the response (spec/00_scope.md section 4; spec/20_memory.md R50 to R54; spec/30_encoding.md R83 to R85). -/

namespace Sys2Proof.Machine

/-- Puts one thing on a port. -/
def emit (o : Output) (s : State) : State := { s with log := s.log ++ [o] }

/-- How the environment ends the next transfer: the next listed reply, or the free value past the list. -/
def nextReply (s : State) : Reply :=
  match s.replies with
  | r :: _ => r
  | [] => Config.freeReply s.drawn

/-- The state with that reply consumed. -/
def dropReply (s : State) : State :=
  match s.replies with
  | _ :: rs => { s with replies := rs }
  | [] => { s with drawn := s.drawn + 1 }

/-- `MemWrite(BRIDGE, n, bytes)`: one write transfer to `BRIDGE_ADDR`; a failed one raises `DU`, has delivered any
number of its leading bytes, and the rule goes on (R50, R52). -/
def memWrite (bytes : List Byte) (s : State) : State :=
  let r := nextReply s
  let delivered := if r.ack then bytes.length else min r.delivered bytes.length
  raiseIf (!r.ack) .deviceUnavailable (emit (.write s.params.bridgeAddr bytes r.ack delivered) (dropReply s))

/-- `MemRead(BRIDGE, 1)`: one read transfer from `BRIDGE_ADDR`; a failed one raises `DU`, and the byte the rule goes on
with is then a draw (R50, R53). -/
def memRead (s : State) : Byte × State :=
  let r := nextReply s
  (r.byte, raiseIf (!r.ack) .deviceUnavailable (emit (.read s.params.bridgeAddr r.ack r.byte) (dropReply s)))

/-- `Delay(us)`: changes no state of the controller (R330). -/
def delay (us : Nat) (s : State) : State := emit (.delay us) s

/-- `emit FOUND(id)` (R30, R206). -/
def emitFound (id : Ident) (s : State) : State := emit (.found id) s

/-- `respond(code)`: completes the current request with the current value of `RES` (R84). -/
def respond (code : ResponseCode) (s : State) : State := emit (.response code s.res) s

/-- `RES <- v`, then `respond(OK)`: the end of every legal request (R84, R85). -/
def finish (v : Byte) (s : State) : State := respond .ok { s with res := v }

/-- `ADDR[k] <- v` (R24). -/
def setAddr (k : Fin 8) (v : Byte) (s : State) : State := { s with addr := s.addr.set k.val v }

/-- `FRAME[k] <- v` (R25). -/
def setFrame (k : Fin 9) (v : Byte) (s : State) : State := { s with frame := s.frame.set k.val v }

/-- `SS[c] <- x` (R26). -/
def setSearch (c : Fin 8) (x : SearchState) (s : State) : State := { s with search := s.search.set c.val x }

end Sys2Proof.Machine
end

