-- ==== Sys2Proof/Machine/Buffers.lean ====
section
/-! DEFINITION. Error-flag and buffer access (spec/45_buffers_errors.md R260 to R266). -/

namespace Sys2Proof.Machine

/-- `ERR.RD` (R260). -/
def execErrRd (s : State) : StepResult := .next (finish s.err s)

/-- `ERR.CLR` (R261). -/
def execErrClr (m : BitVec 7) (s : State) : StepResult := .next (finish (clearErr m s).err (clearErr m s))

/-- `ADDR.SETB` (R262). -/
def execAddrSetb (k : Fin 8) (imm : Byte) (s : State) : StepResult := .next (finish 0x00 (setAddr k imm s))

/-- `ADDR.GETB` (R263). -/
def execAddrGetb (k : Fin 8) (s : State) : StepResult := .next (finish (s.addrByte k) s)

/-- `FRAME.SETB` (R264). -/
def execFrameSetb (k : Fin 9) (imm : Byte) (s : State) : StepResult := .next (finish 0x00 (setFrame k imm s))

/-- `FRAME.GETB` (R265). -/
def execFrameGetb (k : Fin 9) (s : State) : StepResult := .next (finish (s.frameByte k) s)

end Sys2Proof.Machine
end

