-- ==== Sys2Proof/Machine/Bridge.lean ====
section
/-! DEFINITION. The Bridge Register Interface (spec/41_bridge_register.md R100 to R110). -/

namespace Sys2Proof.Machine

/-- `writeByte(b)` (R101). -/
def writeByte (b : Byte) (s : State) : State := memWrite [b] s

/-- `writeByte2(b0, b1)`: one transfer, b0 first (R102). -/
def writeByte2 (b0 b1 : Byte) (s : State) : State := memWrite [b0, b1] s

/-- `readByte()` (R103). -/
def readByte (s : State) : Byte × State := memRead s

/-- `setReadPointer(ptr)` (R104). -/
def setReadPointer (ptr : Byte) (s : State) : State := writeByte2 s.params.cmdSrp ptr s

/-- `readStatus()` (R105). -/
def readStatus (s : State) : Byte × State := readByte (setReadPointer s.params.ptrStatus s)

/-- `readData()` (R106). -/
def readData (s : State) : Byte × State := readByte (setReadPointer s.params.ptrData s)

/-- `readConfig()` (R107). -/
def readConfig (s : State) : Byte × State := readByte (setReadPointer s.params.ptrConfig s)

/-- The polls of `waitOnBusy`: one status read, and up to `more` further ones while it shows busy, with a delay
between two polls; `TO` when the last allowed one shows busy (R109). -/
def pollLoop : (more : Nat) → State → Byte × State
  | 0, s =>
    let r := readStatus s
    (r.1, raiseIf (statusBusy s.params r.1) .timeout r.2)
  | more + 1, s =>
    let r := readStatus s
    if statusBusy s.params r.1 then pollLoop more (delay Config.pollDelayUs r.2) else r

/-- `waitOnBusy()`: at most `POLL_LIMIT` polls; answers the last status read (R109). -/
def waitOnBusy (s : State) : Byte × State := pollLoop (Config.pollLimit - 1) s

/-- `writeConfig(cfg)`: wait, write, bare readback; whether the readback matched (R108). -/
def writeConfig (cfg : Nibble) (s : State) : Bool × State :=
  let w := (waitOnBusy s).2
  let r := readByte (writeByte2 w.params.cmdWcfg (configByte cfg) w)
  let matched := r.1 == configReadback cfg
  (matched, raiseIf (!matched) .configMismatch r.2)

/-- `BR.WB` (R101). -/
def execBrWb (imm : Byte) (s : State) : StepResult := .next (finish 0x00 (writeByte imm s))

/-- `BR.WB2` (R102). -/
def execBrWb2 (imm imm2 : Byte) (s : State) : StepResult := .next (finish 0x00 (writeByte2 imm imm2 s))

/-- `BR.RB` (R103). -/
def execBrRb (s : State) : StepResult := .next (finish (readByte s).1 (readByte s).2)

/-- `BR.SRP` (R104). -/
def execBrSrp (imm : Byte) (s : State) : StepResult := .next (finish 0x00 (setReadPointer imm s))

/-- `BR.RSTAT` (R105). -/
def execBrRstat (s : State) : StepResult := .next (finish (readStatus s).1 (readStatus s).2)

/-- `BR.RDATA` (R106). -/
def execBrRdata (s : State) : StepResult := .next (finish (readData s).1 (readData s).2)

/-- `BR.RCFG` (R107). -/
def execBrRcfg (s : State) : StepResult := .next (finish (readConfig s).1 (readConfig s).2)

/-- `BR.WCFG` (R108). -/
def execBrWcfg (cfg : Nibble) (s : State) : StepResult :=
  .next (finish (boolByte (writeConfig cfg s).1) (writeConfig cfg s).2)

/-- `BR.WAIT` (R109). -/
def execBrWait (s : State) : StepResult := .next (finish (waitOnBusy s).1 (waitOnBusy s).2)

end Sys2Proof.Machine
end

