-- ==== Sys2Proof/Machine/OneWire.lean ====
section
/-! DEFINITION. The 1-Wire Transaction Layer (spec/42_onewire.md R140 to R162). -/

namespace Sys2Proof.Machine

/-- `spuEngage()`: the strong-pullup bit on, the other configuration bits kept (R141). -/
def spuEngage (s : State) : State :=
  let r := readConfig s
  (writeConfig (configNibble r.1 ||| s.params.spuMask) r.2).2

/-- `spuClear()`: the strong-pullup bit off, the other configuration bits kept (R142). -/
def spuClear (s : State) : State :=
  let r := readConfig s
  (writeConfig (configNibble r.1 &&& ~~~s.params.spuMask) r.2).2

/-- `if power == 1: spuEngage()` (R145, R149). -/
def spuEngageIf (power : Bool) (s : State) : State := if power then spuEngage s else s

/-- `wireReset()`: clears the pullup, resets the bus, raises `SC` on a short; whether a presence pulse was detected
(R143, R144). -/
def wireReset (s : State) : Bool × State :=
  let s1 := spuClear (waitOnBusy s).2
  let s2 := (waitOnBusy s1).2
  let w := waitOnBusy (writeByte s2.params.cmd1wrs s2)
  (statusPresence s.params w.1, raiseIf (statusShort s.params w.1) .shortCircuit w.2)

/-- `wireWriteByte(b, power)` (R145). -/
def wireWriteByte (b : Byte) (power : Bool) (s : State) : State :=
  let s1 := spuEngageIf power (waitOnBusy s).2
  writeByte2 s1.params.cmd1wwb b s1

/-- `wireReadByte()` (R147). -/
def wireReadByte (s : State) : Byte × State :=
  let s1 := (waitOnBusy s).2
  readData (waitOnBusy (writeByte s1.params.cmd1wrb s1)).2

/-- `wireWriteBit(v, power)` (R149). -/
def wireWriteBit (v power : Bool) (s : State) : State :=
  let s1 := spuEngageIf power (waitOnBusy s).2
  writeByte2 s1.params.cmd1wsb (bitOperand s1.params v) s1

/-- `wireReadBit()`: writes a 1 without power and answers the sample bit (R151). -/
def wireReadBit (s : State) : Bool × State :=
  let w := waitOnBusy (wireWriteBit true false s)
  (statusSample s.params w.1, w.2)

/-- `wireSkip()` (R153). -/
def wireSkip (s : State) : State := wireWriteByte s.params.romSkip false s

/-- The identifier bytes of `wireSelect()`, for the byte indexes `ks` (R155). -/
def sendAddr (ks : List (Fin 8)) (s : State) : State :=
  ks.foldl (fun s k => wireWriteByte (s.addrByte k) false s) s

/-- `wireSelect()`: match ROM, then `ADDR[0]` to `ADDR[7]` (R57, R155). -/
def wireSelect (s : State) : State := sendAddr addrIndexes (wireWriteByte s.params.romMatch false s)

/-- `setChannel(c)`: whether the bare readback matched `CH_READ[c]` (R157). -/
def setChannel (c : Fin 8) (s : State) : Bool × State :=
  let w := (waitOnBusy s).2
  let r := readByte (writeByte2 w.params.cmdChsl w.params.chWrite[c] w)
  let matched := r.1 == s.params.chRead[c]
  (matched, raiseIf (!matched) .channelSelectMismatch r.2)

/-- `triplet(d)`: the id, cmp and dir bits of the status after the command (R159). -/
def triplet (d : Bool) (s : State) : Triplet × State :=
  let s1 := (waitOnBusy s).2
  let w := waitOnBusy (writeByte2 s1.params.cmd1wt (bitOperand s1.params d) s1)
  (statusTriplet s.params w.1, w.2)

/-- `FRAME[k] <- wireReadByte()` (R160). -/
def readFrameByte (s : State) (k : Fin 9) : State := setFrame k (wireReadByte s).1 (wireReadByte s).2

/-- `OW.RESET` (R143). -/
def execOwReset (s : State) : StepResult := .next (finish (boolByte (wireReset s).1) (wireReset s).2)

/-- `OW.WB` (R145). -/
def execOwWb (imm : Byte) (p : Bool) (s : State) : StepResult := .next (finish 0x00 (wireWriteByte imm p s))

/-- `OW.RB` (R147). -/
def execOwRb (s : State) : StepResult := .next (finish (wireReadByte s).1 (wireReadByte s).2)

/-- `OW.WBIT` (R149). -/
def execOwWbit (bit p : Bool) (s : State) : StepResult := .next (finish 0x00 (wireWriteBit bit p s))

/-- `OW.RBIT` (R151). -/
def execOwRbit (s : State) : StepResult := .next (finish (boolByte (wireReadBit s).1) (wireReadBit s).2)

/-- `OW.SKIP` (R153). -/
def execOwSkip (s : State) : StepResult := .next (finish 0x00 (wireSkip s))

/-- `OW.SELECT` (R155). -/
def execOwSelect (s : State) : StepResult := .next (finish 0x00 (wireSelect s))

/-- `OW.CHAN` (R157). -/
def execOwChan (c : Fin 8) (s : State) : StepResult := .next (finish (boolByte (setChannel c s).1) (setChannel c s).2)

/-- `OW.TRIP` (R159). -/
def execOwTrip (dir : Bool) (s : State) : StepResult := .next (finish (triplet dir s).1.byte (triplet dir s).2)

/-- `OW.RFRAME` (R160). -/
def execOwRframe (s : State) : StepResult := .next (finish 0x00 (frameIndexes.foldl readFrameByte s))

/-- `OW.PULLUP` (R162). -/
def execOwPullup (on : Bool) (s : State) : StepResult :=
  let w := (waitOnBusy s).2
  .next (finish 0x00 (if on then spuEngage w else spuClear w))

end Sys2Proof.Machine
end

