-- ==== Sys2Proof/Machine/Search.lean ====
section
/-! DEFINITION. The Bus Search Engine (spec/43_search.md R190 to R211). -/

namespace Sys2Proof.Machine

/-- `wireResetSearch(c)` (R191). -/
def wireResetSearch (c : Fin 8) (s : State) : State := setSearch c .fresh s

/-- The direction the controller drives at bit `i`: below `LD` the recorded bit, at `LD` a 1, above it a 0 (R193). -/
def searchDirection (x : SearchState) (i : Fin 64) : Bool :=
  if (i.val : Int) < x.ld then romBit x.romBuf i else decide ((i.val : Int) = x.ld)

/-- `ROMBUF[c]` with bit `i` set to `b` (R192). -/
def recordBit (c : Fin 8) (i : Fin 64) (b : Bool) (s : State) : State :=
  setSearch c { s.ss c with romBuf := setRomBit (s.ss c).romBuf i b } s

/-- The tentative discrepancy after the triplet `r` at bit `i` (R194). -/
def tentative (i : Fin 64) (r : Triplet) (t : Int) : Int := if !r.id && !r.cmp && !r.dir then i.val else t

/-- Step 4 of a search pass over the bit positions listed: the last tentative discrepancy, or `none` where a triplet
was inconsistent, which raises `SI` and leaves that position unwritten (R192 to R195). -/
def searchBits (c : Fin 8) : List (Fin 64) → Int → State → Option Int × State
  | [], t, s => (some t, s)
  | i :: is, t, s =>
    let r := triplet (searchDirection (s.ss c) i) s
    if r.1.id && r.1.cmp then (none, raiseErr .searchInconsistent r.2)
    else searchBits c is (tentative i r.1 t) (recordBit c i r.1.dir r.2)

/-- The bit positions 0 to 63 in order. -/
def bitPositions : List (Fin 64) := List.finRange 64

/-- Steps 5 to 7 of a complete pass: `LD`, `LDF`, and `ADDR` from the buffer (R196, R197). -/
def recordFound (c : Fin 8) (t : Int) (s : State) : State :=
  let x := s.ss c
  { setSearch c { x with ld := t, ldf := x.ldf || decide (t = -1) } s with addr := x.romBuf }

/-- `wireSearch(c)`: whether a device was found (R192). -/
def wireSearch (c : Fin 8) (s : State) : Bool × State :=
  if (s.ss c).ldf then (false, s)
  else
    let p := wireReset s
    if !p.1 then (false, p.2)
    else
      match searchBits c bitPositions (-1) (wireWriteByte s.params.romSearch false p.2) with
      | (none, s') => (false, s')
      | (some t, s') => (true, recordFound c t s')

/-- One turn of the loop of `searchAll()` with `n` valid identifiers found so far: one `wireSearch`; a device found is
emitted or raises `CRC`, and the loop goes on; otherwise the loop ends and the request responds (R205, R206). -/
def searchAllPass (c : Fin 8) (n : Nat) (s : State) : State :=
  let r := wireSearch c s
  if r.1 then
    if addrValid r.2 then { emitFound (identOf r.2.addr) r.2 with running := some ⟨c, n + 1⟩ }
    else { raiseErr .crcValidationFailure r.2 with running := some ⟨c, n⟩ }
  else finish (BitVec.ofNat 8 (min n 255)) { r.2 with running := none }

/-- `SR.RESET` (R191). -/
def execSrReset (c : Fin 8) (s : State) : StepResult := .next (finish 0x00 (wireResetSearch c s))

/-- `SR.NEXT` (R192). -/
def execSrNext (c : Fin 8) (s : State) : StepResult := .next (finish (boolByte (wireSearch c s).1) (wireSearch c s).2)

/-- `SR.ALL`: the search reset and the first turn of the loop; each later turn is a step of its own, so the loop has no
bound (R205, R207; notes/assumptions/4.md). -/
def execSrAll (c : Fin 8) (s : State) : StepResult := .next (searchAllPass c 0 (wireResetSearch c s))

/-- `SR.STATE` (R210). -/
def execSrState (c : Fin 8) (s : State) : StepResult := .next (finish (s.ss c).byte s)

/-- `SR.ROMB` (R211). -/
def execSrRomb (c k : Fin 8) (s : State) : StepResult := .next (finish (s.ss c).romBuf[k] s)

end Sys2Proof.Machine
end

