-- ==== Sys2Proof/Machine/Dispatch.lean ====
section
/-! DEFINITION. One arm for each request of the opcode map (spec/30_encoding.md R86). -/

namespace Sys2Proof.Machine

def exec (i : Instr) (s : State) : Host.Outcome State Fault Refusal :=
  match i with
  | .brWb imm => Sys2Proof.Machine.execBrWb imm s
  | .brWb2 imm imm2 => Sys2Proof.Machine.execBrWb2 imm imm2 s
  | .brRb => Sys2Proof.Machine.execBrRb s
  | .brSrp imm => Sys2Proof.Machine.execBrSrp imm s
  | .brRstat => Sys2Proof.Machine.execBrRstat s
  | .brRdata => Sys2Proof.Machine.execBrRdata s
  | .brRcfg => Sys2Proof.Machine.execBrRcfg s
  | .brWcfg cfg => Sys2Proof.Machine.execBrWcfg cfg s
  | .brWait => Sys2Proof.Machine.execBrWait s
  | .owReset => Sys2Proof.Machine.execOwReset s
  | .owWb imm p => Sys2Proof.Machine.execOwWb imm p s
  | .owRb => Sys2Proof.Machine.execOwRb s
  | .owWbit bit p => Sys2Proof.Machine.execOwWbit bit p s
  | .owRbit => Sys2Proof.Machine.execOwRbit s
  | .owSkip => Sys2Proof.Machine.execOwSkip s
  | .owSelect => Sys2Proof.Machine.execOwSelect s
  | .owChan c => Sys2Proof.Machine.execOwChan c s
  | .owTrip dir => Sys2Proof.Machine.execOwTrip dir s
  | .owRframe => Sys2Proof.Machine.execOwRframe s
  | .owPullup on => Sys2Proof.Machine.execOwPullup on s
  | .srReset c => Sys2Proof.Machine.execSrReset c s
  | .srNext c => Sys2Proof.Machine.execSrNext c s
  | .srAll c => Sys2Proof.Machine.execSrAll c s
  | .srState c => Sys2Proof.Machine.execSrState c s
  | .srRomb c k => Sys2Proof.Machine.execSrRomb c k s
  | .crcStep imm imm2 => Sys2Proof.Machine.execCrcStep imm imm2 s
  | .crcAddr n => Sys2Proof.Machine.execCrcAddr n s
  | .crcFrame n => Sys2Proof.Machine.execCrcFrame n s
  | .crcChkaddr => Sys2Proof.Machine.execCrcChkaddr s
  | .crcChkframe => Sys2Proof.Machine.execCrcChkframe s
  | .errRd => Sys2Proof.Machine.execErrRd s
  | .errClr m => Sys2Proof.Machine.execErrClr m s
  | .addrSetb k imm => Sys2Proof.Machine.execAddrSetb k imm s
  | .addrGetb k => Sys2Proof.Machine.execAddrGetb k s
  | .frameSetb k imm => Sys2Proof.Machine.execFrameSetb k imm s
  | .frameGetb k => Sys2Proof.Machine.execFrameGetb k s

end Sys2Proof.Machine
end

