-- ==== Sys2Proof/Machine/Port.lean ====
section
/-! DEFINITION. The request port and the reset input (spec/10_state.md R31, R32, R39; spec/30_encoding.md R83;
spec/70_reset_and_hazards.md R310 to R313). -/

namespace Sys2Proof.Machine

/-- One request word: the decoded request's effect, or the answer ILLEGAL with no other effect (R82, R83, R291). -/
def serve (w : Request) (s : State) : StepResult :=
  match decode s.params.numChannels w with
  | .ok i => exec i s
  | .error _ => .next (respond .illegal s)

/-- What the controller does next, no reset intervening: the next turn of an unfinished `SR.ALL`; else the next request
in arrival order; else nothing (R31, R32, R64, R333). -/
def advance (s : State) : StepResult :=
  match s.running with
  | some a => .next (searchAllPass a.chan a.found s)
  | none =>
    match s.requests with
    | w :: ws => serve w { s with requests := ws }
    | [] => .next s

/-- The assertion of the reset input: every piece of controller state at the value of R39, the drawn ones from the
input; no transfer; the bridge and the waiting requests as they are (R310, R312, R313). -/
def assertReset (d : ResetInput) (s : State) : State :=
  { s with
    res := d.res
    err := 0#8
    addr := d.addr
    frame := d.frame
    search := Vector.replicate 8 .fresh
    running := none
    resetIn := none
    log := s.log ++ [.reset] }

/-- Whether an output is an upstream transfer. -/
def Output.isTransfer : Output → Bool
  | .write _ _ _ _ | .read _ _ _ => true
  | .delay _ | .found _ | .response _ _ | .reset => false

/-- What was put on the upstream port up to and with the `k`-th transfer of a list of outputs, with the delays between;
no event and no response. -/
def cutAfter : (k : Nat) → List Output → List Output
  | 0, _ => []
  | _ + 1, [] => []
  | k + 1, o :: os =>
    if o.isTransfer then o :: cutAfter k os
    else
      match o with
      | .delay us => .delay us :: cutAfter (k + 1) os
      | _ => cutAfter (k + 1) os

/-- The reset input asserted while `s` runs on to `t`, after `k` transfers: those transfers were issued, nothing after
them, no response, and every state write is overridden by the reset (R311). -/
def abandon (k : Nat) (d : ResetInput) (s t : State) : State :=
  let issued := cutAfter k (t.log.drop s.log.length)
  let n := issued.countP Output.isTransfer
  assertReset d { s with
    requests := t.requests
    replies := s.replies.drop n
    drawn := s.drawn + (n - s.replies.length)
    log := s.log ++ issued }

/-- One step with the reset input taken into account. -/
def stepOnce (s : State) : StepResult :=
  match s.resetIn with
  | none => advance s
  | some d =>
    match d.time with
    | .beforeRequest => .next (assertReset d s)
    | .during k =>
      match advance s with
      | .next t => .next (abandon k d s t)
      | .fault r => .fault r
      | .refused r => .refused r

/-- The FOUND events since the last reset, in emission order (R30, R39). -/
def eventsIn : List Output → List Ident
  | [] => []
  | .found id :: os => if os.contains .reset then eventsIn os else id :: eventsIn os
  | _ :: os => eventsIn os

/-- The event output (R30). -/
def State.events (s : State) : List Ident := eventsIn s.log

end Sys2Proof.Machine
end

