-- ==== Sys2Proof/Machine/Step.lean ====
section
/-! DEFINITION. One step of the controller: one request, or one turn of an unfinished `SR.ALL`, or one assertion of the
reset input (notes/assumptions/4.md, notes/assumptions/5.md). -/

namespace Sys2Proof.Machine

/-- One step. -/
def step (s : State) : Host.Outcome State Fault Refusal := stepOnce s

/-- `s` with the request whose bits are `w` as the next one on the request port: no `SR.ALL` runs and no reset is
pending, so that the very next step accepts it (notes/assumptions/6.md). -/
def State.withFetchWord (s : State) (nbits w : Nat) : State :=
  { s with
    running := none
    resetIn := none
    requests := BitVec.ofNat 32 (w % 2 ^ nbits) :: s.requests }

end Sys2Proof.Machine
end

