-- ==== Sys2Proof/Safety.lean ====
section
/-! DEFINITION. The terms the statements use: the legal states, what a request may put on the upstream port and which
flags it may raise, the transfers of an idle bridge, and the well-behaved bus (spec/10_state.md R28;
spec/43_search.md section 3; spec/60_exceptions.md R282; spec/70_reset_and_hazards.md R331). -/

namespace Sys2Proof.Machine

/-- The three FSM states of a search state (R28). -/
inductive SearchPhase where
  | fresh
  | inProgress
  | exhausted
deriving DecidableEq, Repr

/-- The FSM state, a function of `(LD, LDF)` (R28). -/
def SearchState.phase (x : SearchState) : SearchPhase :=
  if x.ldf then .exhausted else if x.ld = -1 then .fresh else .inProgress

/-- `LD` is in -1..63, and is -1 whenever `LDF` is set (R26, R28, R196). -/
def SearchState.legal (x : SearchState) : Prop :=
  -1 ≤ x.ld ∧ x.ld ≤ 63 ∧ (x.ldf = true → x.ld = -1)

/-- The legal states: `ERR` bit 7 is 0 (R22), every search state is legal, and the parameters meet R8. -/
structure State.Inv (s : State) : Prop where
  errBit7 : s.err.getLsbD 7 = false
  searchLegal : ∀ c : Fin 8, (s.ss c).legal
  paramsWf : s.params.wf = true

/-- The bound that R82 point 3 puts on `idx` in the request's row beyond its mask: a channel below `NUM_CHANNELS`, an
`ADDR` index up to 7, a `FRAME` index up to 8, a length up to 8 or 9 (R81). -/
def idxBound (numChannels : Nat) : Instr → Option Nat
  | .owChan _ | .srReset _ | .srNext _ | .srAll _ | .srState _ | .srRomb _ _ => some numChannels
  | .addrSetb _ _ | .addrGetb _ => some 8
  | .crcAddr _ | .frameSetb _ _ | .frameGetb _ => some 9
  | .crcFrame _ => some 10
  | .brWb _ | .brWb2 _ _ | .brRb | .brSrp _ | .brRstat | .brRdata | .brRcfg | .brWcfg _ | .brWait
  | .owReset | .owWb _ _ | .owRb | .owWbit _ _ | .owRbit | .owSkip | .owSelect | .owTrip _
  | .owRframe | .owPullup _ | .crcStep _ _ | .crcChkaddr | .crcChkframe | .errRd | .errClr _ => none

/-- An output on the upstream port: a write of 1 or 2 bytes or a one-byte read, to `dev` and no other address, or a
delay between two polls (R50, R52, R53, R61). -/
def Output.upstream (dev : BitVec 7) : Output → Bool
  | .write d bytes ack delivered =>
    d == dev && (bytes.length == 1 || bytes.length == 2) && decide (delivered ≤ bytes.length) &&
      (!ack || delivered == bytes.length)
  | .read d _ _ => d == dev
  | .delay us => us == Config.pollDelayUs
  | .found _ | .response _ _ | .reset => false

/-- How many upstream transfers a list of outputs holds. -/
def transfersIn (os : List Output) : Nat := os.countP Output.isTransfer

/-- How many delays a list of outputs holds. -/
def delaysIn (os : List Output) : Nat := os.countP fun o => !o.isTransfer

/-- The byte of the last read in a list of outputs. -/
def lastRead : List Output → Option Byte
  | [] => none
  | o :: os =>
    match lastRead os, o with
    | some b, _ => some b
    | none, .read _ _ b => some b
    | none, _ => none

/-- The `ERR` byte with the bits of these kinds. -/
def flagMask (ks : List ErrKind) : Byte := ks.foldr (fun k m => k.mask ||| m) 0#8

/-- The error kinds a request can raise (R282). -/
def mayRaise : Instr → List ErrKind
  | .brWb _ | .brWb2 _ _ | .brRb | .brSrp _ | .brRstat | .brRdata | .brRcfg => [.deviceUnavailable]
  | .brWcfg _ => [.timeout, .configMismatch, .deviceUnavailable]
  | .brWait => [.timeout, .deviceUnavailable]
  | .owReset => [.timeout, .shortCircuit, .configMismatch, .deviceUnavailable]
  | .owWb _ p | .owWbit _ p =>
    if p then [.timeout, .configMismatch, .deviceUnavailable] else [.timeout, .deviceUnavailable]
  | .owRb | .owRbit | .owSkip | .owSelect | .owTrip _ | .owRframe => [.timeout, .deviceUnavailable]
  | .owChan _ => [.timeout, .channelSelectMismatch, .deviceUnavailable]
  | .owPullup _ => [.timeout, .configMismatch, .deviceUnavailable]
  | .srNext _ => [.timeout, .shortCircuit, .configMismatch, .deviceUnavailable, .searchInconsistent]
  | .srAll _ =>
    [.timeout, .shortCircuit, .configMismatch, .deviceUnavailable, .crcValidationFailure, .searchInconsistent]
  | .crcChkaddr | .crcChkframe => [.crcValidationFailure]
  | .srReset _ | .srState _ | .srRomb _ _ | .crcStep _ _ | .crcAddr _ | .crcFrame _ | .errRd | .errClr _
  | .addrSetb _ _ | .addrGetb _ | .frameSetb _ _ | .frameGetb _ => []

/-- `F + 2 × (polls)` transfers for `waits` waits of `polls` polls each (R331). -/
def costOf (waits others polls : Nat) : Nat := others + 2 * (waits * polls)

/-- `W` and `F` of R331, the longest case for a search pass. -/
def requestCost : Instr → Nat × Nat
  | .brWb _ | .brWb2 _ _ | .brRb | .brSrp _ => (0, 1)
  | .brRstat | .brRdata | .brRcfg => (0, 2)
  | .brWcfg _ => (1, 2)
  | .brWait => (1, 0)
  | .owReset => (4, 5)
  | .owWb _ p | .owWbit _ p => if p then (2, 5) else (1, 1)
  | .owSkip => (1, 1)
  | .owRb => (2, 3)
  | .owRbit | .owTrip _ => (2, 1)
  | .owSelect => (9, 9)
  | .owChan _ => (1, 2)
  | .owRframe => (18, 27)
  | .owPullup _ => (2, 4)
  | .srNext _ | .srAll _ => (133, 70)
  | .srReset _ | .srState _ | .srRomb _ _ | .crcStep _ _ | .crcAddr _ | .crcFrame _ | .crcChkaddr | .crcChkframe
  | .errRd | .errClr _ | .addrSetb _ _ | .addrGetb _ | .frameSetb _ _ | .frameGetb _ => (0, 0)

/-- The most transfers of a request, or of the first pass of `SR.ALL`: every wait times out (R331). -/
def mostTransfers (i : Instr) : Nat := costOf (requestCost i).1 (requestCost i).2 Config.pollLimit

/-- The fewest transfers of a request: every wait takes one poll. A search on an exhausted channel takes none, and the
first pass of `SR.ALL` at least a bus reset (R331). -/
def fewestTransfers : Instr → Nat
  | .srNext _ => 0
  | .srAll _ => 13
  | i => costOf (requestCost i).1 (requestCost i).2 1

/-- `t` comes from `s` by a part of a rule that raises at most `flags` and makes `lo` to `hi` transfers: it changes
`ERR` by an OR (R290), it puts only transfers to the bridge and delays on the ports, each transfer takes the next reply of
the environment, and the request port, the reset input and the parameters stay as they are. -/
structure Ran (flags : Byte) (lo hi : Nat) (s t : State) : Prop where
  running : t.running = s.running
  requests : t.requests = s.requests
  resetIn : t.resetIn = s.resetIn
  params : t.params = s.params
  err : ∃ raised, t.err = s.err ||| raised ∧ raised &&& ~~~flags = 0#8
  port : ∃ new, t.log = s.log ++ new ∧ (∀ o ∈ new, o.upstream s.params.bridgeAddr = true) ∧
    lo ≤ transfersIn new ∧ transfersIn new ≤ hi ∧
    t.replies = s.replies.drop (transfersIn new) ∧ t.drawn = s.drawn + (transfersIn new - s.replies.length)

/-- The registers that no transfer, delay or raise changes. -/
structure SameRegs (s t : State) : Prop where
  res : t.res = s.res
  addr : t.addr = s.addr
  frame : t.frame = s.frame
  search : t.search = s.search

/-- How the `k`-th transfer from `s` on will end. -/
def State.replyAt (s : State) (k : Nat) : Reply :=
  if h : k < s.replies.length then s.replies[k] else Config.freeReply (s.drawn + (k - s.replies.length))

/-- One transfer of a rule: a write of these bytes, or a one-byte read. -/
inductive Transfer where
  | wr (bytes : List Byte)
  | rd
deriving DecidableEq, Repr

/-- The state after one transfer. -/
def transfer (s : State) : Transfer → State
  | .wr bytes => memWrite bytes s
  | .rd => (memRead s).2

/-- The state after these transfers, in order. -/
def transact (ts : List Transfer) (s : State) : State := ts.foldl transfer s

/-- The two transfers of a read of the register a pointer code selects (R105 to R107, R109). -/
def pollTransfers (p : Params) (ptr : Byte) : List Transfer := [.wr [p.cmdSrp, ptr], .rd]

/-- The transfers of a configuration write whose wait takes one poll (R108). -/
def writeConfigTransfers (p : Params) (cfg : Nibble) : List Transfer :=
  pollTransfers p p.ptrStatus ++ [.wr [p.cmdWcfg, configByte cfg], .rd]

/-- The transfers of a pullup change to `cfg` whose wait takes one poll (R141, R142). -/
def spuTransfers (p : Params) (cfg : Nibble) : List Transfer :=
  pollTransfers p p.ptrConfig ++ writeConfigTransfers p cfg

/-- The transfers of a bus reset whose four waits take one poll each (R143). -/
def resetTransfers (p : Params) (cfg : Nibble) : List Transfer :=
  pollTransfers p p.ptrStatus ++ spuTransfers p cfg ++ pollTransfers p p.ptrStatus ++ [.wr [p.cmd1wrs]] ++
    pollTransfers p p.ptrStatus

/-- A wait of one poll, a command, and a second wait of one poll (R151, R159). -/
def commandTransfers (p : Params) (command : List Byte) : List Transfer :=
  pollTransfers p p.ptrStatus ++ [.wr command] ++ pollTransfers p p.ptrStatus

/-- The transfers of a 1-Wire byte read whose two waits take one poll each (R147). -/
def readByteTransfers (p : Params) : List Transfer :=
  commandTransfers p [p.cmd1wrb] ++ pollTransfers p p.ptrData

/-- Whether the `k`-th transfer from `s` on, a status read, shows the bridge not busy. -/
def State.idleAt (s : State) (k : Nat) : Prop := statusBusy s.params (s.replyAt k).byte = false

/-- The transfers of a list of outputs, in order, without what the environment answered. -/
def transfersOf (os : List Output) : List Transfer :=
  os.filterMap fun o =>
    match o with
    | .write _ bytes _ _ => some (.wr bytes)
    | .read _ _ _ => some .rd
    | .delay _ | .found _ | .response _ _ | .reset => none

/-- Whether the `k`-th transfer from `s` on, a status read, shows the bridge busy. -/
def State.busyAt (s : State) (k : Nat) : Prop := statusBusy s.params (s.replyAt k).byte = true

/-- A wait whose first transfer is the `k`-th from `s` on makes `n` polls: the first that shows not busy is the `n`-th, or
there is none among the first `POLL_LIMIT` and `n` is `POLL_LIMIT` (R110). -/
def State.waitMakes (s : State) (k n : Nat) : Prop :=
  1 ≤ n ∧ n ≤ 1000 ∧ (∀ j, j < n - 1 → s.busyAt (k + 2 * j + 1)) ∧
    (n < 1000 → statusBusy s.params (s.replyAt (k + 2 * (n - 1) + 1)).byte = false)

/-- A wait whose first transfer is the `k`-th from `s` on times out: all `POLL_LIMIT` polls show busy (R110). -/
def State.timesOutAt (s : State) (k : Nat) : Prop := ∀ j, j < 1000 → s.busyAt (k + 2 * j + 1)

/-- A part of a rule: a wait of `polls` polls, and the transfers between it and the next wait or the end. -/
structure Segment where
  polls : Nat
  body : List Transfer
deriving DecidableEq, Repr

/-- The transfers of a part. -/
def Segment.transfers (p : Params) (x : Segment) : List Transfer :=
  (List.replicate x.polls (pollTransfers p p.ptrStatus)).flatten ++ x.body

/-- Each wait of the parts, the first starting at the `k`-th transfer from `s` on, makes the polls it is listed with. -/
def State.waitsMake (s : State) : (k : Nat) → List Segment → Prop
  | _, [] => True
  | k, x :: xs => s.waitMakes k x.polls ∧ s.waitsMake (k + (x.transfers s.params).length) xs

/-- One of the waits of the parts times out. -/
def State.someWaitTimesOut (s : State) : (k : Nat) → List Segment → Prop
  | _, [] => False
  | k, x :: xs => s.timesOutAt k ∨ s.someWaitTimesOut (k + (x.transfers s.params).length) xs

/-- The request completes with the result `v`, having issued these parts in order whatever their waits found, and `TO` is
set after it exactly where it was set before or one of the waits times out (R109, R110, R281). -/
def issues (i : Instr) (s : State) (v : Byte) (xs : List Segment) : Prop :=
  ∃ t new, exec i s = .next t ∧ t.res = v ∧ t.log = s.log ++ new ++ [.response .ok v] ∧
    transfersOf new = xs.flatMap (Segment.transfers s.params) ∧ s.waitsMake 0 xs ∧
    (t.err.getLsbD 0 = true ↔ s.err.getLsbD 0 = true ∨ s.someWaitTimesOut 0 xs)

/-- `s` after `n` steps of `SR.NEXT c` as the next request, each served at once. -/
def afterNexts (c : Fin 8) : (n : Nat) → State → State
  | 0, s => s
  | n + 1, s =>
    let t := afterNexts c n s
    finish (boolByte (wireSearch c t).1) (wireSearch c t).2

/-- Bit `i` of an identifier: the search's bit position `i` (R58). -/
def identBit (v : Ident) (i : Fin 64) : Bool := v.getLsbD i.val

/-- `v` precedes `w` in the order of the bit sequence (bit 0, bit 1, ..., bit 63), bit 0 first (R198). -/
def precedes (v w : Ident) : Prop :=
  ∃ i : Fin 64, (∀ j : Fin 64, j < i → identBit v j = identBit w j) ∧ identBit v i = false ∧ identBit w i = true

/-- What a well-behaved bus answers to a triplet at bit `i` with direction `d` while the devices `ds` participate
(spec/43_search.md section 3). -/
def busAnswer (ds : List Ident) (i : Fin 64) (d : Bool) : Triplet :=
  let id := ds.all fun v => identBit v i
  let cmp := ds.all fun v => !identBit v i
  ⟨id, cmp, if id == cmp then d else id⟩

/-- The triplets of a pass over the bit positions listed are answered as by the devices `ds`: a device participates
while its bits so far equal the directions taken. -/
def wellBehavedBits (c : Fin 8) : List (Fin 64) → List Ident → State → Bool
  | [], _, _ => true
  | i :: is, ds, s =>
    let d := searchDirection (s.ss c) i
    let r := triplet d s
    decide (r.1 = busAnswer ds i d) &&
      wellBehavedBits c is (ds.filter fun v => identBit v i == r.1.dir) (recordBit c i r.1.dir r.2)

/-- A pass from `s` finds a well-behaved bus with the devices `ds`: presence is reported exactly when there is one,
and the triplets are answered by them (spec/43_search.md section 3). The answers are read through the model's own
`wireReset` and `triplet`: DESIGN CHOICE (notes/assumptions/11.md). -/
def wellBehavedPass (c : Fin 8) (ds : List Ident) (s : State) : Bool :=
  (wireReset s).1 == !ds.isEmpty &&
    (ds.isEmpty || wellBehavedBits c bitPositions ds (wireWriteByte s.params.romSearch false (wireReset s).2))

/-- Byte `k` of an identifier (R24, R56). -/
def identByte (v : Ident) (k : Nat) : Byte := (v >>> (8 * k)).setWidth 8

/-- An identifier is valid: the CRC of its first seven bytes is its eighth (R205, R236). -/
def identValid (init : Byte) (v : Ident) : Bool := crc8 init ((List.range 7).map (identByte v)) == identByte v 7

end Sys2Proof.Machine
end

