-- ==== Sys2Proof/Certificates/Slice0/Obligations.lean ====
section
/-! DEFINITION. The statements for the provers. Each docstring names the rule of spec/ it formalises. -/

open Sys2Proof Sys2Proof.Machine

/-! ### The request word -/

/-- Vectors E-1 to E-12 of spec/95_test_vectors.md section 2. -/
def Obligations.VectorWordsDecode : Prop :=
  decode 8 0x0000CC11#32 = .ok (.owWb 0xCC#8 false) ∧ decode 8 0x00104411#32 = .ok (.owWb 0x44#8 true) ∧
  decode 8 0xF000E102#32 = .ok (.brWb2 0xE1#8 0xF0#8) ∧ decode 8 0x00030021#32 = .ok (.srNext 3) ∧
  decode 8 0x0007A23A#32 = .ok (.addrSetb 7 0xA2#8) ∧ decode 8 0xBC001C30#32 = .ok (.crcStep 0x1C#8 0xBC#8) ∧
  decode 8 0x00000524#32 = .ok (.srRomb 0 5) ∧ decode 8 0x00090032#32 = .ok (.crcFrame 9) ∧
  decode 8 0x00000118#32 = .ok (.owTrip true) ∧ decode 8 0x00100113#32 = .ok (.owWbit true true) ∧
  decode 8 0x00007F39#32 = .ok (.errClr 0x7F#7) ∧ decode 8 0x00000F08#32 = .ok (.brWcfg 0xF#4) ∧
  decode 1 0x00000021#32 = .ok (.srNext 0) ∧ decode 8 0x0008003D#32 = .ok (.frameGetb 8)

/-- R82: legality is the row's mask and match, the row's constraint on `idx`, and eight channels for `OW.CHAN`. The row
is that of some request `j` (`Instr.row` is the table of spec/opcode_table.json). -/
def Obligations.LegalWordsAreThoseOfTheTable : Prop :=
  ∀ (numChannels : Nat) (w : Request), numChannels = 1 ∨ numChannels = 8 →
    ((∃ i, decode numChannels w = .ok i) ↔
      ∃ j : Instr, w &&& j.row.1 = j.row.2 ∧
        (∀ bound, idxBound numChannels j = some bound → (unpack w).idx.toNat < bound) ∧
        (∀ c, j = .owChan c → numChannels = 8))

/-- Every well-formed request decodes from its word, with every operand at every value (from R80, R82, R86). -/
def Obligations.DecodeOfEncode : Prop :=
  ∀ (numChannels : Nat) (i : Instr), i.wf numChannels = true → decode numChannels (encode i) = .ok i

/-- A legal word is the word of the request it decodes to, and that request is well-formed: no bit of a word is
ignored (from R82, R87). -/
def Obligations.EncodeOfDecode : Prop :=
  ∀ (numChannels : Nat) (w : Request) (i : Instr), decode numChannels w = .ok i →
    encode i = w ∧ i.wf numChannels = true

/-- No word matches the rows of two different operations (from R82, R86). -/
def Obligations.RowsDoNotOverlap : Prop :=
  ∀ (w : Request) (i j : Instr), w &&& i.row.1 = i.row.2 → w &&& j.row.1 = j.row.2 → i.row = j.row

/-! ### Steps -/

/-- A step runs the decoded request: with no reset pending and no `SR.ALL` unfinished, the first waiting request is
taken off the port and executed (from R31, R32, R82). -/
def Obligations.StepServesTheDecodedRequest : Prop :=
  ∀ (s : State) (w : Request) (ws : List Request) (i : Instr),
    s.resetIn = none → s.running = none → s.requests = w :: ws → decode s.params.numChannels w = .ok i →
    step s = exec i { s with requests := ws }

/-- R83: an ILLEGAL request changes no controller state; its response carries the unchanged `RES`. -/
def Obligations.IllegalRequestOnlyAnswers : Prop :=
  ∀ (s : State) (w : Request) (ws : List Request) (e : Illegal),
    s.resetIn = none → s.running = none → s.requests = w :: ws → decode s.params.numChannels w = .error e →
    step s = .next { s with requests := ws, log := s.log ++ [.response .illegal s.res] }

/-- Between two requests the controller is idle and issues no transfer (from R64, R333). That a step exists then is the
model's choice (notes/assumptions/4.md). -/
def Obligations.IdleControllerDoesNothing : Prop :=
  ∀ s : State, s.resetIn = none → s.running = none → s.requests = [] → step s = .next s

/-- An `SR.ALL` that has not responded goes on with its next pass; no waiting request is accepted before it has
responded (from R31, R205). One pass a step is the model's choice (notes/assumptions/4.md). -/
def Obligations.UnfinishedSearchAllKeepsThePort : Prop :=
  ∀ (s : State) (a : SearchAllRun), s.resetIn = none → s.running = some a →
    ∃ t, step s = .next t ∧ t = searchAllPass a.chan a.found s ∧ t.requests = s.requests

/-- No step stops: the controller has no trap, no fault and no halt (from R280, R294, R296). -/
def Obligations.EveryStepGoesOn : Prop :=
  ∀ s : State, ∃ t, step s = .next t

/-- The values R39 states for reset; `RES`, `ADDR`, `FRAME` are not stated there and not stated here. -/
def Obligations.StateAfterReset : Prop :=
  State.reset.err = 0x00#8 ∧ (∀ c, State.reset.ss c = ⟨Vector.replicate 8 0x00#8, -1, false⟩) ∧
    State.reset.events = [] ∧ State.reset.running = none

/-- The reset input puts every register at its reset value, the drawn ones at any value the input carries; it issues no
transfer and no response, and leaves the bridge as it is (from R39, R310, R312, R313). The model's choice: that the waiting
requests stay, and the form of the reset input (notes/assumptions/5.md); the reset mark in the log
(notes/assumptions/7.md). -/
def Obligations.ResetInputBetweenRequests : Prop :=
  ∀ (s : State) (d : ResetInput), s.resetIn = some d → d.time = .beforeRequest →
    ∃ t, step s = .next t ∧ t.err = 0x00#8 ∧ t.res = d.res ∧ t.addr = d.addr ∧ t.frame = d.frame ∧
      (∀ c, t.ss c = ⟨Vector.replicate 8 0x00#8, -1, false⟩) ∧ t.events = [] ∧ t.running = none ∧
      t.resetIn = none ∧ t.log = s.log ++ [.reset] ∧ t.requests = s.requests ∧ t.replies = s.replies ∧
      t.drawn = s.drawn ∧ t.params = s.params

/-- A reset that arrives while a request (or a pass of `SR.ALL`) runs abandons it. Of the outputs `new` it would have made,
only transfers and delays are issued, the first `k` transfers of them in the same order; no response; no state write of it
takes effect (from R311). The model's choice (notes/assumptions/5.md, notes/assumptions/7.md): the form of the reset input,
so that with nothing waiting it acts as one between requests; that the requests left waiting stay; that an event of the
abandoned pass is not emitted; the reset mark in the log. -/
def Obligations.ResetAbandonsTheRequest : Prop :=
  ∀ (s u : State) (d : ResetInput) (k : Nat), s.resetIn = some d → d.time = .during k → advance s = .next u →
    ∃ (t : State) (issued new : List Output), step s = .next t ∧ u.log = s.log ++ new ∧
      t.log = s.log ++ issued ++ [.reset] ∧
      (∀ o ∈ issued, o.upstream s.params.bridgeAddr = true) ∧
      issued.filter Output.isTransfer = (new.filter Output.isTransfer).take k ∧
      t.err = 0x00#8 ∧ t.res = d.res ∧ t.addr = d.addr ∧ t.frame = d.frame ∧
      (∀ c, t.ss c = ⟨Vector.replicate 8 0x00#8, -1, false⟩) ∧ t.events = [] ∧ t.running = none ∧
      t.resetIn = none ∧ t.requests = u.requests ∧ t.params = s.params

/-! ### All requests -/

/-- R84: every request completes with exactly one response, OK with the value of `RES` at completion, after everything
else it puts out. (`SR.ALL` is the next statement.) -/
def Obligations.EveryRequestRespondsOnce : Prop :=
  ∀ (i : Instr) (s : State), (∀ c, i ≠ .srAll c) →
    ∃ t new, exec i s = .next t ∧ t.log = s.log ++ new ++ [.response .ok t.res] ∧
      (∀ o ∈ new, o.upstream s.params.bridgeAddr = true) ∧ t.running = s.running ∧ t.requests = s.requests

/-- R290 with the last column of R282: the final `ERR` is the OR of the bits present before the request and every bit
raised in it, and only the kinds listed for the request are raised. `ERR.CLR` raises none and clears. The same of each turn
of an `SR.ALL`, first or later, with the kinds of `SR.ALL` (a turn a step: notes/assumptions/4.md). -/
def Obligations.ErrorsAccumulateByOr : Prop :=
  (∀ (i : Instr) (s t : State), (∀ m, i ≠ .errClr m) → exec i s = .next t →
    ∃ raised, t.err = s.err ||| raised ∧ raised &&& ~~~flagMask (mayRaise i) = 0x00#8) ∧
  ∀ (c : Fin 8) (n : Nat) (s : State), ∃ raised, (searchAllPass c n s).err = s.err ||| raised ∧
    raised &&& ~~~flagMask (mayRaise (.srAll c)) = 0x00#8

/-- R23: a set bit of `ERR` stays set in every step but one that serves an `ERR.CLR` or takes a reset. -/
def Obligations.OnlyErrClrAndResetClearFlags : Prop :=
  ∀ (s t : State) (b : Nat), s.resetIn = none → step s = .next t →
    (∀ w ws m, s.running = none → s.requests = w :: ws → decode s.params.numChannels w ≠ .ok (.errClr m)) →
    s.err.getLsbD b = true → t.err.getLsbD b = true

/-- The number of transfers of every request but `SR.ALL` lies between its "idle" and its "all waits time out" columns,
whatever the bridge answers, and each is one write of 1 or 2 bytes or one read of a byte at `BRIDGE_ADDR` (from R50, R61,
R296, R331). `SR.ALL` has no such columns and no bound (R207): here the bounds are those of one pass, of its first pass in
`exec` and of each later turn, which is the model's choice of a step (notes/assumptions/4.md). -/
def Obligations.TransfersStayWithinBounds : Prop :=
  (∀ (i : Instr) (s : State), ∃ t new, exec i s = .next t ∧ t.log = s.log ++ new ∧
    fewestTransfers i ≤ transfersIn new ∧ transfersIn new ≤ mostTransfers i ∧
    ∀ o ∈ new, o.isTransfer = true → o.upstream s.params.bridgeAddr = true) ∧
  ∀ (c : Fin 8) (n : Nat) (s : State), ∃ new, (searchAllPass c n s).log = s.log ++ new ∧
    transfersIn new ≤ mostTransfers (.srAll c) ∧
    ∀ o ∈ new, o.isTransfer = true → o.upstream s.params.bridgeAddr = true

/-- No request but a search request that names `c` reads or writes `SS[c]`: with another value there it does the same and
leaves that value. Nor does any turn, first or later, of an `SR.ALL` that names another channel (from R27; a turn a step is
the model's choice, notes/assumptions/4.md). -/
def Obligations.SearchStatesAreIndependent : Prop :=
  (∀ (i : Instr) (s : State) (c : Fin 8) (x : SearchState), i.searchChannel ≠ some c →
    ∃ t, exec i s = .next t ∧ t.ss c = s.ss c ∧ exec i (setSearch c x s) = .next (setSearch c x t)) ∧
  ∀ (d c : Fin 8) (n : Nat) (s : State) (x : SearchState), d ≠ c →
    (searchAllPass d n s).ss c = s.ss c ∧
      searchAllPass d n (setSearch c x s) = setSearch c x (searchAllPass d n s)

/-- Every step, a reset among them, keeps the legal states (from R22, R26, R28, R40, R196). -/
def Obligations.LegalStatesAreKept : Prop :=
  ∀ s t : State, s.Inv → step s = .next t → t.Inv

/-- The state after reset is legal (from R22, R39). The parameters it binds are the model's choice
(notes/assumptions/1.md). -/
def Obligations.ResetStateIsLegal : Prop := State.reset.Inv

/-- The parameters are fixed for the life of the machine, and the outputs only grow; every transfer goes to the bridge
(from R40, R50, R64). The one record of all outputs is the model's own (notes/assumptions/7.md). -/
def Obligations.ParametersFixedAndOutputsKept : Prop :=
  ∀ s t : State, step s = .next t → t.params = s.params ∧ ∃ new, t.log = s.log ++ new ∧
    ∀ o ∈ new, o.isTransfer = true → o.upstream s.params.bridgeAddr = true

/-- The requests that issue no transfer and change no register but `RES` (R210, R211, R233 to R235, R260, R263,
R265): the whole next state. -/
def Obligations.ReadingRequestsOnlyWriteRes : Prop :=
  ∀ (s : State) (c k : Fin 8) (j : Fin 9) (n : Fin 9) (m : Fin 10) (b x : Byte),
    exec (.srState c) s = .next (finish ((BitVec.ofBool (s.ss c).ldf) ++ BitVec.ofInt 7 (s.ss c).ld) s) ∧
    exec (.srRomb c k) s = .next (finish (s.ss c).romBuf[k] s) ∧
    exec (.crcStep b x) s = .next (finish (crc8Update x b) s) ∧
    exec (.crcAddr n) s = .next (finish (crc8 s.params.crcInit (s.addr.toList.take n)) s) ∧
    exec (.crcFrame m) s = .next (finish (crc8 s.params.crcInit (s.frame.toList.take m)) s) ∧
    exec .errRd s = .next (finish s.err s) ∧
    exec (.addrGetb k) s = .next (finish s.addr[k] s) ∧
    exec (.frameGetb j) s = .next (finish s.frame[j] s) ∧
    (∀ v, finish v s = { s with res := v, log := s.log ++ [.response .ok v] })

/-! ### The bridge register interface -/

/-- R101 to R104 with R52 and R53: one transfer; a failed one raises `DU` and delivers any prefix of a write; `RES` is
0 or the byte read; nothing else changes. -/
def Obligations.RawBridgeRequests : Prop :=
  ∀ (s : State) (b b1 : Byte),
    let r := s.replyAt 0
    let du : Byte := if r.ack then 0x00#8 else 0x10#8
    let after := fun (res : Byte) (o : Output) =>
      { s with res := res, err := s.err ||| du, replies := s.replies.drop 1, drawn := s.drawn + (1 - s.replies.length),
               log := s.log ++ [o, .response .ok res] }
    exec (.brWb b) s =
      .next (after 0x00#8 (.write s.params.bridgeAddr [b] r.ack (if r.ack then 1 else min r.delivered 1))) ∧
    exec (.brWb2 b b1) s =
      .next (after 0x00#8 (.write s.params.bridgeAddr [b, b1] r.ack (if r.ack then 2 else min r.delivered 2))) ∧
    exec (.brSrp b) s =
      .next (after 0x00#8
        (.write s.params.bridgeAddr [s.params.cmdSrp, b] r.ack (if r.ack then 2 else min r.delivered 2))) ∧
    exec .brRb s = .next (after r.byte (.read s.params.bridgeAddr r.ack r.byte))

/-- R105 to R107: the pointer write and one read, in that order, whether or not either fails; `RES` is the byte. -/
def Obligations.RegisterReads : Prop :=
  ∀ s : State,
    exec .brRstat s = .next (finish (s.replyAt 1).byte (transact [.wr [s.params.cmdSrp, s.params.ptrStatus], .rd] s)) ∧
    exec .brRdata s = .next (finish (s.replyAt 1).byte (transact [.wr [s.params.cmdSrp, s.params.ptrData], .rd] s)) ∧
    exec .brRcfg s = .next (finish (s.replyAt 1).byte (transact [.wr [s.params.cmdSrp, s.params.ptrConfig], .rd] s))

/-- R109, R110: where the `k+1`-th poll is the first that shows not busy, k < `POLL_LIMIT`, the wait makes exactly k + 1
polls of two transfers with k delays between them, answers that status, and raises no `TO`. -/
def Obligations.WaitEndsAtFirstIdlePoll : Prop :=
  ∀ (s : State) (k : Nat), k < 1000 →
    (∀ j, j < k → statusBusy s.params (s.replyAt (2 * j + 1)).byte = true) →
    statusBusy s.params (s.replyAt (2 * k + 1)).byte = false →
    ∃ t new, exec .brWait s = .next t ∧ t.res = (s.replyAt (2 * k + 1)).byte ∧
      t.log = s.log ++ new ++ [.response .ok t.res] ∧ transfersIn new = 2 * (k + 1) ∧ delaysIn new = k ∧
      t.err.getLsbD 0 = s.err.getLsbD 0

/-- R109, R110, R283: where all `POLL_LIMIT` = 1000 polls show busy, the wait makes exactly 1000 polls and 999 delays,
raises `TO`, and answers the last status read. -/
def Obligations.WaitTimesOutAfterThePollLimit : Prop :=
  ∀ s : State, (∀ j, j < 1000 → statusBusy s.params (s.replyAt (2 * j + 1)).byte = true) →
    ∃ t new, exec .brWait s = .next t ∧ t.res = (s.replyAt 1999).byte ∧
      t.log = s.log ++ new ++ [.response .ok t.res] ∧ transfersIn new = 2000 ∧ delaysIn new = 999 ∧
      t.err.getLsbD 0 = true

/-- R108, R92: whatever the waits and transfers do, the result of `BR.WCFG` is whether the last byte read equals
`zext_8(cfg)`, and `CM` is raised exactly where it does not. -/
def Obligations.ConfigWriteChecksItsReadback : Prop :=
  ∀ (s : State) (cfg : Nibble), ∃ t b, exec (.brWcfg cfg) s = .next t ∧ lastRead t.log = some b ∧
    t.res = boolByte (b == cfg.setWidth 8) ∧ t.err.getLsbD 2 = (s.err.getLsbD 2 || b != cfg.setWidth 8)

/-- R92, R108, R109: the wait, of however many polls, then the write and the bare readback; `TO` exactly where the wait
times out. On a bridge whose wait takes one poll, the whole next state; a bridge that echoes the complement always
mismatches. -/
def Obligations.ConfigWriteTransfers : Prop :=
  ∀ (s : State) (cfg : Nibble),
    (∃ n, issues (.brWcfg cfg) s (boolByte ((s.replyAt (2 * n + 1)).byte == cfg.setWidth 8))
      [⟨n, [.wr [s.params.cmdWcfg, ~~~cfg ++ cfg], .rd]⟩]) ∧
    (s.idleAt 1 →
      (let r := (s.replyAt 3).byte
       exec (.brWcfg cfg) s = .next (finish (boolByte (r == cfg.setWidth 8))
        (raiseIf (r != cfg.setWidth 8) .configMismatch
          (transact [.wr [s.params.cmdSrp, s.params.ptrStatus], .rd, .wr [s.params.cmdWcfg, ~~~cfg ++ cfg], .rd] s)))) ∧
      ((s.replyAt 3).byte = ~~~(cfg.setWidth 8) → ∃ t, exec (.brWcfg cfg) s = .next t ∧ t.res = 0x00#8 ∧
        t.err.getLsbD 2 = true))

/-! ### The 1-Wire transaction layer -/

/-- R143, R144, R284: the result of `OW.RESET` is the presence bit of the last status read, and `SC` is raised exactly
where that status shows short, whatever the waits and transfers do. -/
def Obligations.BusResetReportsPresence : Prop :=
  ∀ s : State, ∃ t b, exec .owReset s = .next t ∧ lastRead t.log = some b ∧
    t.res = boolByte (b.getLsbD s.params.stPpd) ∧
    t.err.getLsbD 1 = (s.err.getLsbD 1 || b.getLsbD s.params.stSd)

/-- R109, R142, R143: the four waits of `OW.RESET`, of however many polls, and what it issues after each: the pullup is
cleared, with the other configuration bits kept, before the reset command; `TO` exactly where a wait times out. On a bridge
whose waits take one poll, the whole next state. -/
def Obligations.BusResetTransfers : Prop :=
  (∀ s : State, ∃ n₁ n₂ n₃ n₄,
    let p := s.params
    let cfg := (s.replyAt (2 * n₁ + 1)).byte.extractLsb' 0 4 &&& ~~~p.spuMask
    issues .owReset s (boolByte ((s.replyAt (2 * (n₁ + n₂ + n₃ + n₄) + 4)).byte.getLsbD p.stPpd))
      [⟨n₁, [.wr [p.cmdSrp, p.ptrConfig], .rd]⟩, ⟨n₂, [.wr [p.cmdWcfg, ~~~cfg ++ cfg], .rd]⟩, ⟨n₃, [.wr [p.cmd1wrs]]⟩,
        ⟨n₄, []⟩]) ∧
  ∀ s : State, s.idleAt 1 → s.idleAt 5 → s.idleAt 9 → s.idleAt 12 →
    let p := s.params
    let cfg := (s.replyAt 3).byte.extractLsb' 0 4 &&& ~~~p.spuMask
    let poll : List Transfer := [.wr [p.cmdSrp, p.ptrStatus], .rd]
    exec .owReset s = .next (finish (boolByte ((s.replyAt 12).byte.getLsbD p.stPpd))
      (raiseIf ((s.replyAt 12).byte.getLsbD p.stSd) .shortCircuit
        (raiseIf ((s.replyAt 7).byte != cfg.setWidth 8) .configMismatch
          (transact (poll ++ [.wr [p.cmdSrp, p.ptrConfig], .rd] ++ poll ++ [.wr [p.cmdWcfg, ~~~cfg ++ cfg], .rd] ++
            poll ++ [.wr [p.cmd1wrs]] ++ poll) s))))

/-- R109, R145, R149, R153, R281: the writes without power issue their command after the wait, whatever the wait finds,
and a wait that times out raises `TO`. On a bridge whose wait takes one poll, the whole next state. -/
def Obligations.WritesWithoutPower : Prop :=
  (∀ (s : State) (b : Byte) (v : Bool),
    let p := s.params
    (∃ n, issues (.owWb b false) s 0x00#8 [⟨n, [.wr [p.cmd1wwb, b]]⟩]) ∧
    (∃ n, issues (.owWbit v false) s 0x00#8 [⟨n, [.wr [p.cmd1wsb, if v then p.bitOne else p.bitZero]]⟩]) ∧
    (∃ n, issues .owSkip s 0x00#8 [⟨n, [.wr [p.cmd1wwb, p.romSkip]]⟩])) ∧
  ∀ (s : State) (b : Byte) (v : Bool), s.idleAt 1 →
    let p := s.params
    let poll : List Transfer := [.wr [p.cmdSrp, p.ptrStatus], .rd]
    exec (.owWb b false) s = .next (finish 0x00#8 (transact (poll ++ [.wr [p.cmd1wwb, b]]) s)) ∧
    exec (.owWbit v false) s =
      .next (finish 0x00#8 (transact (poll ++ [.wr [p.cmd1wsb, if v then p.bitOne else p.bitZero]]) s)) ∧
    exec .owSkip s = .next (finish 0x00#8 (transact (poll ++ [.wr [p.cmd1wwb, p.romSkip]]) s))

/-- R109, R141, R145, R149, R281: with power, the pullup bit is set first, the other configuration bits kept, and the write
command follows whatever the two waits and the readback find; a wait that times out raises `TO`. On a bridge whose waits take
one poll, the whole next state: `CM` is raised where the readback differs. -/
def Obligations.WritesWithPower : Prop :=
  (∀ (s : State) (b : Byte) (v : Bool),
    let p := s.params
    let parts := fun (n m : Nat) (command : List Byte) =>
      let cfg := (s.replyAt (2 * n + 1)).byte.extractLsb' 0 4 ||| p.spuMask
      ([⟨n, [.wr [p.cmdSrp, p.ptrConfig], .rd]⟩, ⟨m, [.wr [p.cmdWcfg, ~~~cfg ++ cfg], .rd, .wr command]⟩] : List Segment)
    (∃ n m, issues (.owWb b true) s 0x00#8 (parts n m [p.cmd1wwb, b])) ∧
    (∃ n m, issues (.owWbit v true) s 0x00#8 (parts n m [p.cmd1wsb, if v then p.bitOne else p.bitZero]))) ∧
  ∀ (s : State) (b : Byte) (v : Bool), s.idleAt 1 → s.idleAt 5 →
    let p := s.params
    let cfg := (s.replyAt 3).byte.extractLsb' 0 4 ||| p.spuMask
    let poll : List Transfer := [.wr [p.cmdSrp, p.ptrStatus], .rd]
    let engage := poll ++ [.wr [p.cmdSrp, p.ptrConfig], .rd] ++ poll ++ [.wr [p.cmdWcfg, ~~~cfg ++ cfg], .rd]
    let mismatch := (s.replyAt 7).byte != cfg.setWidth 8
    exec (.owWb b true) s = .next (finish 0x00#8
      (raiseIf mismatch .configMismatch (transact (engage ++ [.wr [p.cmd1wwb, b]]) s))) ∧
    exec (.owWbit v true) s = .next (finish 0x00#8
      (raiseIf mismatch .configMismatch (transact (engage ++ [.wr [p.cmd1wsb, if v then p.bitOne else p.bitZero]]) s)))

/-- R109, R141, R142, R162, R281: the wait, and then the pullup bit set or cleared with the other configuration bits kept,
whatever the two waits find; a wait that times out raises `TO`. On a bridge whose waits take one poll, the whole next
state. -/
def Obligations.PullupControl : Prop :=
  (∀ (s : State) (on : Bool), ∃ n m,
    let p := s.params
    let c := (s.replyAt (2 * n + 1)).byte.extractLsb' 0 4
    let cfg := if on then c ||| p.spuMask else c &&& ~~~p.spuMask
    issues (.owPullup on) s 0x00#8
      [⟨n, [.wr [p.cmdSrp, p.ptrConfig], .rd]⟩, ⟨m, [.wr [p.cmdWcfg, ~~~cfg ++ cfg], .rd]⟩]) ∧
  ∀ (s : State) (on : Bool), s.idleAt 1 → s.idleAt 5 →
    let p := s.params
    let c := (s.replyAt 3).byte.extractLsb' 0 4
    let cfg := if on then c ||| p.spuMask else c &&& ~~~p.spuMask
    let poll : List Transfer := [.wr [p.cmdSrp, p.ptrStatus], .rd]
    exec (.owPullup on) s = .next (finish 0x00#8 (raiseIf ((s.replyAt 7).byte != cfg.setWidth 8) .configMismatch
      (transact (poll ++ [.wr [p.cmdSrp, p.ptrConfig], .rd] ++ poll ++ [.wr [p.cmdWcfg, ~~~cfg ++ cfg], .rd]) s)))

/-- R147, R151, R159: the results of the reading operations are, whatever the waits and transfers do, the last byte
read, or bits of it: the sample bit, or direction, complement and sample in bits 2, 1 and 0. -/
def Obligations.ReadsAnswerTheLastByte : Prop :=
  ∀ (s : State) (d : Bool),
    (∃ t b, exec .owRb s = .next t ∧ lastRead t.log = some b ∧ t.res = b) ∧
    (∃ t b, exec .owRbit s = .next t ∧ lastRead t.log = some b ∧ t.res = boolByte (b.getLsbD s.params.stSbr)) ∧
    (∃ t b, exec (.owTrip d) s = .next t ∧ lastRead t.log = some b ∧
      t.res = 0#5 ++ BitVec.ofBool (b.getLsbD s.params.stDir) ++ BitVec.ofBool (b.getLsbD s.params.stTsb) ++
        BitVec.ofBool (b.getLsbD s.params.stSbr))

/-- R109, R147, R151, R159, R281: the reading operations issue their command after the first wait and take their result
after the second, whatever the waits find; a wait that times out raises `TO`. On a bridge whose waits take one poll, the whole
next state. -/
def Obligations.ReadTransfers : Prop :=
  (∀ (s : State) (d : Bool),
    let p := s.params
    let status := fun (n m : Nat) => (s.replyAt (2 * (n + m))).byte
    (∃ n m, issues .owRb s (s.replyAt (2 * (n + m) + 2)).byte
      [⟨n, [.wr [p.cmd1wrb]]⟩, ⟨m, [.wr [p.cmdSrp, p.ptrData], .rd]⟩]) ∧
    (∃ n m, issues .owRbit s (boolByte ((status n m).getLsbD p.stSbr)) [⟨n, [.wr [p.cmd1wsb, p.bitOne]]⟩, ⟨m, []⟩]) ∧
    (∃ n m, issues (.owTrip d) s (0#5 ++ BitVec.ofBool ((status n m).getLsbD p.stDir) ++
        BitVec.ofBool ((status n m).getLsbD p.stTsb) ++ BitVec.ofBool ((status n m).getLsbD p.stSbr))
      [⟨n, [.wr [p.cmd1wt, if d then p.bitOne else p.bitZero]]⟩, ⟨m, []⟩])) ∧
  ∀ (s : State) (d : Bool), s.idleAt 1 → s.idleAt 4 →
    let p := s.params
    let poll : List Transfer := [.wr [p.cmdSrp, p.ptrStatus], .rd]
    let status := (s.replyAt 4).byte
    exec .owRb s = .next (finish (s.replyAt 6).byte
      (transact (poll ++ [.wr [p.cmd1wrb]] ++ poll ++ [.wr [p.cmdSrp, p.ptrData], .rd]) s)) ∧
    exec .owRbit s = .next (finish (boolByte (status.getLsbD p.stSbr))
      (transact (poll ++ [.wr [p.cmd1wsb, p.bitOne]] ++ poll) s)) ∧
    exec (.owTrip d) s = .next (finish
      (0#5 ++ BitVec.ofBool (status.getLsbD p.stDir) ++ BitVec.ofBool (status.getLsbD p.stTsb) ++
        BitVec.ofBool (status.getLsbD p.stSbr))
      (transact (poll ++ [.wr [p.cmd1wt, if d then p.bitOne else p.bitZero]] ++ poll) s))

/-- R57, R109, R155, R281: match ROM, then `ADDR[0]` to `ADDR[7]`, each as one 1-Wire byte write after a wait, whatever the
nine waits find; a wait that times out raises `TO`. On a bridge whose waits take one poll, the whole next state: `ADDR` itself
stays. -/
def Obligations.SelectSendsTheIdentifier : Prop :=
  (∀ s : State, ∃ parts : List Segment,
    parts.map Segment.body = (s.params.romMatch :: s.addr.toList).map (fun b => [.wr [s.params.cmd1wwb, b]]) ∧
      issues .owSelect s 0x00#8 parts) ∧
  ∀ s : State, (∀ j, j < 9 → s.idleAt (3 * j + 1)) →
    let p := s.params
    exec .owSelect s = .next (finish 0x00#8 (transact
      ((p.romMatch :: s.addr.toList).flatMap fun b => [.wr [p.cmdSrp, p.ptrStatus], .rd, .wr [p.cmd1wwb, b]]) s))

/-- R157, R286: the result of `OW.CHAN` is whether the last byte read equals `CH_READ[c]`, and `CSM` is raised exactly
where it does not, whatever the wait and the transfers do. -/
def Obligations.ChannelSelectChecksItsReadback : Prop :=
  ∀ (s : State) (c : Fin 8), ∃ t b, exec (.owChan c) s = .next t ∧ lastRead t.log = some b ∧
    t.res = boolByte (b == s.params.chRead[c]) ∧ t.err.getLsbD 3 = (s.err.getLsbD 3 || b != s.params.chRead[c])

/-- R109, R157: the wait, of however many polls, then the channel's select code and the bare readback; `TO` exactly where
the wait times out. On a bridge whose wait takes one poll, the whole next state. -/
def Obligations.ChannelSelectTransfers : Prop :=
  (∀ (s : State) (c : Fin 8), ∃ n, issues (.owChan c) s (boolByte ((s.replyAt (2 * n + 1)).byte == s.params.chRead[c]))
    [⟨n, [.wr [s.params.cmdChsl, s.params.chWrite[c]], .rd]⟩]) ∧
  ∀ (s : State) (c : Fin 8), s.idleAt 1 →
    let p := s.params
    let r := (s.replyAt 3).byte
    exec (.owChan c) s = .next (finish (boolByte (r == p.chRead[c]))
      (raiseIf (r != p.chRead[c]) .channelSelectMismatch
        (transact [.wr [p.cmdSrp, p.ptrStatus], .rd, .wr [p.cmdChsl, p.chWrite[c]], .rd] s)))

/-- R109, R147, R160: `OW.RFRAME` issues nine byte reads, whatever its 18 waits find; a wait that times out raises `TO`. On a
bridge whose waits take one poll, it reads nine bytes into `FRAME` in bus order, with 63 transfers, and writes no other
register but `RES`. -/
def Obligations.FrameReadFillsTheFrame : Prop :=
  (∀ s : State, ∃ parts : List Segment, parts.map Segment.body =
      (List.replicate 9 [[.wr [s.params.cmd1wrb]], [.wr [s.params.cmdSrp, s.params.ptrData], .rd]]).flatten ∧
    issues .owRframe s 0x00#8 parts) ∧
  ∀ s : State, (∀ k, k < 9 → s.idleAt (7 * k + 1) ∧ s.idleAt (7 * k + 4)) →
    ∃ t new, exec .owRframe s = .next t ∧ t.res = 0x00#8 ∧
      (∀ k : Fin 9, t.frame[k] = (s.replyAt (7 * k.val + 6)).byte) ∧
      t.log = s.log ++ new ++ [.response .ok 0x00#8] ∧ transfersIn new = 63 ∧
      t.addr = s.addr ∧ t.search = s.search

/-- The frame of the requests that use the upstream port, whatever the bridge answers: none of `BR.*` and `OW.*` writes
`ADDR` or any `SS[c]`, and `OW.RFRAME` alone writes `FRAME` (from R25, R27, R29, R101 to R162). `ADDR.SETB`, `SR.NEXT`
and `SR.ALL` alone write `ADDR` (R24). Each turn of an `SR.ALL`, first or later, keeps `FRAME` and the other channels, writes
`ADDR` only from the buffer of its channel, and leaves `RES` until it responds (from R192, R197, R205; a turn a step:
notes/assumptions/4.md). -/
def Obligations.FrameOfThePortRequests : Prop :=
  (∀ (i : Instr) (s : State), ∃ t, exec i s = .next t ∧
    (i.searchChannel = none → t.search = s.search) ∧
    ((∀ k v, i ≠ .addrSetb k v) → (∀ c, i ≠ .srNext c) → (∀ c, i ≠ .srAll c) → t.addr = s.addr) ∧
    ((∀ k v, i ≠ .frameSetb k v) → i ≠ .owRframe → t.frame = s.frame)) ∧
  ∀ (c : Fin 8) (n : Nat) (s : State),
    let t := searchAllPass c n s
    t.frame = s.frame ∧ (∀ d, d ≠ c → t.ss d = s.ss d) ∧ (t.addr = s.addr ∨ t.addr = (t.ss c).romBuf) ∧
      (t.running.isSome = true → t.res = s.res)

/-! ### The bus search -/

/-- R191: `SR.RESET c` makes channel c fresh, issues no transfer, raises nothing and leaves the other channels. -/
def Obligations.SearchReset : Prop :=
  ∀ (s : State) (c : Fin 8), ∃ t, exec (.srReset c) s = .next t ∧
    t = { s with res := 0x00#8, search := t.search, log := s.log ++ [.response .ok 0x00#8] } ∧
    t.ss c = ⟨Vector.replicate 8 0x00#8, -1, false⟩ ∧ ∀ d, d ≠ c → t.ss d = s.ss d

/-- R192, R199: on an exhausted channel `SR.NEXT` answers 0 and does nothing else: no transfer, `ADDR` and the search
state unchanged, so it stays exhausted. -/
def Obligations.ExhaustedSearchIsIdempotent : Prop :=
  ∀ (s : State) (c : Fin 8), (s.ss c).ldf = true →
    exec (.srNext c) s = .next { s with res := 0x00#8, log := s.log ++ [.response .ok 0x00#8] }

/-- R190, R195 to R197: the two outcomes of `SR.NEXT` on a channel that is not exhausted, whatever the bridge answers.
Found: `ADDR` is the buffer, the state is in-progress where `LD` is 0 or more and exhausted where `LD` is -1, and `SI` is as
before. Not found: `LD`, `LDF` and `ADDR` are unchanged; either there was no presence (what `OW.RESET` would answer) and `SI`
is as before, or there was, the last status read shows id and cmp both 1, and `SI` (bit 6) is set. Other channels and `FRAME`
are unchanged in both. -/
def Obligations.SearchNextOutcomes : Prop :=
  ∀ (s : State) (c : Fin 8), (s.ss c).ldf = false →
    ∃ t, exec (.srNext c) s = .next t ∧ t.frame = s.frame ∧ (∀ d, d ≠ c → t.ss d = s.ss d) ∧
      ((t.res = 0x01#8 ∧ t.addr = (t.ss c).romBuf ∧ -1 ≤ (t.ss c).ld ∧ (t.ss c).ld ≤ 63 ∧
          (t.ss c).ldf = decide ((t.ss c).ld = -1) ∧ t.err.getLsbD 6 = s.err.getLsbD 6) ∨
       (t.res = 0x00#8 ∧ t.addr = s.addr ∧ (t.ss c).ld = (s.ss c).ld ∧ (t.ss c).ldf = false ∧
        ∃ u b, exec .owReset s = .next u ∧ lastRead t.log = some b ∧
          ((u.res = 0x00#8 ∧ t.err.getLsbD 6 = s.err.getLsbD 6) ∨
           (u.res = 0x01#8 ∧ b.getLsbD s.params.stSbr = true ∧ b.getLsbD s.params.stTsb = true ∧
            t.err.getLsbD 6 = true))))

/-- R192 (step 2), R199: where `OW.RESET` would answer 0 (no presence), `SR.NEXT` does exactly what `OW.RESET` does: the
search command is never issued, and no search state nor `ADDR` changes. -/
def Obligations.SearchWithoutPresence : Prop :=
  ∀ (s t : State) (c : Fin 8), (s.ss c).ldf = false → exec .owReset s = .next t → t.res = 0x00#8 →
    exec (.srNext c) s = .next t ∧ t.search = s.search ∧ t.addr = s.addr

/-- R192 to R197: a search pass on a bridge whose waits take one poll, with presence and no inconsistent triplet. With
`r i` the triplet bits of the status read after the `i`-th triplet: the search command is sent as the 16th transfer; the
`i`-th triplet command drives the direction of R193; the identifier found has `r i`'s direction at bit i; `LD` is the highest
position with all three bits 0, or -1; `SI` is as before. -/
def Obligations.SearchPassFollowsTheTriplets : Prop :=
  ∀ (s : State) (c : Fin 8), (s.ss c).ldf = false →
    s.idleAt 1 → s.idleAt 5 → s.idleAt 9 → s.idleAt 12 → s.idleAt 14 →
    (∀ i : Fin 64, s.idleAt (5 * i.val + 17) ∧ s.idleAt (5 * i.val + 20)) →
    (s.replyAt 12).byte.getLsbD s.params.stPpd = true →
    let r := fun i : Fin 64 => statusTriplet s.params (s.replyAt (5 * i.val + 20)).byte
    let branch := fun i : Fin 64 => (r i).id = false ∧ (r i).cmp = false ∧ (r i).dir = false
    (∀ i, ((r i).id && (r i).cmp) = false) →
    ∃ t new, exec (.srNext c) s = .next t ∧ t.res = 0x01#8 ∧ t.addr = (t.ss c).romBuf ∧
      (∀ i, romBit t.addr i = (r i).dir) ∧
      (((t.ss c).ld = -1 ∧ ∀ i, ¬ branch i) ∨
        ∃ i, (t.ss c).ld = (i.val : Int) ∧ branch i ∧ ∀ j, i < j → ¬ branch j) ∧
      t.err.getLsbD 6 = s.err.getLsbD 6 ∧
      t.log = s.log ++ new ++ [.response .ok 0x01#8] ∧ transfersIn new = 336 ∧
      (∃ ack n, (new.filter Output.isTransfer)[15]? =
        some (.write s.params.bridgeAddr [s.params.cmd1wwb, s.params.romSearch] ack n)) ∧
      ∀ i : Fin 64, ∃ ack n, (new.filter Output.isTransfer)[5 * i.val + 18]? =
        some (.write s.params.bridgeAddr [s.params.cmd1wt,
          if searchDirection (s.ss c) i then s.params.bitOne else s.params.bitZero] ack n)

/-- R195, R281: a search pass on a bridge whose waits take one poll, with presence, whose first inconsistent triplet is that
at bit i: `SI` (bit 6 of `ERR`) is raised and the pass ends after it with result 0. Positions below i hold the directions of
this pass, position i and those above it are unwritten, `LD`, `LDF` and `ADDR` are unchanged, and so are the other channels
and `FRAME`. -/
def Obligations.InconsistentTripletEndsThePass : Prop :=
  ∀ (s : State) (c : Fin 8) (i : Fin 64), (s.ss c).ldf = false →
    s.idleAt 1 → s.idleAt 5 → s.idleAt 9 → s.idleAt 12 → s.idleAt 14 →
    (∀ j : Fin 64, j ≤ i → s.idleAt (5 * j.val + 17) ∧ s.idleAt (5 * j.val + 20)) →
    (s.replyAt 12).byte.getLsbD s.params.stPpd = true →
    let r := fun j : Fin 64 => statusTriplet s.params (s.replyAt (5 * j.val + 20)).byte
    (∀ j, j < i → ((r j).id && (r j).cmp) = false) → (r i).id = true → (r i).cmp = true →
    ∃ t new, exec (.srNext c) s = .next t ∧ t.res = 0x00#8 ∧ t.err.getLsbD 6 = true ∧
      (∀ j, romBit (t.ss c).romBuf j = if j < i then (r j).dir else romBit (s.ss c).romBuf j) ∧
      (t.ss c).ld = (s.ss c).ld ∧ (t.ss c).ldf = false ∧ t.addr = s.addr ∧ t.frame = s.frame ∧
      (∀ d, d ≠ c → t.ss d = s.ss d) ∧
      t.log = s.log ++ new ++ [.response .ok 0x00#8] ∧ transfersIn new = 5 * i.val + 21

/-- R193: the direction of a pass at bit i: below `LD` the recorded bit, at `LD` a 1, above it a 0. -/
def Obligations.SearchDirections : Prop :=
  ∀ (x : SearchState) (i : Fin 64),
    ((i.val : Int) < x.ld → searchDirection x i = romBit x.romBuf i) ∧
    ((i.val : Int) = x.ld → searchDirection x i = true) ∧
    (x.ld < (i.val : Int) → searchDirection x i = false)

/-- One turn of `SR.ALL`, first or later: a found identifier with a valid CRC is emitted and counted, one with a bad CRC
raises `CRC`, and the loop goes on; a pass that finds none ends it, and the response carries the count, saturated at 255
(from R191, R205, R206). One turn a step is the model's choice (notes/assumptions/4.md). -/
def Obligations.SearchAllTurns : Prop :=
  ∀ (s : State) (c : Fin 8),
    (exec (.srAll c) s = .next (searchAllPass c 0 (setSearch c ⟨Vector.replicate 8 0x00#8, -1, false⟩ s))) ∧
    ∀ n, let u := (wireSearch c s).2
      ((wireSearch c s).1 = true → crc8 u.params.crcInit (u.addr.toList.take 7) = u.addr[7] →
        searchAllPass c n s = { u with log := u.log ++ [.found (identOf u.addr)], running := some ⟨c, n + 1⟩ }) ∧
      ((wireSearch c s).1 = true → crc8 u.params.crcInit (u.addr.toList.take 7) ≠ u.addr[7] →
        searchAllPass c n s = { u with err := u.err ||| 0x20#8, running := some ⟨c, n⟩ }) ∧
      ((wireSearch c s).1 = false → searchAllPass c n s =
        { u with res := BitVec.ofNat 8 (min n 255), running := none,
                 log := u.log ++ [.response .ok (BitVec.ofNat 8 (min n 255))] })

/-- `SR.ALL` has no pass bound: for every number of steps there is a bus on which it has not yet responded (from R207).
One pass a step is the model's choice (notes/assumptions/4.md). -/
def Obligations.SearchAllHasNoPassBound : Prop :=
  ∀ (p : Params) (c : Fin 8) (n : Nat), p.wf = true → c.val < p.numChannels →
    ∃ s t, s.params = p ∧ s.running = none ∧ s.resetIn = none ∧ s.requests = [encode (.srAll c)] ∧
      Host.Core.run Sys2Proof.core (n + 1) s = .next t ∧ (t : State).running.isSome = true

/-- On a well-behaved bus with the devices `ds`, listed in the order of R198, `SR.NEXT` from fresh finds them in that order,
call k the k-th; it is exhausted exactly after the last; the call after it answers 0 with no transfer (from R198, R199). That
the bus is well-behaved is read through the model's own `wireReset` and `triplet`, the model's choice
(notes/assumptions/11.md). -/
def Obligations.SearchEnumeratesInBitOrder : Prop :=
  ∀ (s : State) (c : Fin 8) (ds : List Ident), s.ss c = ⟨Vector.replicate 8 0x00#8, -1, false⟩ → ds ≠ [] →
    ds.Pairwise precedes → (∀ k, k < ds.length → wellBehavedPass c ds (afterNexts c k s) = true) →
    (∀ k (h : k < ds.length), exec (.srNext c) (afterNexts c k s) = .next (afterNexts c (k + 1) s) ∧
      (afterNexts c (k + 1) s).res = 0x01#8 ∧ identOf (afterNexts c (k + 1) s).addr = ds[k] ∧
      ((afterNexts c (k + 1) s).ss c).ldf = decide (k + 1 = ds.length)) ∧
    (let t := afterNexts c ds.length s
     exec (.srNext c) t = .next { t with res := 0x00#8, log := t.log ++ [.response .ok 0x00#8] })

/-- On a well-behaved bus with the devices `ds`, listed in the order of R198, `SR.ALL` ends after one pass more than there
are devices, each pass a step (notes/assumptions/4.md). It has emitted the valid identifiers in that order, it answers
their number, saturated at 255, it has raised `CRC` where a device is not valid, and the channel is exhausted unless there
was none (from R198, R199, R205 to R207). That the bus is well-behaved is read through the model's own `wireReset` and
`triplet`, the model's choice (notes/assumptions/11.md). -/
def Obligations.SearchAllFindsEveryValidDevice : Prop :=
  ∀ (s : State) (c : Fin 8) (w : Request) (ws : List Request) (ds : List Ident),
    s.resetIn = none → s.running = none → s.requests = w :: ws → decode s.params.numChannels w = .ok (.srAll c) →
    ds.Pairwise precedes →
    wellBehavedPass c ds (setSearch c ⟨Vector.replicate 8 0x00#8, -1, false⟩ { s with requests := ws }) = true →
    (∀ k u, 0 < k → k < ds.length → Host.Core.run Sys2Proof.core k s = .next u → wellBehavedPass c ds u = true) →
    let valid := identValid s.params.crcInit
    ∃ (t : State) (new : List Output), Host.Core.run Sys2Proof.core (ds.length + 1) s = .next t ∧
      t.running = none ∧ t.requests = ws ∧ t.log = s.log ++ new ∧ eventsIn new = ds.filter valid ∧
      t.res = BitVec.ofNat 8 (min (ds.filter valid).length 255) ∧
      t.err.getLsbD 5 = (s.err.getLsbD 5 || !ds.all valid) ∧
      (t.ss c).ldf = !ds.isEmpty ∧ ∀ h : ds ≠ [], identOf t.addr = ds.getLast h

/-- R200: two identifiers that both pass the CRC check and agree on bits 0 to 62 are equal (from R200, R236). -/
def Obligations.ValidIdentifiersPartBelowBit63 : Prop :=
  ∀ (init : Byte) (v w : Ident), identValid init v = true → identValid init w = true →
    (∀ i : Fin 64, i.val < 63 → identBit v i = identBit w i) → v = w

/-- R56, R58: read as an identifier, the buffer's bit position i is bit i, which is bit `i & 7` of byte `i >> 3`. -/
def Obligations.BufferBitsAreIdentifierBits : Prop :=
  ∀ (buf : Vector Byte 8) (i : Fin 64),
    (identOf buf).getLsbD i.val = (buf[i.val / 8]'(by omega)).getLsbD (i.val % 8) ∧
    romBit buf i = (buf[i.val / 8]'(by omega)).getLsbD (i.val % 8)

/-! ### The CRC engine -/

/-- R232: the table-driven and the bit-serial form agree for every c and every b. -/
def Obligations.TableFormAgreesWithBitSerial : Prop :=
  ∀ c b : Byte, crc8Update c b = crc8TableUpdate c b

/-- R238: the append law, the residue law (which holds for every `CRC_INIT`), the zero-prefix law and linearity. -/
def Obligations.CrcLaws : Prop :=
  (∀ (init : Byte) (bytes : List Byte) (x : Byte),
    crc8 init (bytes ++ [x]) = crc8Update (crc8 init bytes) x ∧
    crc8 init (bytes ++ [crc8 init bytes]) = 0x00#8) ∧
  (∀ (n : Nat) (bytes : List Byte), crc8 0x00#8 (List.replicate n 0x00#8 ++ bytes) = crc8 0x00#8 bytes) ∧
  (∀ c1 c2 b1 b2 : Byte, crc8Update (c1 ^^^ c2) (b1 ^^^ b2) = crc8Update c1 b1 ^^^ crc8Update c2 b2)

/-- R236, R237: the checks answer 1 on a matching CRC byte; otherwise they answer 0 and raise `CRC`; they change nothing
else. -/
def Obligations.CrcChecks : Prop :=
  ∀ s : State,
    (crc8 s.params.crcInit (s.addr.toList.take 7) = s.addr[7] → exec .crcChkaddr s = .next (finish 0x01#8 s)) ∧
    (crc8 s.params.crcInit (s.addr.toList.take 7) ≠ s.addr[7] →
      exec .crcChkaddr s = .next (finish 0x00#8 { s with err := s.err ||| 0x20#8 })) ∧
    (crc8 s.params.crcInit (s.frame.toList.take 8) = s.frame[8] → exec .crcChkframe s = .next (finish 0x01#8 s)) ∧
    (crc8 s.params.crcInit (s.frame.toList.take 8) ≠ s.frame[8] →
      exec .crcChkframe s = .next (finish 0x00#8 { s with err := s.err ||| 0x20#8 }))

/-- R236: `CRC.CHKADDR` answers 1 exactly where `CRC.ADDR 8` answers 0x00, and for each 7-byte prefix only one CRC byte
passes (from R236, R238). -/
def Obligations.ValidIdentifierHasZeroResidue : Prop :=
  ∀ s : State, ∃ t u, exec .crcChkaddr s = .next t ∧ exec (.crcAddr 8) s = .next u ∧
    (t.res = 0x01#8 ↔ u.res = 0x00#8) ∧
    ∃ b : Byte, ∀ v, (∃ t', exec .crcChkaddr (setAddr 7 v s) = .next t' ∧ t'.res = 0x01#8) ↔ v = b

/-! ### Error flags and buffers -/

/-- R261: the flags the mask selects are cleared, no other changes, and the result is `ERR` after clearing. -/
def Obligations.ErrClrClearsTheMask : Prop :=
  ∀ (s : State) (m : BitVec 7),
    let e := s.err &&& ~~~(m.setWidth 8)
    exec (.errClr m) s = .next { s with err := e, res := e, log := s.log ++ [.response .ok e] }

/-- R262, R264: one byte of `ADDR` or `FRAME` is written, the others and every other register stay, `RES` is 0. -/
def Obligations.BufferWrites : Prop :=
  ∀ (s : State) (v : Byte),
    (∀ k : Fin 8, ∃ t, exec (.addrSetb k v) s = .next t ∧
      t = { s with res := 0x00#8, addr := t.addr, log := s.log ++ [.response .ok 0x00#8] } ∧
      t.addr[k] = v ∧ ∀ j : Fin 8, j ≠ k → t.addr[j] = s.addr[j]) ∧
    (∀ k : Fin 9, ∃ t, exec (.frameSetb k v) s = .next t ∧
      t = { s with res := 0x00#8, frame := t.frame, log := s.log ++ [.response .ok 0x00#8] } ∧
      t.frame[k] = v ∧ ∀ j : Fin 9, j ≠ k → t.frame[j] = s.frame[j])

/-- What each raise sets is its bit of `ERR` and no other bit: `TO` 0, `SC` 1, `CM` 2, `CSM` 3, `DU` 4, `CRC` 5, `SI` 6
(from R22, R23, R282). -/
def Obligations.RaiseSetsItsBitAlone : Prop :=
  (∀ (k : ErrKind) (s : State) (b : Nat),
    raiseErr k s = { s with err := (raiseErr k s).err } ∧
    (raiseErr k s).err.getLsbD b = (s.err.getLsbD b || decide (b = k.code))) ∧
  ∀ s : State, (raiseErr .timeout s).err = s.err ||| 0x01#8 ∧ (raiseErr .shortCircuit s).err = s.err ||| 0x02#8 ∧
    (raiseErr .configMismatch s).err = s.err ||| 0x04#8 ∧ (raiseErr .channelSelectMismatch s).err = s.err ||| 0x08#8 ∧
    (raiseErr .deviceUnavailable s).err = s.err ||| 0x10#8 ∧ (raiseErr .crcValidationFailure s).err = s.err ||| 0x20#8 ∧
    (raiseErr .searchInconsistent s).err = s.err ||| 0x40#8
end

