-- ==== Sys2Proof/Laws/State.lean ====
section
/-! SUPPORT. One lemma per field per update of State. -/

namespace Sys2Proof.Machine

variable (s : State)

/-! `emit` -/

@[simp] theorem emit_res (o : Output) : (emit o s).res = s.res := rfl
@[simp] theorem emit_err (o : Output) : (emit o s).err = s.err := rfl
@[simp] theorem emit_addr (o : Output) : (emit o s).addr = s.addr := rfl
@[simp] theorem emit_frame (o : Output) : (emit o s).frame = s.frame := rfl
@[simp] theorem emit_search (o : Output) : (emit o s).search = s.search := rfl
@[simp] theorem emit_running (o : Output) : (emit o s).running = s.running := rfl
@[simp] theorem emit_requests (o : Output) : (emit o s).requests = s.requests := rfl
@[simp] theorem emit_resetIn (o : Output) : (emit o s).resetIn = s.resetIn := rfl
@[simp] theorem emit_replies (o : Output) : (emit o s).replies = s.replies := rfl
@[simp] theorem emit_drawn (o : Output) : (emit o s).drawn = s.drawn := rfl
@[simp] theorem emit_log (o : Output) : (emit o s).log = s.log ++ [o] := rfl
@[simp] theorem emit_params (o : Output) : (emit o s).params = s.params := rfl

/-! `raiseErr` -/

@[simp] theorem raiseErr_res (k : ErrKind) : (raiseErr k s).res = s.res := rfl
@[simp] theorem raiseErr_err (k : ErrKind) : (raiseErr k s).err = s.err ||| k.mask := rfl
@[simp] theorem raiseErr_addr (k : ErrKind) : (raiseErr k s).addr = s.addr := rfl
@[simp] theorem raiseErr_frame (k : ErrKind) : (raiseErr k s).frame = s.frame := rfl
@[simp] theorem raiseErr_search (k : ErrKind) : (raiseErr k s).search = s.search := rfl
@[simp] theorem raiseErr_running (k : ErrKind) : (raiseErr k s).running = s.running := rfl
@[simp] theorem raiseErr_requests (k : ErrKind) : (raiseErr k s).requests = s.requests := rfl
@[simp] theorem raiseErr_resetIn (k : ErrKind) : (raiseErr k s).resetIn = s.resetIn := rfl
@[simp] theorem raiseErr_replies (k : ErrKind) : (raiseErr k s).replies = s.replies := rfl
@[simp] theorem raiseErr_drawn (k : ErrKind) : (raiseErr k s).drawn = s.drawn := rfl
@[simp] theorem raiseErr_log (k : ErrKind) : (raiseErr k s).log = s.log := rfl
@[simp] theorem raiseErr_params (k : ErrKind) : (raiseErr k s).params = s.params := rfl

/-! `clearErr` -/

@[simp] theorem clearErr_res (m : BitVec 7) : (clearErr m s).res = s.res := rfl
@[simp] theorem clearErr_err (m : BitVec 7) : (clearErr m s).err = s.err &&& ~~~(m.setWidth 8) := rfl
@[simp] theorem clearErr_addr (m : BitVec 7) : (clearErr m s).addr = s.addr := rfl
@[simp] theorem clearErr_frame (m : BitVec 7) : (clearErr m s).frame = s.frame := rfl
@[simp] theorem clearErr_search (m : BitVec 7) : (clearErr m s).search = s.search := rfl
@[simp] theorem clearErr_running (m : BitVec 7) : (clearErr m s).running = s.running := rfl
@[simp] theorem clearErr_requests (m : BitVec 7) : (clearErr m s).requests = s.requests := rfl
@[simp] theorem clearErr_resetIn (m : BitVec 7) : (clearErr m s).resetIn = s.resetIn := rfl
@[simp] theorem clearErr_replies (m : BitVec 7) : (clearErr m s).replies = s.replies := rfl
@[simp] theorem clearErr_drawn (m : BitVec 7) : (clearErr m s).drawn = s.drawn := rfl
@[simp] theorem clearErr_log (m : BitVec 7) : (clearErr m s).log = s.log := rfl
@[simp] theorem clearErr_params (m : BitVec 7) : (clearErr m s).params = s.params := rfl

/-! `setAddr` -/

@[simp] theorem setAddr_res (k : Fin 8) (v : Byte) : (setAddr k v s).res = s.res := rfl
@[simp] theorem setAddr_err (k : Fin 8) (v : Byte) : (setAddr k v s).err = s.err := rfl
@[simp] theorem setAddr_addr (k : Fin 8) (v : Byte) : (setAddr k v s).addr = s.addr.set k.val v := rfl
@[simp] theorem setAddr_frame (k : Fin 8) (v : Byte) : (setAddr k v s).frame = s.frame := rfl
@[simp] theorem setAddr_search (k : Fin 8) (v : Byte) : (setAddr k v s).search = s.search := rfl
@[simp] theorem setAddr_running (k : Fin 8) (v : Byte) : (setAddr k v s).running = s.running := rfl
@[simp] theorem setAddr_requests (k : Fin 8) (v : Byte) : (setAddr k v s).requests = s.requests := rfl
@[simp] theorem setAddr_resetIn (k : Fin 8) (v : Byte) : (setAddr k v s).resetIn = s.resetIn := rfl
@[simp] theorem setAddr_replies (k : Fin 8) (v : Byte) : (setAddr k v s).replies = s.replies := rfl
@[simp] theorem setAddr_drawn (k : Fin 8) (v : Byte) : (setAddr k v s).drawn = s.drawn := rfl
@[simp] theorem setAddr_log (k : Fin 8) (v : Byte) : (setAddr k v s).log = s.log := rfl
@[simp] theorem setAddr_params (k : Fin 8) (v : Byte) : (setAddr k v s).params = s.params := rfl

/-! `setFrame` -/

@[simp] theorem setFrame_res (k : Fin 9) (v : Byte) : (setFrame k v s).res = s.res := rfl
@[simp] theorem setFrame_err (k : Fin 9) (v : Byte) : (setFrame k v s).err = s.err := rfl
@[simp] theorem setFrame_addr (k : Fin 9) (v : Byte) : (setFrame k v s).addr = s.addr := rfl
@[simp] theorem setFrame_frame (k : Fin 9) (v : Byte) : (setFrame k v s).frame = s.frame.set k.val v := rfl
@[simp] theorem setFrame_search (k : Fin 9) (v : Byte) : (setFrame k v s).search = s.search := rfl
@[simp] theorem setFrame_running (k : Fin 9) (v : Byte) : (setFrame k v s).running = s.running := rfl
@[simp] theorem setFrame_requests (k : Fin 9) (v : Byte) : (setFrame k v s).requests = s.requests := rfl
@[simp] theorem setFrame_resetIn (k : Fin 9) (v : Byte) : (setFrame k v s).resetIn = s.resetIn := rfl
@[simp] theorem setFrame_replies (k : Fin 9) (v : Byte) : (setFrame k v s).replies = s.replies := rfl
@[simp] theorem setFrame_drawn (k : Fin 9) (v : Byte) : (setFrame k v s).drawn = s.drawn := rfl
@[simp] theorem setFrame_log (k : Fin 9) (v : Byte) : (setFrame k v s).log = s.log := rfl
@[simp] theorem setFrame_params (k : Fin 9) (v : Byte) : (setFrame k v s).params = s.params := rfl

/-! `setSearch` -/

@[simp] theorem setSearch_res (c : Fin 8) (x : SearchState) : (setSearch c x s).res = s.res := rfl
@[simp] theorem setSearch_err (c : Fin 8) (x : SearchState) : (setSearch c x s).err = s.err := rfl
@[simp] theorem setSearch_addr (c : Fin 8) (x : SearchState) : (setSearch c x s).addr = s.addr := rfl
@[simp] theorem setSearch_frame (c : Fin 8) (x : SearchState) : (setSearch c x s).frame = s.frame := rfl
@[simp] theorem setSearch_search (c : Fin 8) (x : SearchState) : (setSearch c x s).search = s.search.set c.val x := rfl
@[simp] theorem setSearch_running (c : Fin 8) (x : SearchState) : (setSearch c x s).running = s.running := rfl
@[simp] theorem setSearch_requests (c : Fin 8) (x : SearchState) : (setSearch c x s).requests = s.requests := rfl
@[simp] theorem setSearch_resetIn (c : Fin 8) (x : SearchState) : (setSearch c x s).resetIn = s.resetIn := rfl
@[simp] theorem setSearch_replies (c : Fin 8) (x : SearchState) : (setSearch c x s).replies = s.replies := rfl
@[simp] theorem setSearch_drawn (c : Fin 8) (x : SearchState) : (setSearch c x s).drawn = s.drawn := rfl
@[simp] theorem setSearch_log (c : Fin 8) (x : SearchState) : (setSearch c x s).log = s.log := rfl
@[simp] theorem setSearch_params (c : Fin 8) (x : SearchState) : (setSearch c x s).params = s.params := rfl

/-! `finish` -/

@[simp] theorem finish_res (v : Byte) : (finish v s).res = v := rfl
@[simp] theorem finish_err (v : Byte) : (finish v s).err = s.err := rfl
@[simp] theorem finish_addr (v : Byte) : (finish v s).addr = s.addr := rfl
@[simp] theorem finish_frame (v : Byte) : (finish v s).frame = s.frame := rfl
@[simp] theorem finish_search (v : Byte) : (finish v s).search = s.search := rfl
@[simp] theorem finish_running (v : Byte) : (finish v s).running = s.running := rfl
@[simp] theorem finish_requests (v : Byte) : (finish v s).requests = s.requests := rfl
@[simp] theorem finish_resetIn (v : Byte) : (finish v s).resetIn = s.resetIn := rfl
@[simp] theorem finish_replies (v : Byte) : (finish v s).replies = s.replies := rfl
@[simp] theorem finish_drawn (v : Byte) : (finish v s).drawn = s.drawn := rfl
@[simp] theorem finish_log (v : Byte) : (finish v s).log = s.log ++ [.response .ok v] := rfl
@[simp] theorem finish_params (v : Byte) : (finish v s).params = s.params := rfl

/-! `dropReply` -/

@[simp] theorem dropReply_res : (dropReply s).res = s.res := by unfold dropReply; split <;> rfl
@[simp] theorem dropReply_err : (dropReply s).err = s.err := by unfold dropReply; split <;> rfl
@[simp] theorem dropReply_addr : (dropReply s).addr = s.addr := by unfold dropReply; split <;> rfl
@[simp] theorem dropReply_frame : (dropReply s).frame = s.frame := by unfold dropReply; split <;> rfl
@[simp] theorem dropReply_search : (dropReply s).search = s.search := by unfold dropReply; split <;> rfl
@[simp] theorem dropReply_running : (dropReply s).running = s.running := by unfold dropReply; split <;> rfl
@[simp] theorem dropReply_requests : (dropReply s).requests = s.requests := by unfold dropReply; split <;> rfl
@[simp] theorem dropReply_resetIn : (dropReply s).resetIn = s.resetIn := by unfold dropReply; split <;> rfl
@[simp] theorem dropReply_log : (dropReply s).log = s.log := by unfold dropReply; split <;> rfl
@[simp] theorem dropReply_params : (dropReply s).params = s.params := by unfold dropReply; split <;> rfl

/-! `raiseIf` -/

@[simp] theorem raiseIf_res (b : Bool) (k : ErrKind) : (raiseIf b k s).res = s.res := by cases b <;> rfl
@[simp] theorem raiseIf_addr (b : Bool) (k : ErrKind) : (raiseIf b k s).addr = s.addr := by cases b <;> rfl
@[simp] theorem raiseIf_frame (b : Bool) (k : ErrKind) : (raiseIf b k s).frame = s.frame := by cases b <;> rfl
@[simp] theorem raiseIf_search (b : Bool) (k : ErrKind) : (raiseIf b k s).search = s.search := by cases b <;> rfl
@[simp] theorem raiseIf_running (b : Bool) (k : ErrKind) : (raiseIf b k s).running = s.running := by cases b <;> rfl
@[simp] theorem raiseIf_requests (b : Bool) (k : ErrKind) : (raiseIf b k s).requests = s.requests := by cases b <;> rfl
@[simp] theorem raiseIf_resetIn (b : Bool) (k : ErrKind) : (raiseIf b k s).resetIn = s.resetIn := by cases b <;> rfl
@[simp] theorem raiseIf_replies (b : Bool) (k : ErrKind) : (raiseIf b k s).replies = s.replies := by cases b <;> rfl
@[simp] theorem raiseIf_drawn (b : Bool) (k : ErrKind) : (raiseIf b k s).drawn = s.drawn := by cases b <;> rfl
@[simp] theorem raiseIf_log (b : Bool) (k : ErrKind) : (raiseIf b k s).log = s.log := by cases b <;> rfl
@[simp] theorem raiseIf_params (b : Bool) (k : ErrKind) : (raiseIf b k s).params = s.params := by cases b <;> rfl

/-! The parts of the two updates that look at their argument -/

@[simp] theorem dropReply_replies : (dropReply s).replies = s.replies.drop 1 := by
  unfold dropReply; split <;> simp_all

@[simp] theorem dropReply_drawn : (dropReply s).drawn = s.drawn + (1 - s.replies.length) := by
  unfold dropReply; split <;> simp_all

@[simp] theorem raiseIf_err (b : Bool) (k : ErrKind) :
    (raiseIf b k s).err = s.err ||| (if b then k.mask else 0#8) := by cases b <;> simp [raiseIf]

/-! `recordBit` -/

@[simp] theorem recordBit_res (c : Fin 8) (i : Fin 64) (b : Bool) : (recordBit c i b s).res = s.res := rfl
@[simp] theorem recordBit_err (c : Fin 8) (i : Fin 64) (b : Bool) : (recordBit c i b s).err = s.err := rfl
@[simp] theorem recordBit_addr (c : Fin 8) (i : Fin 64) (b : Bool) : (recordBit c i b s).addr = s.addr := rfl
@[simp] theorem recordBit_frame (c : Fin 8) (i : Fin 64) (b : Bool) : (recordBit c i b s).frame = s.frame := rfl
@[simp] theorem recordBit_running (c : Fin 8) (i : Fin 64) (b : Bool) : (recordBit c i b s).running = s.running := rfl
@[simp] theorem recordBit_requests (c : Fin 8) (i : Fin 64) (b : Bool) : (recordBit c i b s).requests = s.requests := rfl
@[simp] theorem recordBit_resetIn (c : Fin 8) (i : Fin 64) (b : Bool) : (recordBit c i b s).resetIn = s.resetIn := rfl
@[simp] theorem recordBit_replies (c : Fin 8) (i : Fin 64) (b : Bool) : (recordBit c i b s).replies = s.replies := rfl
@[simp] theorem recordBit_drawn (c : Fin 8) (i : Fin 64) (b : Bool) : (recordBit c i b s).drawn = s.drawn := rfl
@[simp] theorem recordBit_log (c : Fin 8) (i : Fin 64) (b : Bool) : (recordBit c i b s).log = s.log := rfl
@[simp] theorem recordBit_params (c : Fin 8) (i : Fin 64) (b : Bool) : (recordBit c i b s).params = s.params := rfl

/-! The accessors `ss`, `addrByte`, `frameByte` -/

theorem ss_congr {s t : State} (h : t.search = s.search) (c : Fin 8) : t.ss c = s.ss c := by
  unfold State.ss; rw [h]

@[simp] theorem emit_ss (o : Output) (c : Fin 8) : (emit o s).ss c = s.ss c := rfl

@[simp] theorem raiseErr_ss (k : ErrKind) (c : Fin 8) : (raiseErr k s).ss c = s.ss c := rfl

@[simp] theorem clearErr_ss (m : BitVec 7) (c : Fin 8) : (clearErr m s).ss c = s.ss c := rfl

@[simp] theorem setAddr_ss (k : Fin 8) (v : Byte) (c : Fin 8) : (setAddr k v s).ss c = s.ss c := rfl

@[simp] theorem setFrame_ss (k : Fin 9) (v : Byte) (c : Fin 8) : (setFrame k v s).ss c = s.ss c := rfl

@[simp] theorem finish_ss (v : Byte) (c : Fin 8) : (finish v s).ss c = s.ss c := rfl

@[simp] theorem raiseIf_ss (b : Bool) (k : ErrKind) (c : Fin 8) : (raiseIf b k s).ss c = s.ss c :=
  ss_congr (by simp) c

theorem setSearch_ss (c d : Fin 8) (x : SearchState) : (setSearch c x s).ss d = if d = c then x else s.ss d := by
  unfold State.ss setSearch
  by_cases h : d = c
  · simp [h]
  · have : c.val ≠ d.val := fun e => h (Fin.ext e.symm)
    simp [h, Vector.getElem_set_ne, this]

@[simp] theorem setSearch_ss_self (c : Fin 8) (x : SearchState) : (setSearch c x s).ss c = x := by
  simp [setSearch_ss]

theorem recordBit_ss (c d : Fin 8) (i : Fin 64) (b : Bool) :
    (recordBit c i b s).ss d =
      if d = c then { s.ss c with romBuf := setRomBit (s.ss c).romBuf i b } else s.ss d := setSearch_ss _ _ _ _

theorem setAddr_addrByte (k j : Fin 8) (v : Byte) :
    (setAddr k v s).addrByte j = if j = k then v else s.addrByte j := by
  unfold State.addrByte setAddr
  by_cases h : j = k
  · simp [h]
  · have : k.val ≠ j.val := fun e => h (Fin.ext e.symm)
    simp [h, Vector.getElem_set_ne, this]

theorem setFrame_frameByte (k j : Fin 9) (v : Byte) :
    (setFrame k v s).frameByte j = if j = k then v else s.frameByte j := by
  unfold State.frameByte setFrame
  by_cases h : j = k
  · simp [h]
  · have : k.val ≠ j.val := fun e => h (Fin.ext e.symm)
    simp [h, Vector.getElem_set_ne, this]

/-! The updates that are one of those above under another name -/

theorem delay_eq (us : Nat) : delay us s = emit (.delay us) s := rfl

theorem emitFound_eq (id : Ident) : emitFound id s = emit (.found id) s := rfl

theorem respond_eq (code : ResponseCode) : respond code s = emit (.response code s.res) s := rfl

theorem recordBit_eq (c : Fin 8) (i : Fin 64) (b : Bool) :
    recordBit c i b s = setSearch c { s.ss c with romBuf := setRomBit (s.ss c).romBuf i b } s := rfl

@[simp] theorem raiseIf_false (k : ErrKind) : raiseIf false k s = s := rfl

@[simp] theorem raiseIf_true (k : ErrKind) : raiseIf true k s = raiseErr k s := rfl

end Sys2Proof.Machine
end

