-- ==== Sys2Proof/Laws/Regs.lean ====
section
/-! SUPPORT. Which registers each subroutine leaves alone (`SameRegs`), the search buffer, and the four ends of a search
pass. -/

namespace Sys2Proof.Machine

/-! ### Registers that a subroutine leaves alone -/

theorem SameRegs.refl (s : State) : SameRegs s s := ⟨rfl, rfl, rfl, rfl⟩

theorem SameRegs.trans {s t u : State} (h : SameRegs s t) (h' : SameRegs t u) : SameRegs s u :=
  ⟨h'.res.trans h.res, h'.addr.trans h.addr, h'.frame.trans h.frame, h'.search.trans h.search⟩

theorem same_raiseErr (k : ErrKind) (s : State) : SameRegs s (raiseErr k s) := ⟨rfl, rfl, rfl, rfl⟩

theorem same_raiseIf (b : Bool) (k : ErrKind) (s : State) : SameRegs s (raiseIf b k s) := by
  constructor <;> simp

theorem same_delay (us : Nat) (s : State) : SameRegs s (delay us s) := ⟨rfl, rfl, rfl, rfl⟩

theorem same_memWrite (bytes : List Byte) (s : State) : SameRegs s (memWrite bytes s) := by
  constructor <;> simp [memWrite]

theorem same_memRead (s : State) : SameRegs s (memRead s).2 := by constructor <;> simp [memRead]

theorem same_writeByte (b : Byte) (s : State) : SameRegs s (writeByte b s) := same_memWrite _ s

theorem same_writeByte2 (b0 b1 : Byte) (s : State) : SameRegs s (writeByte2 b0 b1 s) := same_memWrite _ s

theorem same_readByte (s : State) : SameRegs s (readByte s).2 := same_memRead s

theorem same_setReadPointer (ptr : Byte) (s : State) : SameRegs s (setReadPointer ptr s) := same_memWrite _ s

theorem same_readStatus (s : State) : SameRegs s (readStatus s).2 := (same_setReadPointer _ s).trans (same_readByte _)

theorem same_readData (s : State) : SameRegs s (readData s).2 := (same_setReadPointer _ s).trans (same_readByte _)

theorem same_readConfig (s : State) : SameRegs s (readConfig s).2 := (same_setReadPointer _ s).trans (same_readByte _)

theorem same_pollLoop (more : Nat) (s : State) : SameRegs s (pollLoop more s).2 := by
  induction more generalizing s with
  | zero => exact (same_readStatus s).trans (same_raiseIf _ _ _)
  | succ n ih =>
    unfold pollLoop
    simp only
    split
    · exact ((same_readStatus s).trans (same_delay _ _)).trans (ih _)
    · exact same_readStatus s

theorem same_waitOnBusy (s : State) : SameRegs s (waitOnBusy s).2 := same_pollLoop _ s

theorem same_writeConfig (cfg : Nibble) (s : State) : SameRegs s (writeConfig cfg s).2 :=
  (((same_waitOnBusy s).trans (same_writeByte2 _ _ _)).trans (same_readByte _)).trans (same_raiseIf _ _ _)

theorem same_spuEngage (s : State) : SameRegs s (spuEngage s) := (same_readConfig s).trans (same_writeConfig _ _)

theorem same_spuClear (s : State) : SameRegs s (spuClear s) := (same_readConfig s).trans (same_writeConfig _ _)

theorem same_spuEngageIf (power : Bool) (s : State) : SameRegs s (spuEngageIf power s) := by
  cases power
  · exact SameRegs.refl s
  · exact same_spuEngage s

theorem same_wireReset (s : State) : SameRegs s (wireReset s).2 :=
  (((((same_waitOnBusy s).trans (same_spuClear _)).trans (same_waitOnBusy _)).trans (same_writeByte _ _)).trans
    (same_waitOnBusy _)).trans (same_raiseIf _ _ _)

theorem same_wireWriteByte (b : Byte) (power : Bool) (s : State) : SameRegs s (wireWriteByte b power s) :=
  ((same_waitOnBusy s).trans (same_spuEngageIf power _)).trans (same_writeByte2 _ _ _)

theorem same_wireReadByte (s : State) : SameRegs s (wireReadByte s).2 :=
  (((same_waitOnBusy s).trans (same_writeByte _ _)).trans (same_waitOnBusy _)).trans (same_readData _)

theorem same_wireWriteBit (v power : Bool) (s : State) : SameRegs s (wireWriteBit v power s) :=
  ((same_waitOnBusy s).trans (same_spuEngageIf power _)).trans (same_writeByte2 _ _ _)

theorem same_wireReadBit (s : State) : SameRegs s (wireReadBit s).2 :=
  (same_wireWriteBit true false s).trans (same_waitOnBusy _)

theorem same_wireSkip (s : State) : SameRegs s (wireSkip s) := same_wireWriteByte _ _ s

theorem same_sendAddr (ks : List (Fin 8)) (s : State) : SameRegs s (sendAddr ks s) := by
  induction ks generalizing s with
  | nil => exact SameRegs.refl s
  | cons k ks ih => exact (same_wireWriteByte _ _ s).trans (ih _)

theorem same_wireSelect (s : State) : SameRegs s (wireSelect s) :=
  (same_wireWriteByte _ _ s).trans (same_sendAddr _ _)

theorem same_setChannel (c : Fin 8) (s : State) : SameRegs s (setChannel c s).2 :=
  (((same_waitOnBusy s).trans (same_writeByte2 _ _ _)).trans (same_readByte _)).trans (same_raiseIf _ _ _)

theorem same_triplet (d : Bool) (s : State) : SameRegs s (triplet d s).2 :=
  ((same_waitOnBusy s).trans (same_writeByte2 _ _ _)).trans (same_waitOnBusy _)

/-- The frame read writes `FRAME` alone (R160). -/
theorem readFrame_regs (ks : List (Fin 9)) (s : State) :
    (ks.foldl readFrameByte s).res = s.res ∧ (ks.foldl readFrameByte s).addr = s.addr ∧
      (ks.foldl readFrameByte s).search = s.search := by
  induction ks generalizing s with
  | nil => exact ⟨rfl, rfl, rfl⟩
  | cons k ks ih =>
    have h := same_wireReadByte s
    have h' := ih (readFrameByte s k)
    exact ⟨h'.1.trans h.res, h'.2.1.trans h.addr, h'.2.2.trans h.search⟩

/-- `ADDR` is the list of its eight bytes. -/
theorem map_addrByte (s : State) : addrIndexes.map s.addrByte = s.addr.toList := by
  apply List.ext_getElem
  · simp [addrIndexes]
  · intro k h1 h2
    have hk : k < 8 := by simpa [addrIndexes] using h1
    have : (addrIndexes[k]'(by simpa using h1)).val = k := by interval_cases k <;> rfl
    simp [State.addrByte, this]

/-! ### The search buffer -/

theorem getLsbD_putBit (x : Byte) (j k : Nat) (hj : j < 8) (b : Bool) :
    (putBit x j b).getLsbD k = if k = j then b else x.getLsbD k := by
  unfold putBit
  rcases Nat.lt_or_ge k 8 with hk | hk
  · have : (1#8 <<< j).getLsbD k = decide (k = j) := by
      simp only [BitVec.getLsbD_shiftLeft, BitVec.getLsbD_one, hk, decide_true, Bool.true_and]
      by_cases h : k < j <;> simp [h] <;> omega
    by_cases h : k = j <;> cases b <;> simp_all; omega
  · have : k ≠ j := by omega
    simp [this, BitVec.getLsbD_of_ge _ _ hk]

/-- Writing bit `i` of a search buffer changes that bit alone (R58). -/
theorem romBit_setRomBit (buf : Vector Byte 8) (i j : Fin 64) (b : Bool) :
    romBit (setRomBit buf i b) j = if j = i then b else romBit buf j := by
  unfold romBit setRomBit
  by_cases hb : j.val / 8 = i.val / 8
  · have e : (buf.set (i.val / 8) (putBit (buf[i.val / 8]'(by omega)) (i.val % 8) b) (by omega))[j.val / 8]'(by omega)
        = putBit (buf[j.val / 8]'(by omega)) (i.val % 8) b := by simp [hb]
    rw [e, getLsbD_putBit _ _ _ (Nat.mod_lt _ (by omega))]
    by_cases hj : j = i
    · simp [hj]
    · have : j.val % 8 ≠ i.val % 8 := fun h => hj (Fin.ext (by omega))
      simp [hj, this]
  · have hj : j ≠ i := fun h => hb (by rw [h])
    rw [Vector.getElem_set_ne _ _ (fun h => hb h.symm)]
    simp [hj]

/-- Step 4 of a pass writes the buffer of its channel alone: no register, no other channel, and neither `LD` nor `LDF`
of its own (R195). -/
theorem searchBits_regs (c : Fin 8) (is : List (Fin 64)) (t : Int) (s : State) :
    let u := (searchBits c is t s).2
    u.res = s.res ∧ u.addr = s.addr ∧ u.frame = s.frame ∧ (∀ d : Fin 8, d ≠ c → u.ss d = s.ss d) ∧
      (u.ss c).ld = (s.ss c).ld ∧ (u.ss c).ldf = (s.ss c).ldf := by
  induction is generalizing t s with
  | nil => exact ⟨rfl, rfl, rfl, fun _ _ => rfl, rfl, rfl⟩
  | cons i is ih =>
    have h := same_triplet (searchDirection (s.ss c) i) s
    have hss := fun d => ss_congr h.search d
    unfold searchBits
    simp only
    split
    · exact ⟨h.res, h.addr, h.frame, fun d _ => hss d, by simp [hss], by simp [hss]⟩
    · obtain ⟨h1, h2, h3, h4, h5, h6⟩ := ih (tentative i (triplet (searchDirection (s.ss c) i) s).1 t)
        (recordBit c i (triplet (searchDirection (s.ss c) i) s).1.dir (triplet (searchDirection (s.ss c) i) s).2)
      refine ⟨h1.trans h.res, h2.trans h.addr, h3.trans h.frame, fun d hd => ?_, ?_, ?_⟩
      · rw [h4 d hd, recordBit_ss, if_neg hd, hss]
      · rw [h5, recordBit_ss, if_pos rfl, hss]
      · rw [h6, recordBit_ss, if_pos rfl, hss]

/-- The tentative discrepancy of a pass is -1 or one of its positions (R194). -/
theorem searchBits_range (c : Fin 8) (is : List (Fin 64)) (t : Int) (s : State) {t' : Int} {u : State}
    (h : searchBits c is t s = (some t', u)) (ht : -1 ≤ t ∧ t ≤ 63) : -1 ≤ t' ∧ t' ≤ 63 := by
  induction is generalizing t s with
  | nil => cases h; exact ht
  | cons i is ih =>
    unfold searchBits at h
    simp only at h
    split at h
    · cases h
    · refine ih _ _ h ?_
      unfold tentative
      split
      · omega
      · exact ht

/-- What `wireSearch` does, by its four ends: exhausted, no presence, inconsistent, found (R192, R195 to R197). -/
theorem wireSearch_cases (c : Fin 8) (s : State) :
    ((s.ss c).ldf = true ∧ wireSearch c s = (false, s)) ∨
    ((s.ss c).ldf = false ∧ (wireReset s).1 = false ∧ wireSearch c s = (false, (wireReset s).2)) ∨
    ((s.ss c).ldf = false ∧ (wireReset s).1 = true ∧ ∃ u,
      searchBits c bitPositions (-1) (wireWriteByte s.params.romSearch false (wireReset s).2) = (none, u) ∧
        wireSearch c s = (false, u)) ∨
    ((s.ss c).ldf = false ∧ (wireReset s).1 = true ∧ ∃ t u,
      searchBits c bitPositions (-1) (wireWriteByte s.params.romSearch false (wireReset s).2) = (some t, u) ∧
        wireSearch c s = (true, recordFound c t u)) := by
  unfold wireSearch
  cases h : (s.ss c).ldf
  · cases hp : (wireReset s).1
    · simp [hp]
    · cases hb : searchBits c bitPositions (-1) (wireWriteByte s.params.romSearch false (wireReset s).2) with
      | mk o u => cases o <;> simp [hp, hb]
  · simp

/-- A search pass keeps every search state legal (R26, R28, R196). -/
theorem legal_wireSearch (c : Fin 8) (s : State) (h : ∀ d, (s.ss d).legal) (d : Fin 8) :
    ((wireSearch c s).2.ss d).legal := by
  have hr := same_wireReset s
  have hw := (same_wireReset s).trans (same_wireWriteByte s.params.romSearch false (wireReset s).2)
  have hb := searchBits_regs c bitPositions (-1) (wireWriteByte s.params.romSearch false (wireReset s).2)
  rcases wireSearch_cases c s with ⟨_, e⟩ | ⟨-, -, e⟩ | ⟨-, -, u, hu, e⟩ | ⟨hf, -, t, u, hu, e⟩
  all_goals rw [e]
  · exact h d
  · show ((wireReset s).2.ss d).legal
    rw [ss_congr hr.search]; exact h d
  · rw [hu] at hb
    obtain ⟨-, -, -, h4, h5, h6⟩ := hb
    by_cases hd : d = c
    · subst hd
      have := h d
      unfold SearchState.legal at *
      simp only [h5, h6, ss_congr hw.search]
      exact this
    · show (u.ss d).legal
      rw [h4 d hd, ss_congr hw.search]; exact h d
  · have ht := searchBits_range c _ _ _ hu (by omega)
    rw [hu] at hb
    obtain ⟨-, -, -, h4, -, h6⟩ := hb
    show ((setSearch c _ u).ss d).legal
    rw [setSearch_ss]
    split
    · refine ⟨ht.1, ht.2, ?_⟩
      simp only [h6, ss_congr hw.search, hf, Bool.false_or, decide_eq_true_eq, imp_self]
    · rw [h4 d (by assumption), ss_congr hw.search]; exact h d

end Sys2Proof.Machine
end

