-- ==== Sys2Proof/Laws/Crc.lean ====
section
/-! SUPPORT. The CRC update rests on `c ^ b` alone (R232), and the packed identifier as a concatenation (R24, R56). -/

namespace Sys2Proof.Machine

/-- The rounds read `c` and `b` only through `c ^ b` (R232). -/
theorem crcRounds_xor (n : Nat) (c b : Byte) (x : Byte) : crcRounds n (c ^^^ x) (b ^^^ x) ^^^ (x >>> n) = crcRounds n c b := by
  induction n generalizing c b x with
  | zero => simp [crcRounds]
  | succ n ih =>
    have e : c ^^^ x ^^^ (b ^^^ x) = c ^^^ b := by
      rw [BitVec.xor_assoc, BitVec.xor_comm b x, ← BitVec.xor_assoc x, BitVec.xor_self, BitVec.zero_xor]
    have hs : ∀ y : Byte, (c ^^^ x) >>> 1 ^^^ y = (c >>> 1 ^^^ y) ^^^ (x >>> 1) := fun y => by
      rw [BitVec.ushiftRight_xor_distrib, BitVec.xor_assoc, BitVec.xor_assoc, BitVec.xor_comm (x >>> 1)]
    have hx : x >>> (n + 1) = (x >>> 1) >>> n := by rw [Nat.add_comm, BitVec.shiftRight_add]
    simp only [crcRounds, e]
    cases (c ^^^ b).getLsbD 0
    · simp only [Bool.false_eq_true, if_false]
      rw [BitVec.ushiftRight_xor_distrib, BitVec.ushiftRight_xor_distrib, hx]
      exact ih _ _ _
    · simp only [if_true]
      rw [hs, BitVec.ushiftRight_xor_distrib, hx]
      exact ih _ _ _

theorem crc8Update_eq (c b : Byte) : crc8Update c b = crc8Update 0#8 (c ^^^ b) := by
  have := crcRounds_xor 8 0#8 (c ^^^ b) c
  have h8 : c >>> 8 = 0#8 := by ext i hi; simp
  simpa [crc8Update, h8, BitVec.xor_comm c b, BitVec.xor_assoc] using this

theorem toNat_append_byte {w : Nat} (x : BitVec w) (y : Byte) : (x ++ y).toNat = x.toNat * 256 + y.toNat := by
  rw [BitVec.toNat_append, ← Nat.shiftLeft_add_eq_or_of_lt y.isLt, Nat.shiftLeft_eq]

/-- The packed identifier is the concatenation of its bytes, `ADDR[7]` highest (R24, R56). -/
theorem identOf_eq_append (rom : Vector Byte 8) :
    identOf rom = rom[7] ++ rom[6] ++ rom[5] ++ rom[4] ++ rom[3] ++ rom[2] ++ rom[1] ++ rom[0] := by
  apply BitVec.eq_of_toNat_eq
  have e : (rom[7] ++ rom[6] ++ rom[5] ++ rom[4] ++ rom[3] ++ rom[2] ++ rom[1] ++ rom[0] : BitVec 64).toNat =
      (rom[7] ++ rom[6] ++ rom[5] ++ rom[4] ++ rom[3] ++ rom[2] ++ rom[1] ++ rom[0]).toNat := rfl
  rw [e]
  simp only [toNat_append_byte]
  have hb := fun k : Fin 8 => rom[k].isLt
  have h0 := hb 0; have h1 := hb 1; have h2 := hb 2; have h3 := hb 3
  have h4 := hb 4; have h5 := hb 5; have h6 := hb 6; have h7 := hb 7
  simp only [identOf, addrIndexes, List.foldl_cons, List.foldl_nil, BitVec.toNat_add, BitVec.toNat_shiftLeft,
    BitVec.toNat_setWidth, Nat.shiftLeft_eq]
  simp at *
  omega

end Sys2Proof.Machine
end

