-- ==== Sys2Proof/Laws/Encoding.lean ====
section
/-! SUPPORT. Packing and unpacking a request word (R80), and what an accepted row says. -/

namespace Sys2Proof

theorem getLsbD_pack (f : Fields) (i : Nat) : (pack f).getLsbD i =
    if i < 8 then f.op.getLsbD i else if i < 16 then f.imm.getLsbD (i - 8) else if i < 20 then f.idx.getLsbD (i - 16)
    else if i < 21 then f.p else if i < 24 then f.rsv.getLsbD (i - 21) else f.imm2.getLsbD (i - 24) := by
  have h : (pack f).getLsbD i = (f.imm2 ++ f.rsv ++ BitVec.ofBool f.p ++ f.idx ++ f.imm ++ f.op).getLsbD i := rfl
  rw [h]
  simp only [BitVec.getLsbD_append, BitVec.getLsbD_ofBool, Nat.sub_sub]
  split_ifs <;> first | rfl | omega | simp_all

theorem unpack_pack (f : Fields) : unpack (pack f) = f := by
  rcases f with ⟨op, imm, idx, p, rsv, imm2⟩
  simp only [unpack, Fields.mk.injEq]
  refine ⟨?_, ?_, ?_, ?_, ?_, ?_⟩
  all_goals first
    | (apply BitVec.eq_of_getLsbD_eq; intro i hi
       rw [BitVec.getLsbD_extractLsb', getLsbD_pack]
       simp only [hi, decide_true, Bool.true_and]
       split_ifs <;> first | omega | (congr 1; omega))
    | (rw [getLsbD_pack]; rfl)

theorem pack_unpack (w : Request) : pack (unpack w) = w := by
  apply BitVec.eq_of_getLsbD_eq; intro i hi
  rw [getLsbD_pack]
  simp only [unpack, BitVec.getLsbD_extractLsb']
  split_ifs
  · simp [*]
  · have : i - 8 < 8 := by omega
    simp only [this, decide_true, Bool.true_and]; congr 1; omega
  · have : i - 16 < 4 := by omega
    simp only [this, decide_true, Bool.true_and]; congr 1; omega
  · congr 1; omega
  · have : i - 21 < 3 := by omega
    simp only [this, decide_true, Bool.true_and]; congr 1; omega
  · have : i - 24 < 8 := by omega
    simp only [this, decide_true, Bool.true_and]; congr 1; omega


theorem accept_ok {b : Bool} {i j : Instr} (h : accept b i = .ok j) : b = true ∧ i = j := by
  unfold accept at h
  split at h <;> simp_all

theorem acceptIdx_ok {n : Nat} {b : Bool} {f : Fields} {i : Fin n → Instr} {j : Instr}
    (h : acceptIdx n b f i = .ok j) : b = true ∧ ∃ hn : f.idx.toNat < n, i ⟨f.idx.toNat, hn⟩ = j := by
  unfold acceptIdx at h
  split at h
  · split at h
    · simp_all
    · simp at h
  · simp at h

theorem acceptChan_ok {n : Nat} {b : Bool} {f : Fields} {i : Fin 8 → Instr} {j : Instr}
    (h : acceptChan n b f i = .ok j) :
    f.idx.toNat < n ∧ b = true ∧ ∃ hn : f.idx.toNat < 8, i ⟨f.idx.toNat, hn⟩ = j := by
  unfold acceptChan at h
  split at h
  · exact ⟨by assumption, acceptIdx_ok h⟩
  · simp at h

end Sys2Proof
end

