-- ==== Sys2Proof/Laws/Ran.lean ====
section
/-! SUPPORT. What each subroutine can put on the ports and which flags it can raise (`Ran`), one lemma a subroutine. -/

namespace Sys2Proof.Machine

/-! ### The replies of the environment -/

theorem nextReply_eq (s : State) : nextReply s = s.replyAt 0 := by
  unfold nextReply State.replyAt
  cases h : s.replies <;> simp

theorem replyAt_of_port {s t : State} {n : Nat} (hr : t.replies = s.replies.drop n)
    (hd : t.drawn = s.drawn + (n - s.replies.length)) (k : Nat) : t.replyAt k = s.replyAt (n + k) := by
  unfold State.replyAt
  have hlen : t.replies.length = s.replies.length - n := by rw [hr, List.length_drop]
  by_cases h : k < t.replies.length
  · have h' : n + k < s.replies.length := by omega
    rw [dif_pos h, dif_pos h']
    simp only [hr, List.getElem_drop]
  · have h' : ¬ n + k < s.replies.length := by omega
    rw [dif_neg h, dif_neg h', hd, hlen]
    congr 1; omega

/-! ### Flags -/

theorem and_not_or_eq_zero {x y f g : Byte} (hx : x &&& ~~~f = 0#8) (hy : y &&& ~~~g = 0#8) :
    (x ||| y) &&& ~~~(f ||| g) = 0#8 := by
  ext i hi
  have h1 := congrArg (·.getLsbD i) hx
  have h2 := congrArg (·.getLsbD i) hy
  simp [hi] at h1 h2 ⊢
  grind

theorem and_not_self (x : Byte) : x &&& ~~~x = 0#8 := by
  ext i hi; simp

theorem and_not_mono {x f g : Byte} (hx : x &&& ~~~f = 0#8) (hfg : f &&& ~~~g = 0#8) : x &&& ~~~g = 0#8 := by
  ext i hi
  have h1 := congrArg (·.getLsbD i) hx
  have h2 := congrArg (·.getLsbD i) hfg
  simp [hi] at h1 h2 ⊢
  grind

/-! ### A part of a rule: `Ran` -/

theorem Ran.refl (s : State) : Ran 0#8 0 0 s s where
  running := rfl
  requests := rfl
  resetIn := rfl
  params := rfl
  err := ⟨0#8, by simp, by simp⟩
  port := ⟨[], by simp [transfersIn]⟩

theorem Ran.trans {f g : Byte} {lo lo' hi hi' : Nat} {s t u : State} (h : Ran f lo hi s t)
    (h' : Ran g lo' hi' t u) : Ran (f ||| g) (lo + lo') (hi + hi') s u where
  running := h'.running.trans h.running
  requests := h'.requests.trans h.requests
  resetIn := h'.resetIn.trans h.resetIn
  params := h'.params.trans h.params
  err := by
    obtain ⟨x, hx, hx0⟩ := h.err
    obtain ⟨y, hy, hy0⟩ := h'.err
    exact ⟨x ||| y, by rw [hy, hx, BitVec.or_assoc], and_not_or_eq_zero hx0 hy0⟩
  port := by
    obtain ⟨n, hl, hu, h1, h2, hr, hd⟩ := h.port
    obtain ⟨n', hl', hu', h1', h2', hr', hd'⟩ := h'.port
    have hc : transfersIn (n ++ n') = transfersIn n + transfersIn n' := by simp [transfersIn]
    refine ⟨n ++ n', by rw [hl', hl, List.append_assoc], ?_, by omega, by omega, ?_, ?_⟩
    · intro o ho
      rcases List.mem_append.mp ho with ho | ho
      · exact hu o ho
      · rw [← h.params]; exact hu' o ho
    · rw [hr', hr, List.drop_drop, hc]
    · rw [hd', hd, hr, List.length_drop, hc]; omega

theorem Ran.mono {f g : Byte} {lo lo' hi hi' : Nat} {s t : State} (h : Ran f lo hi s t)
    (hf : f &&& ~~~g = 0#8) (hlo : lo' ≤ lo) (hhi : hi ≤ hi') : Ran g lo' hi' s t where
  running := h.running
  requests := h.requests
  resetIn := h.resetIn
  params := h.params
  err := by
    obtain ⟨x, hx, hx0⟩ := h.err
    exact ⟨x, hx, and_not_mono hx0 hf⟩
  port := by
    obtain ⟨n, hl, hu, h1, h2, hr⟩ := h.port
    exact ⟨n, hl, hu, by omega, by omega, hr⟩

/-- Replies are consumed one a transfer: where a part makes exactly `n` transfers, the replies after it are those from
the `n`-th on. -/
theorem Ran.replyAt {f : Byte} {n : Nat} {s t : State} (h : Ran f n n s t) (k : Nat) :
    t.replyAt k = s.replyAt (n + k) := by
  obtain ⟨new, -, -, h1, h2, hr, hd⟩ := h.port
  have : transfersIn new = n := by omega
  rw [this] at hr hd
  exact replyAt_of_port hr hd k

/-- `ERR` only grows in a part of a rule (R23). -/
theorem Ran.sticky {f : Byte} {lo hi : Nat} {s t : State} (h : Ran f lo hi s t) : s.err &&& t.err = s.err := by
  obtain ⟨x, hx, -⟩ := h.err
  rw [hx]; ext i hi; simp; grind

theorem ran_raiseErr (k : ErrKind) (s : State) : Ran k.mask 0 0 s (raiseErr k s) where
  running := rfl
  requests := rfl
  resetIn := rfl
  params := rfl
  err := ⟨k.mask, rfl, and_not_self _⟩
  port := ⟨[], by simp [transfersIn]⟩

theorem ran_raiseIf (b : Bool) (k : ErrKind) (s : State) : Ran k.mask 0 0 s (raiseIf b k s) := by
  cases b
  · exact (Ran.refl s).mono (by simp) (le_refl _) (le_refl _)
  · exact ran_raiseErr k s

theorem ran_delay (s : State) : Ran 0#8 0 0 s (delay Config.pollDelayUs s) where
  running := rfl
  requests := rfl
  resetIn := rfl
  params := rfl
  err := ⟨0#8, by simp [delay_eq], by simp⟩
  port := ⟨[.delay Config.pollDelayUs], by simp [transfersIn, delay_eq, Output.isTransfer, Output.upstream]⟩

/-! ### The two transfers -/

theorem ran_memWrite {bytes : List Byte} (hb : bytes.length = 1 ∨ bytes.length = 2) (s : State) :
    Ran ErrKind.deviceUnavailable.mask 1 1 s (memWrite bytes s) where
  running := by simp [memWrite]
  requests := by simp [memWrite]
  resetIn := by simp [memWrite]
  params := by simp [memWrite]
  err := by
    refine ⟨if (!(nextReply s).ack) then ErrKind.deviceUnavailable.mask else 0#8, by simp [memWrite], ?_⟩
    split
    · exact and_not_self _
    · simp
  port := by
    refine ⟨[.write s.params.bridgeAddr bytes (nextReply s).ack
      (if (nextReply s).ack then bytes.length else min (nextReply s).delivered bytes.length)], ?_⟩
    refine ⟨by simp [memWrite], ?_, by simp [transfersIn, Output.isTransfer], by simp [transfersIn, Output.isTransfer],
      by simp [memWrite, transfersIn, Output.isTransfer], by simp [memWrite, transfersIn, Output.isTransfer]⟩
    rcases hb with hb | hb <;> simp [Output.upstream, hb] <;> split <;> simp_all

theorem ran_memRead (s : State) : Ran ErrKind.deviceUnavailable.mask 1 1 s (memRead s).2 where
  running := by simp [memRead]
  requests := by simp [memRead]
  resetIn := by simp [memRead]
  params := by simp [memRead]
  err := by
    refine ⟨if (!(nextReply s).ack) then ErrKind.deviceUnavailable.mask else 0#8, by simp [memRead], ?_⟩
    split
    · exact and_not_self _
    · simp
  port := ⟨[.read s.params.bridgeAddr (nextReply s).ack (nextReply s).byte],
    by simp [memRead, transfersIn, Output.isTransfer, Output.upstream]⟩

@[simp] theorem memRead_fst (s : State) : (memRead s).1 = (s.replyAt 0).byte := by simp [memRead, nextReply_eq]

/-! ### The subroutines of the bridge register interface: flags and transfers (R101 to R109) -/

theorem ran_writeByte (b : Byte) (s : State) : Ran 0x10#8 1 1 s (writeByte b s) := ran_memWrite (.inl rfl) s

theorem ran_writeByte2 (b0 b1 : Byte) (s : State) : Ran 0x10#8 1 1 s (writeByte2 b0 b1 s) := ran_memWrite (.inr rfl) s

theorem ran_readByte (s : State) : Ran 0x10#8 1 1 s (readByte s).2 := ran_memRead s

theorem ran_setReadPointer (ptr : Byte) (s : State) : Ran 0x10#8 1 1 s (setReadPointer ptr s) := ran_writeByte2 _ _ s

theorem ran_readStatus (s : State) : Ran 0x10#8 2 2 s (readStatus s).2 :=
  (ran_setReadPointer _ s).trans (ran_readByte _)

theorem ran_readData (s : State) : Ran 0x10#8 2 2 s (readData s).2 := (ran_setReadPointer _ s).trans (ran_readByte _)

theorem ran_readConfig (s : State) : Ran 0x10#8 2 2 s (readConfig s).2 :=
  (ran_setReadPointer _ s).trans (ran_readByte _)

theorem ran_pollLoop (more : Nat) (s : State) : Ran 0x11#8 2 (2 * (more + 1)) s (pollLoop more s).2 := by
  induction more generalizing s with
  | zero => exact ((ran_readStatus s).trans (ran_raiseIf _ .timeout _)).mono (by decide) (by omega) (by omega)
  | succ n ih =>
    unfold pollLoop
    simp only
    split
    · exact (((ran_readStatus s).trans (ran_delay _)).trans (ih _)).mono (by decide) (by omega) (by omega)
    · exact (ran_readStatus s).mono (by decide) (by omega) (by omega)

/-- One wait: 1 to `POLL_LIMIT` polls of two transfers each (R110, R331). -/
theorem ran_waitOnBusy (s : State) : Ran 0x11#8 2 2000 s (waitOnBusy s).2 :=
  (ran_pollLoop _ s).mono (by decide) (by omega) (by decide)

theorem ran_writeConfig (cfg : Nibble) (s : State) : Ran 0x15#8 4 2002 s (writeConfig cfg s).2 :=
  ((((ran_waitOnBusy s).trans (ran_writeByte2 _ _ _)).trans (ran_readByte _)).trans
    (ran_raiseIf _ .configMismatch _)).mono (by decide) (by omega) (by omega)

/-! ### The subroutines of the 1-Wire transaction layer (R141 to R160) -/

theorem ran_spuEngage (s : State) : Ran 0x15#8 6 2004 s (spuEngage s) :=
  ((ran_readConfig s).trans (ran_writeConfig _ _)).mono (by decide) (by omega) (by omega)

theorem ran_spuClear (s : State) : Ran 0x15#8 6 2004 s (spuClear s) :=
  ((ran_readConfig s).trans (ran_writeConfig _ _)).mono (by decide) (by omega) (by omega)

theorem ran_wireReset (s : State) : Ran 0x17#8 13 8005 s (wireReset s).2 :=
  ((((((ran_waitOnBusy s).trans (ran_spuClear _)).trans (ran_waitOnBusy _)).trans (ran_writeByte _ _)).trans
    (ran_waitOnBusy _)).trans (ran_raiseIf _ .shortCircuit _)).mono (by decide) (by omega) (by omega)

theorem ran_wireWriteByte (b : Byte) (s : State) : Ran 0x11#8 3 2001 s (wireWriteByte b false s) :=
  ((ran_waitOnBusy s).trans (ran_writeByte2 _ _ _)).mono (by decide) (by omega) (by omega)

theorem ran_wireWriteByte_power (b : Byte) (s : State) : Ran 0x15#8 9 4005 s (wireWriteByte b true s) :=
  (((ran_waitOnBusy s).trans (ran_spuEngage _)).trans (ran_writeByte2 _ _ _)).mono (by decide) (by omega) (by omega)

theorem ran_wireReadByte (s : State) : Ran 0x11#8 7 4003 s (wireReadByte s).2 :=
  ((((ran_waitOnBusy s).trans (ran_writeByte _ _)).trans (ran_waitOnBusy _)).trans (ran_readData _)).mono
    (by decide) (by omega) (by omega)

theorem ran_wireWriteBit (v : Bool) (s : State) : Ran 0x11#8 3 2001 s (wireWriteBit v false s) :=
  ((ran_waitOnBusy s).trans (ran_writeByte2 _ _ _)).mono (by decide) (by omega) (by omega)

theorem ran_wireWriteBit_power (v : Bool) (s : State) : Ran 0x15#8 9 4005 s (wireWriteBit v true s) :=
  (((ran_waitOnBusy s).trans (ran_spuEngage _)).trans (ran_writeByte2 _ _ _)).mono (by decide) (by omega) (by omega)

theorem ran_wireReadBit (s : State) : Ran 0x11#8 5 4001 s (wireReadBit s).2 :=
  ((ran_wireWriteBit true s).trans (ran_waitOnBusy _)).mono (by decide) (by omega) (by omega)

theorem ran_wireSkip (s : State) : Ran 0x11#8 3 2001 s (wireSkip s) := ran_wireWriteByte _ s

theorem ran_sendAddr (ks : List (Fin 8)) (s : State) :
    Ran 0x11#8 (3 * ks.length) (2001 * ks.length) s (sendAddr ks s) := by
  induction ks generalizing s with
  | nil => exact (Ran.refl s).mono (by decide) (by simp) (by simp)
  | cons k ks ih =>
    exact ((ran_wireWriteByte _ s).trans (ih _)).mono (by decide) (by simp; omega) (by simp; omega)

theorem ran_wireSelect (s : State) : Ran 0x11#8 27 18009 s (wireSelect s) :=
  ((ran_wireWriteByte _ s).trans (ran_sendAddr addrIndexes _)).mono (by decide) (by decide) (by decide)

theorem ran_setChannel (c : Fin 8) (s : State) : Ran 0x19#8 4 2002 s (setChannel c s).2 :=
  ((((ran_waitOnBusy s).trans (ran_writeByte2 _ _ _)).trans (ran_readByte _)).trans
    (ran_raiseIf _ .channelSelectMismatch _)).mono (by decide) (by omega) (by omega)

theorem ran_triplet (d : Bool) (s : State) : Ran 0x11#8 5 4001 s (triplet d s).2 :=
  (((ran_waitOnBusy s).trans (ran_writeByte2 _ _ _)).trans (ran_waitOnBusy _)).mono (by decide) (by omega) (by omega)

theorem Ran.setFrame {f : Byte} {lo hi : Nat} {s t : State} (h : Ran f lo hi s t) (k : Fin 9) (v : Byte) :
    Ran f lo hi s (setFrame k v t) := ⟨h.running, h.requests, h.resetIn, h.params, h.err, h.port⟩

theorem Ran.setSearch {f : Byte} {lo hi : Nat} {s t : State} (h : Ran f lo hi s t) (c : Fin 8) (x : SearchState) :
    Ran f lo hi s (setSearch c x t) := ⟨h.running, h.requests, h.resetIn, h.params, h.err, h.port⟩

theorem ran_readFrame (ks : List (Fin 9)) (s : State) :
    Ran 0x11#8 (7 * ks.length) (4003 * ks.length) s (ks.foldl readFrameByte s) := by
  induction ks generalizing s with
  | nil => exact (Ran.refl s).mono (by decide) (by simp) (by simp)
  | cons k ks ih =>
    exact (((ran_wireReadByte s).setFrame k _).trans (ih _)).mono (by decide) (by simp; omega) (by simp; omega)

/-! ### The search (R192 to R196, R331) -/

theorem ran_searchBits (c : Fin 8) (is : List (Fin 64)) (t : Int) (s : State) :
    Ran 0x51#8 0 (4001 * is.length) s (searchBits c is t s).2 := by
  induction is generalizing t s with
  | nil => exact (Ran.refl s).mono (by decide) (by omega) (by omega)
  | cons i is ih =>
    unfold searchBits
    simp only
    split
    · exact ((ran_triplet _ s).trans (ran_raiseErr .searchInconsistent _)).mono (by decide) (by omega)
        (by simp)
    · exact (((ran_triplet _ s).setSearch c _).trans (ih _ _)).mono (by decide) (by omega) (by simp; omega)

theorem ran_recordFound (c : Fin 8) (t : Int) (s : State) : Ran 0#8 0 0 s (recordFound c t s) :=
  let h := Ran.refl s
  ⟨h.running, h.requests, h.resetIn, h.params, h.err, h.port⟩

theorem ran_wireSearch (c : Fin 8) (s : State) :
    Ran 0x57#8 (if (s.ss c).ldf then 0 else 13) 266070 s (wireSearch c s).2 := by
  unfold wireSearch
  split
  · exact (Ran.refl s).mono (by decide) (by omega) (by omega)
  · simp only
    split
    · exact (ran_wireReset s).mono (by decide) (by omega) (by omega)
    · have h := ((ran_wireReset s).trans (ran_wireWriteByte s.params.romSearch _)).trans
        (ran_searchBits c bitPositions (-1) _)
      have hlen : bitPositions.length = 64 := by simp [bitPositions]
      rw [hlen] at h
      split <;> rename_i heq <;> simp only [heq] at h
      · exact h.mono (by decide) (by omega) (by omega)
      · exact (h.trans (ran_recordFound c _ _)).mono (by decide) (by omega) (by omega)

end Sys2Proof.Machine
end

