-- ==== Sys2Proof/Laws/Idle.lean ====
section
/-! SUPPORT. Lists of transfers, and each subroutine on a bridge whose waits take one poll: the transfers it makes, in
order, and the replies its result rests on. -/

namespace Sys2Proof.Machine

/-! ### Lists of transfers -/

@[simp] theorem transact_nil (s : State) : transact [] s = s := rfl

theorem transact_cons (x : Transfer) (xs : List Transfer) (s : State) :
    transact (x :: xs) s = transact xs (transfer s x) := rfl

theorem transact_append (xs ys : List Transfer) (s : State) :
    transact (xs ++ ys) s = transact ys (transact xs s) := by simp [transact, List.foldl_append]

theorem replyAt_memWrite (bytes : List Byte) (s : State) (k : Nat) : (memWrite bytes s).replyAt k = s.replyAt (1 + k) :=
  replyAt_of_port (by simp [memWrite]) (by simp [memWrite]) k

theorem replyAt_memRead (s : State) (k : Nat) : (memRead s).2.replyAt k = s.replyAt (1 + k) :=
  replyAt_of_port (by simp [memRead]) (by simp [memRead]) k

theorem replyAt_transact (xs : List Transfer) (s : State) (k : Nat) :
    (transact xs s).replyAt k = s.replyAt (xs.length + k) := by
  induction xs generalizing s k with
  | nil => simp
  | cons x xs ih =>
    rw [transact_cons, ih]
    cases x
    · rw [transfer, replyAt_memWrite, List.length_cons]; congr 1; omega
    · rw [transfer, replyAt_memRead, List.length_cons]; congr 1; omega

theorem replyAt_raiseIf (b : Bool) (k : ErrKind) (s : State) (j : Nat) : (raiseIf b k s).replyAt j = s.replyAt j :=
  (replyAt_of_port (s := s) (n := 0) (by simp) (by simp) j).trans (by simp)

theorem same_transact (xs : List Transfer) (s : State) : SameRegs s (transact xs s) := by
  induction xs generalizing s with
  | nil => exact SameRegs.refl s
  | cons x xs ih =>
    cases x
    · exact (same_memWrite _ s).trans (ih _)
    · exact (same_memRead s).trans (ih _)

@[simp] theorem memWrite_params (bytes : List Byte) (s : State) : (memWrite bytes s).params = s.params := by
  simp [memWrite]

@[simp] theorem memRead_params (s : State) : (memRead s).2.params = s.params := by simp [memRead]

@[simp] theorem transact_params (xs : List Transfer) (s : State) : (transact xs s).params = s.params := by
  induction xs generalizing s with
  | nil => rfl
  | cons x xs ih => rw [transact_cons, ih]; cases x <;> simp [transfer]

/-! ### A raise may be moved past a transfer: `ERR` is an OR (R290) -/

theorem raiseErr_comm (a k : ErrKind) (s : State) : raiseErr a (raiseErr k s) = raiseErr k (raiseErr a s) := by
  simp only [raiseErr, BitVec.or_assoc]; rw [BitVec.or_comm k.mask]

theorem raiseErr_raiseIf (k a : ErrKind) (b : Bool) (s : State) :
    raiseIf b a (raiseErr k s) = raiseErr k (raiseIf b a s) := by
  cases b
  · rfl
  · exact raiseErr_comm _ _ _

theorem emit_raiseErr (o : Output) (k : ErrKind) (s : State) : emit o (raiseErr k s) = raiseErr k (emit o s) := rfl

theorem dropReply_raiseErr (k : ErrKind) (s : State) : dropReply (raiseErr k s) = raiseErr k (dropReply s) := by
  unfold dropReply raiseErr
  cases s.replies <;> simp

theorem nextReply_raiseErr (k : ErrKind) (s : State) : nextReply (raiseErr k s) = nextReply s := rfl

theorem transfer_raiseErr (k : ErrKind) (s : State) (x : Transfer) :
    transfer (raiseErr k s) x = raiseErr k (transfer s x) := by
  cases x
  · simp only [transfer, memWrite, nextReply_raiseErr, dropReply_raiseErr, emit_raiseErr, raiseErr_raiseIf, raiseErr_params]
    rfl
  · simp only [transfer, memRead, nextReply_raiseErr, dropReply_raiseErr, emit_raiseErr, raiseErr_raiseIf, raiseErr_params]

theorem transact_raiseIf (xs : List Transfer) (b : Bool) (k : ErrKind) (s : State) :
    transact xs (raiseIf b k s) = raiseIf b k (transact xs s) := by
  cases b
  · rfl
  · induction xs generalizing s with
    | nil => rfl
    | cons x xs ih =>
      simp only [raiseIf_true] at ih ⊢
      rw [transact_cons, transfer_raiseErr, ih, transact_cons]

/-! ### The subroutines on a bridge whose waits take one poll -/

theorem transact_wr (bytes : List Byte) (s : State) : memWrite bytes s = transact [.wr bytes] s := rfl

theorem readByte_eq (s : State) : readByte s = ((s.replyAt 0).byte, transact [.rd] s) :=
  Prod.ext (memRead_fst s) rfl

theorem readRegister_eq (p : Params) (ptr : Byte) (s : State) (hp : s.params = p) :
    readByte (setReadPointer ptr s) = ((s.replyAt 1).byte, transact (pollTransfers p ptr) s) := by
  subst hp
  rw [readByte_eq, setReadPointer, writeByte2, replyAt_memWrite]; rfl

theorem readStatus_eq (s : State) :
    readStatus s = ((s.replyAt 1).byte, transact (pollTransfers s.params s.params.ptrStatus) s) :=
  readRegister_eq _ _ _ rfl

theorem readData_eq (s : State) :
    readData s = ((s.replyAt 1).byte, transact (pollTransfers s.params s.params.ptrData) s) :=
  readRegister_eq _ _ _ rfl

theorem readConfig_eq (s : State) :
    readConfig s = ((s.replyAt 1).byte, transact (pollTransfers s.params s.params.ptrConfig) s) :=
  readRegister_eq _ _ _ rfl

/-- A wait on an idle bridge is one poll (R109). -/
theorem waitOnBusy_idle {s : State} (h : s.idleAt 1) :
    waitOnBusy s = ((s.replyAt 1).byte, transact (pollTransfers s.params s.params.ptrStatus) s) := by
  have hb : statusBusy s.params (readStatus s).1 = false := by rw [readStatus_eq]; exact h
  show pollLoop (998 + 1) s = _
  rw [pollLoop]
  simp only [hb]
  exact readStatus_eq s

@[simp] theorem pollTransfers_length (p : Params) (ptr : Byte) : (pollTransfers p ptr).length = 2 := rfl

theorem idleAt_transact (xs : List Transfer) (s : State) (k : Nat) :
    (transact xs s).idleAt k = s.idleAt (xs.length + k) := by
  simp [State.idleAt, replyAt_transact]

theorem idleAt_raiseIf (b : Bool) (e : ErrKind) (s : State) (k : Nat) : (raiseIf b e s).idleAt k = s.idleAt k := by
  simp [State.idleAt, replyAt_raiseIf]

theorem writeConfig_idle {s : State} (h : s.idleAt 1) (cfg : Nibble) :
    writeConfig cfg s = ((s.replyAt 3).byte == configReadback cfg,
      raiseIf ((s.replyAt 3).byte != configReadback cfg) .configMismatch
        (transact (writeConfigTransfers s.params cfg) s)) := by
  unfold writeConfig
  rw [waitOnBusy_idle h]
  simp only [readByte_eq, writeByte2, transact_params, replyAt_memWrite, replyAt_transact, pollTransfers_length]
  rfl

theorem spu_idle {s : State} (h : s.idleAt 3) (f : Nibble → Nibble) (g : State → State)
    (hg : g s = (writeConfig (f (configNibble (readConfig s).1)) (readConfig s).2).2) :
    g s = raiseIf ((s.replyAt 5).byte != configReadback (f (configNibble (s.replyAt 1).byte))) .configMismatch
      (transact (spuTransfers s.params (f (configNibble (s.replyAt 1).byte))) s) := by
  have h' : (transact (pollTransfers s.params s.params.ptrConfig) s).idleAt 1 := by rwa [idleAt_transact]
  rw [hg, readConfig_eq, writeConfig_idle h']
  simp only [replyAt_transact, transact_params, pollTransfers_length, spuTransfers, transact_append]

theorem spuClear_idle {s : State} (h : s.idleAt 3) :
    let cfg := configNibble (s.replyAt 1).byte &&& ~~~s.params.spuMask
    spuClear s = raiseIf ((s.replyAt 5).byte != configReadback cfg) .configMismatch
      (transact (spuTransfers s.params cfg) s) := by
  refine spu_idle h (fun c => c &&& ~~~s.params.spuMask) spuClear ?_
  unfold spuClear; simp

theorem spuEngage_idle {s : State} (h : s.idleAt 3) :
    let cfg := configNibble (s.replyAt 1).byte ||| s.params.spuMask
    spuEngage s = raiseIf ((s.replyAt 5).byte != configReadback cfg) .configMismatch
      (transact (spuTransfers s.params cfg) s) := by
  refine spu_idle h (fun c => c ||| s.params.spuMask) spuEngage ?_
  unfold spuEngage; simp

@[simp] theorem spuTransfers_length (p : Params) (cfg : Nibble) : (spuTransfers p cfg).length = 6 := rfl

theorem wireReset_idle {s : State} (h1 : s.idleAt 1) (h5 : s.idleAt 5) (h9 : s.idleAt 9) (h12 : s.idleAt 12) :
    let cfg := configNibble (s.replyAt 3).byte &&& ~~~s.params.spuMask
    wireReset s = (statusPresence s.params (s.replyAt 12).byte,
      raiseIf (statusShort s.params (s.replyAt 12).byte) .shortCircuit
        (raiseIf ((s.replyAt 7).byte != configReadback cfg) .configMismatch
          (transact (resetTransfers s.params cfg) s))) := by
  have e2 := spuClear_idle (s := transact (pollTransfers s.params s.params.ptrStatus) s) (by rwa [idleAt_transact])
  simp only [replyAt_transact, transact_params, pollTransfers_length] at e2
  unfold wireReset
  rw [waitOnBusy_idle h1]
  simp only
  rw [e2, waitOnBusy_idle (s := raiseIf _ _ _) (by rw [idleAt_raiseIf, idleAt_transact, idleAt_transact]; exact h9)]
  simp only [writeByte, transact_wr]
  rw [waitOnBusy_idle (s := transact [_] _) (by simp only [idleAt_transact, idleAt_raiseIf]; exact h12)]
  simp only [transact_raiseIf, replyAt_raiseIf, replyAt_transact, raiseIf_params, transact_params, ← transact_append]
  rfl

theorem wireWriteByte_idle {s : State} (h : s.idleAt 1) (b : Byte) :
    wireWriteByte b false s = transact (pollTransfers s.params s.params.ptrStatus ++ [.wr [s.params.cmd1wwb, b]]) s := by
  unfold wireWriteByte
  rw [waitOnBusy_idle h]
  simp only [spuEngageIf, Bool.false_eq_true, if_false, transact_params, transact_append]
  rfl

theorem wireWriteBit_idle {s : State} (h : s.idleAt 1) (v : Bool) :
    wireWriteBit v false s =
      transact (pollTransfers s.params s.params.ptrStatus ++ [.wr [s.params.cmd1wsb, bitOperand s.params v]]) s := by
  unfold wireWriteBit
  rw [waitOnBusy_idle h]
  simp only [spuEngageIf, Bool.false_eq_true, if_false, transact_params, transact_append]
  rfl

/-- The powered part of a write on an idle bridge: the wait and the pullup (R141). -/
theorem powered_idle {s : State} (h1 : s.idleAt 1) (h5 : s.idleAt 5) :
    let cfg := configNibble (s.replyAt 3).byte ||| s.params.spuMask
    spuEngage (waitOnBusy s).2 = raiseIf ((s.replyAt 7).byte != configReadback cfg) .configMismatch
      (transact (pollTransfers s.params s.params.ptrStatus ++ spuTransfers s.params cfg) s) := by
  have e2 := spuEngage_idle (s := transact (pollTransfers s.params s.params.ptrStatus) s) (by rwa [idleAt_transact])
  simp only [replyAt_transact, transact_params, pollTransfers_length] at e2
  rw [waitOnBusy_idle h1]
  simp only [transact_append]
  exact e2

theorem unpowered_idle {s : State} (h1 : s.idleAt 1) (h5 : s.idleAt 5) :
    let cfg := configNibble (s.replyAt 3).byte &&& ~~~s.params.spuMask
    spuClear (waitOnBusy s).2 = raiseIf ((s.replyAt 7).byte != configReadback cfg) .configMismatch
      (transact (pollTransfers s.params s.params.ptrStatus ++ spuTransfers s.params cfg) s) := by
  have e2 := spuClear_idle (s := transact (pollTransfers s.params s.params.ptrStatus) s) (by rwa [idleAt_transact])
  simp only [replyAt_transact, transact_params, pollTransfers_length] at e2
  rw [waitOnBusy_idle h1]
  simp only [transact_append]
  exact e2

theorem wireWriteByte_power_idle {s : State} (h1 : s.idleAt 1) (h5 : s.idleAt 5) (b : Byte) :
    let cfg := configNibble (s.replyAt 3).byte ||| s.params.spuMask
    wireWriteByte b true s = raiseIf ((s.replyAt 7).byte != configReadback cfg) .configMismatch
      (transact (pollTransfers s.params s.params.ptrStatus ++ spuTransfers s.params cfg ++
        [.wr [s.params.cmd1wwb, b]]) s) := by
  unfold wireWriteByte
  simp only [spuEngageIf, if_true]
  rw [powered_idle h1 h5]
  simp only [writeByte2, transact_wr, transact_raiseIf, raiseIf_params, transact_params, ← transact_append]

theorem wireWriteBit_power_idle {s : State} (h1 : s.idleAt 1) (h5 : s.idleAt 5) (v : Bool) :
    let cfg := configNibble (s.replyAt 3).byte ||| s.params.spuMask
    wireWriteBit v true s = raiseIf ((s.replyAt 7).byte != configReadback cfg) .configMismatch
      (transact (pollTransfers s.params s.params.ptrStatus ++ spuTransfers s.params cfg ++
        [.wr [s.params.cmd1wsb, bitOperand s.params v]]) s) := by
  unfold wireWriteBit
  simp only [spuEngageIf, if_true]
  rw [powered_idle h1 h5]
  simp only [writeByte2, transact_wr, transact_raiseIf, raiseIf_params, transact_params, ← transact_append]

theorem wireReadByte_idle {s : State} (h1 : s.idleAt 1) (h4 : s.idleAt 4) :
    wireReadByte s = ((s.replyAt 6).byte, transact (readByteTransfers s.params) s) := by
  unfold wireReadByte
  rw [waitOnBusy_idle h1]
  simp only [writeByte, transact_wr, transact_params]
  rw [waitOnBusy_idle (by simp only [idleAt_transact]; exact h4)]
  simp only [readData_eq, replyAt_transact, transact_params, ← transact_append]
  rfl

theorem wireReadBit_idle {s : State} (h1 : s.idleAt 1) (h4 : s.idleAt 4) :
    wireReadBit s = (statusSample s.params (s.replyAt 4).byte, transact (commandTransfers s.params
      [s.params.cmd1wsb, s.params.bitOne]) s) := by
  unfold wireReadBit
  rw [wireWriteBit_idle h1, waitOnBusy_idle (by simp only [idleAt_transact]; exact h4)]
  simp only [replyAt_transact, transact_params, ← transact_append]
  rfl

theorem triplet_idle {s : State} (h1 : s.idleAt 1) (h4 : s.idleAt 4) (d : Bool) :
    triplet d s = (statusTriplet s.params (s.replyAt 4).byte, transact (commandTransfers s.params
      [s.params.cmd1wt, bitOperand s.params d]) s) := by
  unfold triplet
  rw [waitOnBusy_idle h1]
  simp only [writeByte2, transact_wr, transact_params]
  rw [waitOnBusy_idle (by simp only [idleAt_transact]; exact h4)]
  simp only [replyAt_transact, transact_params, ← transact_append]
  rfl

theorem setChannel_idle {s : State} (h1 : s.idleAt 1) (c : Fin 8) :
    setChannel c s = ((s.replyAt 3).byte == s.params.chRead[c],
      raiseIf ((s.replyAt 3).byte != s.params.chRead[c]) .channelSelectMismatch
        (transact (pollTransfers s.params s.params.ptrStatus ++
          [.wr [s.params.cmdChsl, s.params.chWrite[c]], .rd]) s)) := by
  unfold setChannel
  rw [waitOnBusy_idle h1]
  simp only [readByte_eq, writeByte2, transact_params, replyAt_memWrite, replyAt_transact, pollTransfers_length,
    transact_append]
  rfl

theorem sendAddr_idle (ks : List (Fin 8)) {s : State} (h : ∀ j, j < ks.length → s.idleAt (3 * j + 1)) :
    sendAddr ks s = transact (ks.flatMap fun k => pollTransfers s.params s.params.ptrStatus ++
      [.wr [s.params.cmd1wwb, s.addrByte k]]) s := by
  induction ks generalizing s with
  | nil => rfl
  | cons k ks ih =>
    have e := wireWriteByte_idle (h 0 (by simp)) (s.addrByte k)
    have hs : sendAddr (k :: ks) s = sendAddr ks (wireWriteByte (s.addrByte k) false s) := rfl
    rw [hs, e, ih]
    · have ha : ∀ xs j, (transact xs s).addrByte j = s.addrByte j := fun xs j => by
        unfold State.addrByte; rw [(same_transact xs s).addr]
      simp only [transact_params, ha, ← transact_append, List.flatMap_cons]
    · intro j hj
      rw [idleAt_transact]
      have := h (j + 1) (by simpa using hj)
      simp only [List.length_append, pollTransfers_length, List.length_cons, List.length_nil]
      have e' : 2 + (0 + 1) + (3 * j + 1) = 3 * (j + 1) + 1 := by omega
      rwa [e']

theorem wireSelect_idle {s : State} (h : ∀ j, j < 9 → s.idleAt (3 * j + 1)) :
    wireSelect s = transact (([s.params.romMatch] ++ addrIndexes.map s.addrByte).flatMap fun b =>
      pollTransfers s.params s.params.ptrStatus ++ [.wr [s.params.cmd1wwb, b]]) s := by
  unfold wireSelect
  rw [wireWriteByte_idle (h 0 (by omega)), sendAddr_idle]
  · have ha : ∀ xs j, (transact xs s).addrByte j = s.addrByte j := fun xs j => by
      unfold State.addrByte; rw [(same_transact xs s).addr]
    simp only [transact_params, ha, ← transact_append, List.flatMap_append, List.flatMap_map, List.flatMap_cons,
      List.flatMap_nil, List.append_nil]
  · intro j hj
    rw [idleAt_transact]
    have := h (j + 1) (by simp [addrIndexes] at hj; omega)
    simp only [List.length_append, pollTransfers_length, List.length_cons, List.length_nil]
    have e' : 2 + (0 + 1) + (3 * j + 1) = 3 * (j + 1) + 1 := by omega
    rwa [e']

end Sys2Proof.Machine
end

