-- ==== Sys2Proof/Laws/Exec.lean ====
section
/-! SUPPORT. One lemma for each shape of request: what its meaning can do to the flags and the ports, and which
registers it writes. -/

namespace Sys2Proof.Machine

/-- An output that only a request's end makes: an event or a response. -/
def Output.final : Output → Bool
  | .found _ | .response _ _ => true
  | .write _ _ _ _ | .read _ _ _ | .delay _ | .reset => false

theorem ran_setAddr (k : Fin 8) (v : Byte) (s : State) : Ran 0#8 0 0 s (setAddr k v s) :=
  let h := Ran.refl s
  ⟨h.running, h.requests, h.resetIn, h.params, h.err, h.port⟩

theorem ran_spuEngageIf (p : Bool) (s : State) : Ran 0x15#8 0 2004 s (spuEngageIf p s) := by
  cases p
  · exact (Ran.refl s).mono (by decide) (by omega) (by omega)
  · exact (ran_spuEngage s).mono (by decide) (by omega) (by omega)

/-- The frame of a request whose meaning is a part of a rule and then `finish`. -/
theorem ran_exec {i : Instr} {f v : Byte} {lo hi : Nat} {s u : State} (e : exec i s = .next (finish v u))
    (h : Ran f lo hi s u) (hf : f = flagMask (mayRaise i))
    (hlo : fewestTransfers i ≤ lo := by simp [fewestTransfers, requestCost, costOf])
    (hhi : hi ≤ mostTransfers i := by simp [mostTransfers, requestCost, costOf, Config.pollLimit]) :
    ∃ v u, exec i s = .next (finish v u) ∧
      Ran (flagMask (mayRaise i)) (fewestTransfers i) (mostTransfers i) s u :=
  ⟨v, u, e, h.mono (by rw [hf]; exact and_not_self _) hlo hhi⟩

/-- A request other than `SR.ALL` and `ERR.CLR` runs a part of a rule that raises only its kinds of R282 and stays within
its bounds of R331, and then writes `RES` and responds. -/
theorem exec_ran (i : Instr) (s : State) (ha : ∀ c, i ≠ .srAll c) (hc : ∀ m, i ≠ .errClr m) :
    ∃ v u, exec i s = .next (finish v u) ∧
      Ran (flagMask (mayRaise i)) (fewestTransfers i) (mostTransfers i) s u := by
  cases i with
  | srAll c => exact absurd rfl (ha c)
  | errClr m => exact absurd rfl (hc m)
  | brWb b => exact ran_exec rfl (ran_writeByte b s) rfl
  | brWb2 b c => exact ran_exec rfl (ran_writeByte2 b c s) rfl
  | brRb => exact ran_exec rfl (ran_readByte s) rfl
  | brSrp b => exact ran_exec rfl (ran_setReadPointer b s) rfl
  | brRstat => exact ran_exec rfl (ran_readStatus s) rfl
  | brRdata => exact ran_exec rfl (ran_readData s) rfl
  | brRcfg => exact ran_exec rfl (ran_readConfig s) rfl
  | brWcfg cfg => exact ran_exec rfl (ran_writeConfig cfg s) rfl
  | brWait => exact ran_exec rfl (ran_waitOnBusy s) rfl
  | owReset => exact ran_exec rfl (ran_wireReset s) rfl
  | owWb b p =>
    cases p
    · exact ran_exec rfl (ran_wireWriteByte b s) rfl
    · exact ran_exec rfl (ran_wireWriteByte_power b s) rfl
  | owRb => exact ran_exec rfl (ran_wireReadByte s) rfl
  | owWbit b p =>
    cases p
    · exact ran_exec rfl (ran_wireWriteBit b s) rfl
    · exact ran_exec rfl (ran_wireWriteBit_power b s) rfl
  | owRbit => exact ran_exec rfl (ran_wireReadBit s) rfl
  | owSkip => exact ran_exec rfl (ran_wireSkip s) rfl
  | owSelect => exact ran_exec rfl (ran_wireSelect s) rfl
  | owChan c => exact ran_exec rfl (ran_setChannel c s) rfl
  | owTrip d => exact ran_exec rfl (ran_triplet d s) rfl
  | owRframe =>
    exact ran_exec rfl (ran_readFrame frameIndexes s) rfl
      (by simp [fewestTransfers, requestCost, costOf, frameIndexes])
      (by simp [mostTransfers, requestCost, costOf, Config.pollLimit, frameIndexes])
  | owPullup p =>
    cases p
    · exact ran_exec rfl ((ran_waitOnBusy s).trans (ran_spuClear _)) rfl
    · exact ran_exec rfl ((ran_waitOnBusy s).trans (ran_spuEngage _)) rfl
  | srReset c => exact ran_exec rfl ((Ran.refl s).setSearch c .fresh) rfl
  | srNext c =>
    exact ran_exec rfl (ran_wireSearch c s) rfl (Nat.zero_le _)
      (by simp only [mostTransfers, requestCost, costOf, Config.pollLimit]; omega)
  | srState c => exact ran_exec rfl (Ran.refl s) rfl
  | srRomb c k => exact ran_exec rfl (Ran.refl s) rfl
  | crcStep b c => exact ran_exec rfl (Ran.refl s) rfl
  | crcAddr n => exact ran_exec rfl (Ran.refl s) rfl
  | crcFrame n => exact ran_exec rfl (Ran.refl s) rfl
  | crcChkaddr => exact ran_exec rfl (ran_raiseIf _ .crcValidationFailure s) rfl
  | crcChkframe => exact ran_exec rfl (ran_raiseIf _ .crcValidationFailure s) rfl
  | errRd => exact ran_exec rfl (Ran.refl s) rfl
  | addrSetb k v => exact ran_exec rfl (ran_setAddr k v s) rfl
  | addrGetb k => exact ran_exec rfl (Ran.refl s) rfl
  | frameSetb k v => exact ran_exec rfl ((Ran.refl s).setFrame k v) rfl
  | frameGetb k => exact ran_exec rfl (Ran.refl s) rfl

/-- The three ends of one turn of `SR.ALL`: it goes on after a valid identifier, goes on after an invalid one, or
responds (R205). -/
theorem searchAllPass_cases (c : Fin 8) (n : Nat) (s : State) :
    let u := (wireSearch c s).2
    ((wireSearch c s).1 = true ∧ addrValid u = true ∧
      searchAllPass c n s = { emitFound (identOf u.addr) u with running := some ⟨c, n + 1⟩ }) ∨
    ((wireSearch c s).1 = true ∧ addrValid u = false ∧
      searchAllPass c n s = { raiseErr .crcValidationFailure u with running := some ⟨c, n⟩ }) ∨
    ((wireSearch c s).1 = false ∧
      searchAllPass c n s = finish (BitVec.ofNat 8 (min n 255)) { u with running := none }) := by
  cases h : (wireSearch c s).1
  · exact .inr (.inr ⟨rfl, by simp [searchAllPass, h]⟩)
  · cases h' : addrValid (wireSearch c s).2
    · exact .inr (.inl ⟨rfl, h', by simp [searchAllPass, h, h']⟩)
    · exact .inl ⟨rfl, h', by simp [searchAllPass, h, h']⟩

/-- R331, the "all waits time out" number of one pass. -/
theorem mostTransfers_srAll (c : Fin 8) : mostTransfers (.srAll c) = 266070 := by
  show costOf 133 70 Config.pollLimit = _
  norm_num [costOf, Config.pollLimit]

/-- One turn of `SR.ALL` is a search pass and one more output or raise: the flags and the ports (R205, R282). -/
theorem searchAllPass_ran (c : Fin 8) (n : Nat) (s : State) :
    ∃ u, Ran 0x77#8 (if (s.ss c).ldf then 0 else 13) 266070 s u ∧
      let t := searchAllPass c n s
      t.err = u.err ∧ t.requests = s.requests ∧ t.resetIn = s.resetIn ∧ t.params = s.params ∧
      t.replies = u.replies ∧ t.drawn = u.drawn ∧
      ∃ tail, t.log = u.log ++ tail ∧ tail.length ≤ 1 ∧ ∀ o ∈ tail, o.final = true := by
  have h := ran_wireSearch c s
  rcases searchAllPass_cases c n s with ⟨-, -, e⟩ | ⟨-, -, e⟩ | ⟨-, e⟩
  · refine ⟨(wireSearch c s).2, h.mono (by decide) (le_refl _) (le_refl _), ?_⟩
    dsimp only; rw [e]
    exact ⟨rfl, h.requests, h.resetIn, h.params, rfl, rfl, [.found _], rfl, by simp, by simp [Output.final]⟩
  · have h' := (h.trans (ran_raiseErr .crcValidationFailure _)).mono (g := 0x77#8) (by decide) (le_refl _) (le_refl _)
    refine ⟨_, h', ?_⟩
    dsimp only; rw [e]
    exact ⟨rfl, h'.requests, h'.resetIn, h'.params, rfl, rfl, [], by simp, by simp, by simp⟩
  · refine ⟨(wireSearch c s).2, h.mono (by decide) (le_refl _) (le_refl _), ?_⟩
    dsimp only; rw [e]
    exact ⟨rfl, h.requests, h.resetIn, h.params, rfl, rfl, [.response .ok _], rfl, by simp, by simp [Output.final]⟩

end Sys2Proof.Machine
end

