-- ==== Sys2Proof/Laws/Independent.lean ====
section
/-! SUPPORT. A subroutine that does not name a channel does the same whatever that channel's search state is (R27):
`setSearch` moves past it. -/

namespace Sys2Proof.Machine

variable (c : Fin 8) (x : SearchState) (s : State)

/-! ### Ports and flags -/

theorem emit_setSearch (o : Output) : emit o (setSearch c x s) = setSearch c x (emit o s) := rfl

theorem delay_setSearch (us : Nat) : delay us (setSearch c x s) = setSearch c x (delay us s) := rfl

theorem raiseErr_setSearch (k : ErrKind) : raiseErr k (setSearch c x s) = setSearch c x (raiseErr k s) := rfl

theorem raiseIf_setSearch (b : Bool) (k : ErrKind) : raiseIf b k (setSearch c x s) = setSearch c x (raiseIf b k s) := by
  cases b <;> rfl

theorem finish_setSearch (v : Byte) : finish v (setSearch c x s) = setSearch c x (finish v s) := rfl

theorem clearErr_setSearch (m : BitVec 7) : clearErr m (setSearch c x s) = setSearch c x (clearErr m s) := rfl

theorem setAddr_setSearch (k : Fin 8) (v : Byte) : setAddr k v (setSearch c x s) = setSearch c x (setAddr k v s) := rfl

theorem setFrame_setSearch (k : Fin 9) (v : Byte) : setFrame k v (setSearch c x s) = setSearch c x (setFrame k v s) :=
  rfl

theorem nextReply_setSearch : nextReply (setSearch c x s) = nextReply s := rfl

theorem dropReply_setSearch : dropReply (setSearch c x s) = setSearch c x (dropReply s) := by
  unfold dropReply setSearch
  cases s.replies <;> rfl

theorem addrByte_setSearch (k : Fin 8) : (setSearch c x s).addrByte k = s.addrByte k := rfl

/-! ### The bridge register interface -/

theorem memWrite_setSearch (bytes : List Byte) :
    memWrite bytes (setSearch c x s) = setSearch c x (memWrite bytes s) := by
  unfold memWrite
  simp only [nextReply_setSearch, dropReply_setSearch, emit_setSearch, raiseIf_setSearch, setSearch_params]
  rfl

theorem memRead_setSearch : memRead (setSearch c x s) = ((memRead s).1, setSearch c x (memRead s).2) := by
  unfold memRead
  simp only [nextReply_setSearch, dropReply_setSearch, emit_setSearch, raiseIf_setSearch, setSearch_params]

theorem writeByte_setSearch (b : Byte) : writeByte b (setSearch c x s) = setSearch c x (writeByte b s) :=
  memWrite_setSearch c x s _

theorem writeByte2_setSearch (b0 b1 : Byte) :
    writeByte2 b0 b1 (setSearch c x s) = setSearch c x (writeByte2 b0 b1 s) := memWrite_setSearch c x s _

theorem readByte_setSearch : readByte (setSearch c x s) = ((readByte s).1, setSearch c x (readByte s).2) :=
  memRead_setSearch c x s

theorem setReadPointer_setSearch (p : Byte) :
    setReadPointer p (setSearch c x s) = setSearch c x (setReadPointer p s) := writeByte2_setSearch c x s _ _

theorem readStatus_setSearch : readStatus (setSearch c x s) = ((readStatus s).1, setSearch c x (readStatus s).2) := by
  unfold readStatus
  rw [setReadPointer_setSearch, readByte_setSearch]; rfl

theorem readData_setSearch : readData (setSearch c x s) = ((readData s).1, setSearch c x (readData s).2) := by
  unfold readData
  rw [setReadPointer_setSearch, readByte_setSearch]; rfl

theorem readConfig_setSearch : readConfig (setSearch c x s) = ((readConfig s).1, setSearch c x (readConfig s).2) := by
  unfold readConfig
  rw [setReadPointer_setSearch, readByte_setSearch]; rfl

theorem pollLoop_setSearch (more : Nat) :
    pollLoop more (setSearch c x s) = ((pollLoop more s).1, setSearch c x (pollLoop more s).2) := by
  induction more generalizing s with
  | zero => simp only [pollLoop, readStatus_setSearch, setSearch_params, raiseIf_setSearch]
  | succ n ih =>
    simp only [pollLoop, readStatus_setSearch, setSearch_params, delay_setSearch, ih]
    split <;> rfl

theorem waitOnBusy_setSearch : waitOnBusy (setSearch c x s) = ((waitOnBusy s).1, setSearch c x (waitOnBusy s).2) :=
  pollLoop_setSearch c x s _

theorem writeConfig_setSearch (cfg : Nibble) :
    writeConfig cfg (setSearch c x s) = ((writeConfig cfg s).1, setSearch c x (writeConfig cfg s).2) := by
  unfold writeConfig
  simp only [waitOnBusy_setSearch, setSearch_params, writeByte2_setSearch, readByte_setSearch, raiseIf_setSearch]

/-! ### The 1-Wire transaction layer -/

theorem spuEngage_setSearch : spuEngage (setSearch c x s) = setSearch c x (spuEngage s) := by
  unfold spuEngage
  simp only [readConfig_setSearch, setSearch_params, writeConfig_setSearch]

theorem spuClear_setSearch : spuClear (setSearch c x s) = setSearch c x (spuClear s) := by
  unfold spuClear
  simp only [readConfig_setSearch, setSearch_params, writeConfig_setSearch]

theorem spuEngageIf_setSearch (p : Bool) : spuEngageIf p (setSearch c x s) = setSearch c x (spuEngageIf p s) := by
  cases p
  · rfl
  · exact spuEngage_setSearch c x s

theorem wireReset_setSearch : wireReset (setSearch c x s) = ((wireReset s).1, setSearch c x (wireReset s).2) := by
  unfold wireReset
  simp only [waitOnBusy_setSearch, spuClear_setSearch, setSearch_params, writeByte_setSearch, raiseIf_setSearch]

theorem wireWriteByte_setSearch (b : Byte) (p : Bool) :
    wireWriteByte b p (setSearch c x s) = setSearch c x (wireWriteByte b p s) := by
  unfold wireWriteByte
  simp only [waitOnBusy_setSearch, spuEngageIf_setSearch, setSearch_params, writeByte2_setSearch]

theorem wireReadByte_setSearch :
    wireReadByte (setSearch c x s) = ((wireReadByte s).1, setSearch c x (wireReadByte s).2) := by
  unfold wireReadByte
  simp only [waitOnBusy_setSearch, setSearch_params, writeByte_setSearch, readData_setSearch]

theorem wireWriteBit_setSearch (v p : Bool) :
    wireWriteBit v p (setSearch c x s) = setSearch c x (wireWriteBit v p s) := by
  unfold wireWriteBit
  simp only [waitOnBusy_setSearch, spuEngageIf_setSearch, setSearch_params, writeByte2_setSearch]

theorem wireReadBit_setSearch :
    wireReadBit (setSearch c x s) = ((wireReadBit s).1, setSearch c x (wireReadBit s).2) := by
  unfold wireReadBit
  simp only [wireWriteBit_setSearch, waitOnBusy_setSearch, setSearch_params]

theorem sendAddr_setSearch (ks : List (Fin 8)) : sendAddr ks (setSearch c x s) = setSearch c x (sendAddr ks s) := by
  induction ks generalizing s with
  | nil => rfl
  | cons k ks ih =>
    have e : ∀ t, sendAddr (k :: ks) t = sendAddr ks (wireWriteByte (t.addrByte k) false t) := fun _ => rfl
    rw [e, addrByte_setSearch, wireWriteByte_setSearch, ih, e]

theorem wireSelect_setSearch : wireSelect (setSearch c x s) = setSearch c x (wireSelect s) := by
  unfold wireSelect
  rw [setSearch_params, wireWriteByte_setSearch, sendAddr_setSearch]

theorem setChannel_setSearch (d : Fin 8) :
    setChannel d (setSearch c x s) = ((setChannel d s).1, setSearch c x (setChannel d s).2) := by
  unfold setChannel
  simp only [waitOnBusy_setSearch, setSearch_params, writeByte2_setSearch, readByte_setSearch, raiseIf_setSearch]

theorem triplet_setSearch (d : Bool) :
    triplet d (setSearch c x s) = ((triplet d s).1, setSearch c x (triplet d s).2) := by
  unfold triplet
  simp only [waitOnBusy_setSearch, setSearch_params, writeByte2_setSearch]

theorem readFrame_setSearch (ks : List (Fin 9)) :
    ks.foldl readFrameByte (setSearch c x s) = setSearch c x (ks.foldl readFrameByte s) := by
  induction ks generalizing s with
  | nil => rfl
  | cons k ks ih =>
    rw [List.foldl_cons, List.foldl_cons, ← ih]
    unfold readFrameByte
    rw [wireReadByte_setSearch, setFrame_setSearch]

/-! ### The search of another channel -/

variable {c}

theorem setSearch_comm {d : Fin 8} (h : d ≠ c) (y : SearchState) :
    setSearch d y (setSearch c x s) = setSearch c x (setSearch d y s) := by
  unfold setSearch
  have : d.val ≠ c.val := fun e => h (Fin.ext e)
  simp only [Vector.set_comm _ _ this.symm]

theorem ss_setSearch_ne {d : Fin 8} (h : d ≠ c) : (setSearch c x s).ss d = s.ss d := by
  rw [setSearch_ss, if_neg h]

theorem recordBit_setSearch {d : Fin 8} (h : d ≠ c) (i : Fin 64) (b : Bool) :
    recordBit d i b (setSearch c x s) = setSearch c x (recordBit d i b s) := by
  rw [recordBit_eq, recordBit_eq, ss_setSearch_ne x s h, setSearch_comm x s h]

theorem searchBits_setSearch {d : Fin 8} (h : d ≠ c) (is : List (Fin 64)) (t : Int) :
    searchBits d is t (setSearch c x s) = ((searchBits d is t s).1, setSearch c x (searchBits d is t s).2) := by
  induction is generalizing t s with
  | nil => rfl
  | cons i is ih =>
    simp only [searchBits, ss_setSearch_ne x s h, triplet_setSearch]
    split
    · rfl
    · rw [recordBit_setSearch x _ h, ih]

theorem recordFound_setSearch {d : Fin 8} (h : d ≠ c) (t : Int) :
    recordFound d t (setSearch c x s) = setSearch c x (recordFound d t s) := by
  unfold recordFound
  simp only [ss_setSearch_ne x s h, setSearch_comm x s h]
  rfl

theorem wireSearch_setSearch {d : Fin 8} (h : d ≠ c) :
    wireSearch d (setSearch c x s) = ((wireSearch d s).1, setSearch c x (wireSearch d s).2) := by
  unfold wireSearch
  simp only [ss_setSearch_ne x s h, wireReset_setSearch, setSearch_params, wireWriteByte_setSearch,
    searchBits_setSearch x _ h]
  split
  · rfl
  · split
    · rfl
    · cases searchBits d bitPositions (-1) (wireWriteByte s.params.romSearch false (wireReset s).2) with
      | mk o u =>
        cases o with
        | none => rfl
        | some t => simp only [recordFound_setSearch x u h]

theorem searchAllPass_setSearch {d : Fin 8} (h : d ≠ c) (n : Nat) :
    searchAllPass d n (setSearch c x s) = setSearch c x (searchAllPass d n s) := by
  unfold searchAllPass
  simp only [wireSearch_setSearch x s h]
  split
  · have e : ∀ u : State, addrValid (setSearch c x u) = addrValid u := fun _ => rfl
    rw [e]
    split <;> rfl
  · rfl

end Sys2Proof.Machine
end

