-- ==== Sys2Proof/Laws/Wait.lean ====
section
/-! SUPPORT. What lists of transfers put on the port, the polls of a wait on a busy bridge (R109, R110), and the last byte
read. -/

namespace Sys2Proof.Machine

/-! ### The outputs of transfers -/

/-- A transfer puts one transfer on the port, and takes the next reply. -/
theorem transfer_port (s : State) (x : Transfer) :
    ∃ o, (transfer s x).log = s.log ++ [o] ∧ o.isTransfer = true ∧
      (x = .rd → o = .read s.params.bridgeAddr (s.replyAt 0).ack (s.replyAt 0).byte) ∧
      (∀ bytes, x = .wr bytes → ∃ n, o = .write s.params.bridgeAddr bytes (s.replyAt 0).ack n) := by
  cases x with
  | wr bytes =>
    refine ⟨_, (raiseIf_log _ _ _).trans (congrArg (· ++ _) (dropReply_log s)), rfl, by simp, ?_⟩
    rw [nextReply_eq]; simp
  | rd =>
    refine ⟨_, (raiseIf_log _ _ _).trans (congrArg (· ++ _) (dropReply_log s)), rfl, ?_, by simp⟩
    rw [nextReply_eq]; simp

/-- Transfers put as many transfers on the port, in their order, and nothing else. -/
theorem transact_port (xs : List Transfer) (s : State) :
    ∃ new, (transact xs s).log = s.log ++ new ∧ new.length = xs.length ∧ (∀ o ∈ new, o.isTransfer = true) ∧
      ∀ (k : Nat) (bytes : List Byte), xs[k]? = some (Transfer.wr bytes) →
        ∃ ack n, new[k]? = some (Output.write s.params.bridgeAddr bytes ack n) := by
  induction xs generalizing s with
  | nil => exact ⟨[], by simp, rfl, by simp, by simp⟩
  | cons x xs ih =>
    obtain ⟨o, h1, h2, -, h3⟩ := transfer_port s x
    obtain ⟨new, e1, e2, e3, e4⟩ := ih (transfer s x)
    have hp : (transfer s x).params = s.params := by cases x <;> simp [transfer]
    refine ⟨o :: new, by rw [transact_cons, e1, h1]; simp, by simp [e2], by simpa [h2] using e3, fun k bytes hk => ?_⟩
    cases k with
    | zero =>
      obtain ⟨n, hn⟩ := h3 bytes (by simpa using hk)
      exact ⟨_, n, by rw [hn]; rfl⟩
    | succ k =>
      obtain ⟨ack, n, hn⟩ := e4 k bytes (by simpa using hk)
      exact ⟨ack, n, by simpa [hp] using hn⟩

theorem transfersIn_eq_length {os : List Output} (h : ∀ o ∈ os, o.isTransfer = true) : transfersIn os = os.length := by
  simpa [transfersIn] using List.countP_eq_length.2 h

theorem transfersIn_append (xs ys : List Output) : transfersIn (xs ++ ys) = transfersIn xs + transfersIn ys := by
  simp [transfersIn]

theorem delaysIn_append (xs ys : List Output) : delaysIn (xs ++ ys) = delaysIn xs + delaysIn ys := by
  simp [delaysIn]

/-! ### The frame read on a bridge whose waits take one poll -/

theorem readFrame_idle (ks : List (Fin 9)) (hn : ks.Nodup) (s : State)
    (h : ∀ j, j < ks.length → s.idleAt (7 * j + 1) ∧ s.idleAt (7 * j + 4)) :
    ∃ new, (ks.foldl readFrameByte s).log = s.log ++ new ∧ transfersIn new = 7 * ks.length ∧
      (∀ k, k ∉ ks → (ks.foldl readFrameByte s).frameByte k = s.frameByte k) ∧
      ∀ j (hj : j < ks.length), (ks.foldl readFrameByte s).frameByte ks[j] = (s.replyAt (7 * j + 6)).byte := by
  induction ks generalizing s with
  | nil => exact ⟨[], by simp, rfl, fun _ _ => rfl, by simp⟩
  | cons k ks ih =>
    obtain ⟨hk, hn⟩ := List.nodup_cons.1 hn
    have e := wireReadByte_idle (h 0 (by simp)).1 (h 0 (by simp)).2
    have hu : readFrameByte s k = setFrame k (s.replyAt 6).byte (transact (readByteTransfers s.params) s) := by
      unfold readFrameByte; rw [e]
    have hrep : ∀ j, (readFrameByte s k).replyAt j = s.replyAt (7 + j) := fun j => by
      rw [hu]; exact replyAt_transact _ s j
    have hidle : ∀ j, (readFrameByte s k).idleAt j = s.idleAt (7 + j) := fun j => by
      have hp : (readFrameByte s k).params = s.params := by rw [hu]; simp
      simp only [State.idleAt, hrep, hp]
    obtain ⟨n1, a1, a2, a3, -⟩ := transact_port (readByteTransfers s.params) s
    obtain ⟨n2, b1, b2, b3, b4⟩ := ih hn (readFrameByte s k) (fun j hj => by
      have := h (j + 1) (by simpa using hj)
      rw [hidle, hidle, show 7 + (7 * j + 1) = 7 * (j + 1) + 1 by omega, show 7 + (7 * j + 4) = 7 * (j + 1) + 4 by omega]
      exact this)
    refine ⟨n1 ++ n2, ?_, ?_, fun j hj => ?_, fun j hj => ?_⟩
    · rw [List.foldl_cons, b1, hu, setFrame_log, a1, List.append_assoc]
    · rw [transfersIn_append, transfersIn_eq_length a3, a2, b2, List.length_cons]
      have : (readByteTransfers s.params).length = 7 := rfl
      omega
    · rw [List.mem_cons, not_or] at hj
      rw [List.foldl_cons, b3 j hj.2, hu, setFrame_frameByte, if_neg hj.1]
      unfold State.frameByte
      rw [(same_transact _ s).frame]
    · cases j with
      | zero =>
        rw [List.foldl_cons]
        exact (b3 k hk).trans (by rw [hu, setFrame_frameByte, if_pos rfl])
      | succ j =>
        have := b4 j (by simpa using hj)
        rw [hrep, show 7 + (7 * j + 6) = 7 * (j + 1) + 6 by omega] at this
        simpa using this

/-! ### A wait on a busy bridge -/

theorem replyAt_delay (us : Nat) (s : State) (k : Nat) : (delay us s).replyAt k = s.replyAt k := rfl

/-- The state after one poll that showed busy, and the delay that follows it (R109). -/
def busyPoll (s : State) : State := delay Config.pollDelayUs (readStatus s).2

theorem busyPoll_eq (s : State) :
    busyPoll s = delay Config.pollDelayUs (transact (pollTransfers s.params s.params.ptrStatus) s) := by
  unfold busyPoll; rw [readStatus_eq]

@[simp] theorem busyPoll_params (s : State) : (busyPoll s).params = s.params := by
  rw [busyPoll_eq]; exact transact_params _ s

theorem busyPoll_replyAt (s : State) (k : Nat) : (busyPoll s).replyAt k = s.replyAt (2 + k) := by
  rw [busyPoll_eq, replyAt_delay, replyAt_transact, pollTransfers_length]

/-- A poll that shows busy is followed by the next, while one is left (R109). -/
theorem pollLoop_busy {more : Nat} {s : State} (h : statusBusy s.params (s.replyAt 1).byte = true) :
    pollLoop (more + 1) s = pollLoop more (busyPoll s) := by
  rw [pollLoop]
  simp only [show (readStatus s).1 = (s.replyAt 1).byte by rw [readStatus_eq], h, if_true]
  rfl

/-- The first poll that shows not busy ends the wait (R109). -/
theorem pollLoop_idle {more : Nat} {s : State} (h : statusBusy s.params (s.replyAt 1).byte = false) :
    pollLoop more s = ((s.replyAt 1).byte, transact (pollTransfers s.params s.params.ptrStatus) s) := by
  cases more <;> rw [pollLoop] <;> simp [readStatus_eq, h]

/-- The last poll allowed, busy: `TO` (R109). -/
theorem pollLoop_last {s : State} (h : statusBusy s.params (s.replyAt 1).byte = true) :
    pollLoop 0 s = ((s.replyAt 1).byte,
      raiseErr .timeout (transact (pollTransfers s.params s.params.ptrStatus) s)) := by
  rw [pollLoop]; simp [readStatus_eq, h]

/-- `k` polls that show busy, each with its delay. -/
def busyPolls : Nat → State → State
  | 0, s => s
  | k + 1, s => busyPolls k (busyPoll s)

@[simp] theorem busyPolls_params (k : Nat) (s : State) : (busyPolls k s).params = s.params := by
  induction k generalizing s with
  | zero => rfl
  | succ k ih => rw [busyPolls, ih, busyPoll_params]

theorem busyPolls_replyAt (k : Nat) (s : State) (j : Nat) : (busyPolls k s).replyAt j = s.replyAt (2 * k + j) := by
  induction k generalizing s with
  | zero => simp [busyPolls]
  | succ k ih => rw [busyPolls, ih, busyPoll_replyAt]; congr 1; omega

theorem pollLoop_busyPolls {more k : Nat} {s : State}
    (h : ∀ j, j < k → statusBusy s.params (s.replyAt (2 * j + 1)).byte = true) :
    pollLoop (more + k) s = pollLoop more (busyPolls k s) := by
  induction k generalizing s with
  | zero => rfl
  | succ k ih =>
    rw [← Nat.add_assoc, pollLoop_busy (h 0 (by omega)), ih, busyPolls]
    intro j hj
    rw [busyPoll_params, busyPoll_replyAt]
    have := h (j + 1) (by omega)
    have e : 2 + (2 * j + 1) = 2 * (j + 1) + 1 := by omega
    rwa [e]

/-- `k` busy polls make 2k transfers and k delays and change no flag but `DU` (R110). -/
theorem busyPolls_port (k : Nat) (s : State) :
    ∃ new, (busyPolls k s).log = s.log ++ new ∧ transfersIn new = 2 * k ∧ delaysIn new = k := by
  induction k generalizing s with
  | zero => exact ⟨[], by simp [busyPolls], rfl, rfl⟩
  | succ k ih =>
    obtain ⟨n1, h1, h2, h3, -⟩ := transact_port (pollTransfers s.params s.params.ptrStatus) s
    obtain ⟨n2, e1, e2, e3⟩ := ih (busyPoll s)
    refine ⟨n1 ++ [.delay Config.pollDelayUs] ++ n2, ?_, ?_, ?_⟩
    · rw [busyPolls, e1, busyPoll_eq, delay_eq, emit_log, h1]; simp
    · rw [transfersIn_append, transfersIn_append, transfersIn_eq_length h3, h2, e2, pollTransfers_length]
      simp [transfersIn, Output.isTransfer]; omega
    · have : delaysIn n1 = 0 := by
        simp only [delaysIn, List.countP_eq_zero]; intro o ho; simp [h3 o ho]
      rw [delaysIn_append, delaysIn_append, this, e3]
      simp [delaysIn, Output.isTransfer]; omega

theorem ran_busyPolls (k : Nat) (s : State) : Ran 0x10#8 (2 * k) (2 * k) s (busyPolls k s) := by
  induction k generalizing s with
  | zero => exact (Ran.refl s).mono (by decide) (by omega) (by omega)
  | succ k ih =>
    exact (((ran_readStatus s).trans (ran_delay _)).trans (ih (busyPoll s))).mono (by decide) (by omega) (by omega)

/-! ### The last byte read -/

theorem lastRead_append (xs ys : List Output) : lastRead (xs ++ ys) = (lastRead ys).or (lastRead xs) := by
  induction xs with
  | nil => simp [lastRead]
  | cons o xs ih =>
    simp only [List.cons_append, lastRead, ih]
    cases lastRead ys
    · rfl
    · cases o <;> rfl

theorem lastRead_readByte (s : State) : lastRead (readByte s).2.log = some (readByte s).1 := by
  simp [readByte, memRead, lastRead_append, lastRead]

theorem lastRead_readStatus (s : State) : lastRead (readStatus s).2.log = some (readStatus s).1 := lastRead_readByte _

/-- A wait answers the last byte it read (R109). -/
theorem lastRead_waitOnBusy (s : State) : lastRead (waitOnBusy s).2.log = some (waitOnBusy s).1 := by
  unfold waitOnBusy
  generalize Config.pollLimit - 1 = more
  induction more generalizing s with
  | zero => simp [pollLoop, lastRead_readStatus]
  | succ n ih =>
    rw [pollLoop]
    split
    · exact ih _
    · exact lastRead_readStatus s

/-- A flag that no step of a part can raise stays as it was. -/
theorem Ran.flag {f : Byte} {lo hi : Nat} {s t : State} (h : Ran f lo hi s t) (b : Nat) (hb : f.getLsbD b = false) :
    t.err.getLsbD b = s.err.getLsbD b := by
  obtain ⟨r, h1, h2⟩ := h.err
  have := congrArg (·.getLsbD b) h2
  rcases Nat.lt_or_ge b 8 with h8 | h8
  · have hr : r.getLsbD b = false := by
      simpa only [BitVec.getLsbD_and, BitVec.getLsbD_not, h8, hb, decide_true, Bool.not_false, Bool.and_true,
        BitVec.getLsbD_zero] using this
    rw [h1]; simp [hr]
  · rw [BitVec.getLsbD_of_ge _ _ h8, BitVec.getLsbD_of_ge _ _ h8]

end Sys2Proof.Machine
end

