-- ==== Sys2Proof/Laws/Search.lean ====
section
/-! SUPPORT. One search pass, position by position: on a bridge whose waits take one poll, and on a well-behaved bus
(R192 to R197; spec/43_search.md section 3). -/

namespace Sys2Proof.Machine

/-- The direction at a position is that of the state before the pass, whatever earlier positions were recorded. -/
theorem searchDirection_recordBit {c : Fin 8} {i j : Fin 64} (h : j ≠ i) (b : Bool) (s : State) :
    searchDirection ((recordBit c i b s).ss c) j = searchDirection (s.ss c) j := by
  unfold searchDirection
  rw [recordBit_ss, if_pos rfl]
  simp only [romBit_setRomBit, if_neg h]

theorem romBit_recordBit (c : Fin 8) (i j : Fin 64) (b : Bool) (s : State) :
    romBit ((recordBit c i b s).ss c).romBuf j = if j = i then b else romBit (s.ss c).romBuf j := by
  rw [recordBit_ss, if_pos rfl]
  exact romBit_setRomBit _ _ _ _

/-- One position of a pass whose triplet is consistent (R192). -/
theorem searchBits_cons {c : Fin 8} {i : Fin 64} {is : List (Fin 64)} {t : Int} {s : State}
    (h : ((triplet (searchDirection (s.ss c) i) s).1.id && (triplet (searchDirection (s.ss c) i) s).1.cmp) = false) :
    searchBits c (i :: is) t s =
      let r := triplet (searchDirection (s.ss c) i) s
      searchBits c is (tentative i r.1 t) (recordBit c i r.1.dir r.2) := by
  rw [searchBits]; simp [h]

/-- The triplet at a position is a branch point where the 0 way was taken (R194). -/
def Triplet.branch (r : Triplet) : Bool := !r.id && !r.cmp && !r.dir

theorem tentative_eq (i : Fin 64) (r : Triplet) (t : Int) : tentative i r t = if r.branch then (i.val : Int) else t := by
  unfold tentative Triplet.branch
  rfl

/-! ### A bridge whose waits take one poll -/

theorem transact_recordBit (xs : List Transfer) (c : Fin 8) (i : Fin 64) (b : Bool) (s : State) :
    (recordBit c i b (transact xs s)).ss c = (recordBit c i b s).ss c := by
  simp only [recordBit_ss, if_true, ss_congr (same_transact xs s).search c]

/-- Step 4 of a pass whose waits take one poll each and whose triplets `r` are consistent (R192 to R194). -/
theorem searchBits_idle (c : Fin 8) (is : List (Fin 64)) (hn : is.Nodup) (t : Int) (s : State)
    (h : ∀ j, j < is.length → s.idleAt (5 * j + 1) ∧ s.idleAt (5 * j + 4))
    (hc : ∀ j, j < is.length → let r := statusTriplet s.params (s.replyAt (5 * j + 4)).byte
      (r.id && r.cmp) = false) :
    ∃ t' u new, searchBits c is t s = (some t', u) ∧
      (∀ i, i ∉ is → romBit (u.ss c).romBuf i = romBit (s.ss c).romBuf i) ∧
      (∀ j (hj : j < is.length),
        romBit (u.ss c).romBuf is[j] = (statusTriplet s.params (s.replyAt (5 * j + 4)).byte).dir) ∧
      ((t' = t ∧ ∀ j, j < is.length → (statusTriplet s.params (s.replyAt (5 * j + 4)).byte).branch = false) ∨
        ∃ j, ∃ hj : j < is.length, t' = (is[j].val : Int) ∧
          (statusTriplet s.params (s.replyAt (5 * j + 4)).byte).branch = true ∧
          ∀ k, j < k → k < is.length → (statusTriplet s.params (s.replyAt (5 * k + 4)).byte).branch = false) ∧
      u.log = s.log ++ new ∧ new.length = 5 * is.length ∧ (∀ o ∈ new, o.isTransfer = true) ∧
      ∀ j (hj : j < is.length), ∃ ack n, new[5 * j + 2]? = some (.write s.params.bridgeAddr
        [s.params.cmd1wt, bitOperand s.params (searchDirection (s.ss c) is[j])] ack n) := by
  induction is generalizing t s with
  | nil =>
    exact ⟨t, s, [], rfl, by simp, by simp, .inl ⟨rfl, by simp⟩, by simp, rfl, by simp, by simp⟩
  | cons i is ih =>
    obtain ⟨hi, hn⟩ := List.nodup_cons.1 hn
    have e := triplet_idle (h 0 (by simp)).1 (h 0 (by simp)).2 (searchDirection (s.ss c) i)
    have c0 := hc 0 (by simp)
    simp only [Nat.mul_zero, Nat.zero_add] at e c0
    generalize hxs : commandTransfers s.params [s.params.cmd1wt, bitOperand s.params (searchDirection (s.ss c) i)] = xs at e
    have hlen : xs.length = 5 := by rw [← hxs]; rfl
    generalize hr : statusTriplet s.params (s.replyAt 4).byte = r at e c0
    have hrep : ∀ k, (recordBit c i r.dir (transact xs s)).replyAt k = s.replyAt (5 + k) := fun k => by
      have : (recordBit c i r.dir (transact xs s)).replyAt k = (transact xs s).replyAt k := rfl
      rw [this, replyAt_transact, hlen]
    have hpar : (recordBit c i r.dir (transact xs s)).params = s.params := by simp
    have hidle : ∀ k, (recordBit c i r.dir (transact xs s)).idleAt k = s.idleAt (5 + k) := fun k => by
      simp only [State.idleAt, hrep, hpar]
    obtain ⟨t', u, new, g1, g2, g3, g4, g5, g6, g7, g8⟩ := ih hn (tentative i r t) (recordBit c i r.dir (transact xs s))
      (fun j hj => by
        have := h (j + 1) (by simpa using hj)
        rw [hidle, hidle, show 5 + (5 * j + 1) = 5 * (j + 1) + 1 by omega, show 5 + (5 * j + 4) = 5 * (j + 1) + 4 by omega]
        exact this)
      (fun j hj => by
        have := hc (j + 1) (by simpa using hj)
        rw [hrep, hpar, show 5 + (5 * j + 4) = 5 * (j + 1) + 4 by omega]
        exact this)
    simp only [hrep, hpar] at g3 g4 g8
    have e5 : ∀ j, 5 + (5 * j + 4) = 5 * (j + 1) + 4 := fun j => by omega
    simp only [e5] at g3 g4
    obtain ⟨n1, a1, a2, a3, a4⟩ := transact_port xs s
    refine ⟨t', u, n1 ++ new, ?_, ?_, ?_, ?_, ?_, ?_, ?_, ?_⟩
    · rw [searchBits_cons (by rw [e]; exact c0), e]; exact g1
    · intro j hj
      rw [List.mem_cons, not_or] at hj
      rw [g2 j hj.2, romBit_recordBit, if_neg hj.1, ss_congr (same_transact xs s).search]
    · intro j hj
      cases j with
      | zero =>
        simp only [List.getElem_cons_zero, Nat.mul_zero, Nat.zero_add, hr]
        rw [g2 i hi, romBit_recordBit, if_pos rfl]
      | succ j => simpa using g3 j (by simpa using hj)
    · rcases g4 with ⟨g, gb⟩ | ⟨j, hj, g, gb, gl⟩
      · rw [tentative_eq] at g
        cases hb : r.branch
        · refine .inl ⟨by simpa [hb] using g, fun j hj => ?_⟩
          cases j with
          | zero => simpa [hr] using hb
          | succ j => exact gb j (by simpa using hj)
        · refine .inr ⟨0, by simp, by simpa [hb] using g, by simpa [hr] using hb, fun k hk hkl => ?_⟩
          obtain ⟨k, rfl⟩ : ∃ m, k = m + 1 := ⟨k - 1, by omega⟩
          exact gb k (by simpa using hkl)
      · refine .inr ⟨j + 1, by simpa using hj, by simpa using g, gb, fun k hk hkl => ?_⟩
        obtain ⟨k, rfl⟩ : ∃ m, k = m + 1 := ⟨k - 1, by omega⟩
        exact gl k (by omega) (by simpa using hkl)
    · rw [g5, recordBit_log, a1, List.append_assoc]
    · simp only [List.length_append, g6, a2, hlen, List.length_cons]; omega
    · intro o ho
      rcases List.mem_append.1 ho with ho | ho
      · exact a3 o ho
      · exact g7 o ho
    · intro j hj
      cases j with
      | zero =>
        obtain ⟨ack, n, hn⟩ := a4 2 [s.params.cmd1wt, bitOperand s.params (searchDirection (s.ss c) i)] (by rw [← hxs]; rfl)
        refine ⟨ack, n, ?_⟩
        rw [List.getElem?_append_left (by rw [a2, hlen]; omega)]
        simpa using hn
      | succ j =>
        obtain ⟨ack, n, hn⟩ := g8 j (by simpa using hj)
        refine ⟨ack, n, ?_⟩
        have hne : is[j]'(by simpa using hj) ≠ i := fun h => hi (h ▸ List.getElem_mem _)
        rw [searchDirection_recordBit hne, ss_congr (same_transact xs s).search] at hn
        rw [List.getElem?_append_right (by rw [a2, hlen]; omega), a2, hlen,
          show 5 * (j + 1) + 2 - 5 = 5 * j + 2 by omega]
        simpa using hn

/-! ### The inconsistent triplet (R195) -/

/-- A triplet is answered by the last byte read (R159). -/
theorem lastRead_triplet (d : Bool) (s : State) :
    ∃ b, lastRead (triplet d s).2.log = some b ∧ (triplet d s).1 = statusTriplet s.params b :=
  ⟨_, lastRead_waitOnBusy _, rfl⟩

/-- Step 4 raises `SI` exactly where it ends with no result, at a triplet whose id and cmp bits are both 1 (R195). -/
theorem searchBits_flag (c : Fin 8) (is : List (Fin 64)) (t : Int) (s : State) :
    let r := searchBits c is t s
    (r.1 = none → r.2.err.getLsbD 6 = true ∧ ∃ b, lastRead r.2.log = some b ∧
      b.getLsbD s.params.stSbr = true ∧ b.getLsbD s.params.stTsb = true) ∧
    (r.1 ≠ none → r.2.err.getLsbD 6 = s.err.getLsbD 6) := by
  induction is generalizing t s with
  | nil => exact ⟨by simp [searchBits], fun _ => rfl⟩
  | cons i is ih =>
    have hp : (triplet (searchDirection (s.ss c) i) s).2.params = s.params := (ran_triplet _ s).params
    unfold searchBits
    simp only
    split
    · rename_i h
      obtain ⟨b, hb, hr⟩ := lastRead_triplet (searchDirection (s.ss c) i) s
      rw [hr, Bool.and_eq_true] at h
      refine ⟨fun _ => ⟨?_, b, hb, h.1, h.2⟩, by simp⟩
      rw [raiseErr_err, BitVec.getLsbD_or, show ErrKind.searchInconsistent.mask.getLsbD 6 = true from rfl, Bool.or_true]
    · have h := ih (tentative i (triplet (searchDirection (s.ss c) i) s).1 t)
        (recordBit c i (triplet (searchDirection (s.ss c) i) s).1.dir (triplet (searchDirection (s.ss c) i) s).2)
      simp only [recordBit_params, hp, recordBit_err, (ran_triplet _ s).flag 6 rfl] at h
      exact h

/-- Step 4 of a pass whose waits take one poll each and whose first inconsistent triplet is the `m`-th (R195). -/
theorem searchBits_stops (c : Fin 8) (is : List (Fin 64)) (hn : is.Nodup) (t : Int) (s : State) (m : Nat)
    (hm : m < is.length) (h : ∀ j, j ≤ m → s.idleAt (5 * j + 1) ∧ s.idleAt (5 * j + 4))
    (hc : ∀ j, j < m → let r := statusTriplet s.params (s.replyAt (5 * j + 4)).byte
      (r.id && r.cmp) = false)
    (hi : let r := statusTriplet s.params (s.replyAt (5 * m + 4)).byte
      (r.id && r.cmp) = true) :
    ∃ u new, searchBits c is t s = (none, u) ∧ u.err.getLsbD 6 = true ∧
      (∀ i, i ∉ is.take m → romBit (u.ss c).romBuf i = romBit (s.ss c).romBuf i) ∧
      (∀ j (hj : j < m),
        romBit (u.ss c).romBuf is[j] = (statusTriplet s.params (s.replyAt (5 * j + 4)).byte).dir) ∧
      u.log = s.log ++ new ∧ new.length = 5 * (m + 1) ∧ ∀ o ∈ new, o.isTransfer = true := by
  induction is generalizing t s m with
  | nil => simp at hm
  | cons i is ih =>
    obtain ⟨hni, hn⟩ := List.nodup_cons.1 hn
    have e := triplet_idle (h 0 (by omega)).1 (h 0 (by omega)).2 (searchDirection (s.ss c) i)
    generalize hxs : commandTransfers s.params [s.params.cmd1wt, bitOperand s.params (searchDirection (s.ss c) i)] = xs at e
    have hlen : xs.length = 5 := by rw [← hxs]; rfl
    obtain ⟨n1, a1, a2, a3, -⟩ := transact_port xs s
    cases m with
    | zero =>
      simp only [Nat.mul_zero, Nat.zero_add] at hi
      refine ⟨raiseErr .searchInconsistent (transact xs s), n1, ?_, ?_, fun j _ => ?_, by simp, a1, ?_, a3⟩
      · rw [searchBits, e]; simp [hi]
      · rw [raiseErr_err, BitVec.getLsbD_or, show ErrKind.searchInconsistent.mask.getLsbD 6 = true from rfl, Bool.or_true]
      · rw [raiseErr_ss, ss_congr (same_transact xs s).search]
      · rw [a2, hlen]
    | succ m =>
      have c0 := hc 0 (by omega)
      simp only [Nat.mul_zero, Nat.zero_add] at c0
      generalize hr : statusTriplet s.params (s.replyAt 4).byte = r at e c0
      have hrep : ∀ k, (recordBit c i r.dir (transact xs s)).replyAt k = s.replyAt (5 + k) := fun k => by
        have : (recordBit c i r.dir (transact xs s)).replyAt k = (transact xs s).replyAt k := rfl
        rw [this, replyAt_transact, hlen]
      have hpar : (recordBit c i r.dir (transact xs s)).params = s.params := by simp
      have hidle : ∀ k, (recordBit c i r.dir (transact xs s)).idleAt k = s.idleAt (5 + k) := fun k => by
        simp only [State.idleAt, hrep, hpar]
      have e5 : ∀ j, 5 + (5 * j + 4) = 5 * (j + 1) + 4 := fun j => by omega
      obtain ⟨u, new, g1, g2, g3, g4, g5, g6, g7⟩ := ih hn (tentative i r t) (recordBit c i r.dir (transact xs s)) m
        (by simpa using hm)
        (fun j hj => by
          have := h (j + 1) (by omega)
          rw [hidle, hidle, show 5 + (5 * j + 1) = 5 * (j + 1) + 1 by omega, e5]
          exact this)
        (fun j hj => by
          have := hc (j + 1) (by omega)
          rw [hrep, hpar, e5]
          exact this)
        (by rw [hrep, hpar, e5]; exact hi)
      simp only [hrep, hpar, e5] at g4
      refine ⟨u, n1 ++ new, ?_, g2, fun j hj => ?_, fun j hj => ?_, ?_, ?_, ?_⟩
      · rw [searchBits_cons (by rw [e]; exact c0), e]; exact g1
      · rw [List.take_succ_cons, List.mem_cons, not_or] at hj
        rw [g3 j hj.2, romBit_recordBit, if_neg hj.1, ss_congr (same_transact xs s).search]
      · cases j with
        | zero =>
          simp only [List.getElem_cons_zero, Nat.mul_zero, Nat.zero_add, hr]
          rw [g3 i (fun h => hni (List.mem_of_mem_take h)), romBit_recordBit, if_pos rfl]
        | succ j => simpa using g4 j (by omega)
      · rw [g5, recordBit_log, a1, List.append_assoc]
      · simp only [List.length_append, g6, a2, hlen]; omega
      · intro o ho
        rcases List.mem_append.1 ho with ho | ho
        · exact a3 o ho
        · exact g7 o ho

/-- Steps 2 and 3 of a pass on a bridge whose waits take one poll: 16 transfers, the last of them the search command, and
no register written (R192). -/
theorem searchStart_idle {s : State} (h1 : s.idleAt 1) (h5 : s.idleAt 5) (h9 : s.idleAt 9) (h12 : s.idleAt 12)
    (h14 : s.idleAt 14) :
    ∃ u new, wireWriteByte s.params.romSearch false (wireReset s).2 = u ∧
      (wireReset s).1 = statusPresence s.params (s.replyAt 12).byte ∧
      u.params = s.params ∧ (∀ k, u.replyAt k = s.replyAt (16 + k)) ∧ SameRegs s u ∧
      u.err.getLsbD 6 = s.err.getLsbD 6 ∧ u.log = s.log ++ new ∧ new.length = 16 ∧ (∀ o ∈ new, o.isTransfer = true) ∧
      ∃ ack n, new[15]? = some (.write s.params.bridgeAddr [s.params.cmd1wwb, s.params.romSearch] ack n) := by
  have e1 := wireReset_idle h1 h5 h9 h12
  generalize configNibble (s.replyAt 3).byte &&& ~~~s.params.spuMask = cfg at e1
  have hidle : (wireReset s).2.idleAt 1 := by
    rw [e1]; simp only [idleAt_raiseIf, idleAt_transact]; exact h14
  have hp : (wireReset s).2.params = s.params := (ran_wireReset s).params
  have e2 := wireWriteByte_idle hidle s.params.romSearch
  rw [hp] at e2
  have e3 : wireWriteByte s.params.romSearch false (wireReset s).2 =
      raiseIf (statusShort s.params (s.replyAt 12).byte) .shortCircuit
        (raiseIf ((s.replyAt 7).byte != configReadback cfg) .configMismatch
          (transact (resetTransfers s.params cfg ++ (pollTransfers s.params s.params.ptrStatus ++
            [.wr [s.params.cmd1wwb, s.params.romSearch]])) s)) := by
    rw [e2, e1]; simp only [transact_raiseIf, transact_append]
  obtain ⟨new, a1, a2, a3, a4⟩ := transact_port (resetTransfers s.params cfg ++ (pollTransfers s.params s.params.ptrStatus ++
    [.wr [s.params.cmd1wwb, s.params.romSearch]])) s
  refine ⟨_, new, rfl, by rw [e1], ?_, fun k => ?_, (same_wireReset s).trans (same_wireWriteByte _ _ _), ?_, ?_, a2, a3,
    a4 15 _ rfl⟩
  · rw [e3]; simp
  · rw [e3, replyAt_raiseIf, replyAt_raiseIf, replyAt_transact]; rfl
  · exact ((ran_wireReset s).trans (ran_wireWriteByte s.params.romSearch _)).flag 6 rfl
  · rw [e3, raiseIf_log, raiseIf_log, a1]

/-! ### A well-behaved bus -/

/-- With a participant `w`, a well-behaved bus answers no inconsistent triplet; its direction is `w`'s bit where the
participants agree, and where they do not, the driven one. -/
theorem busAnswer_of_mem {ds : List Ident} {w : Ident} (hw : w ∈ ds) (i : Fin 64) (d : Bool)
    (hd : (∃ v ∈ ds, identBit v i ≠ identBit w i) → d = identBit w i) :
    ((busAnswer ds i d).id && (busAnswer ds i d).cmp) = false ∧ (busAnswer ds i d).dir = identBit w i ∧
      ((busAnswer ds i d).branch = true ↔ identBit w i = false ∧ ∃ v ∈ ds, identBit v i = true) := by
  have hid : (ds.all fun v => identBit v i) = true → identBit w i = true := fun h => (List.all_eq_true.1 h) w hw
  have hcmp : (ds.all fun v => !identBit v i) = true → identBit w i = false := fun h => by
    simpa using (List.all_eq_true.1 h) w hw
  unfold busAnswer Triplet.branch
  cases h1 : ds.all fun v => identBit v i
  · cases h2 : ds.all fun v => !identBit v i
    · obtain ⟨a, ha, ha'⟩ := List.all_eq_false.1 h1
      obtain ⟨b, hb, hb'⟩ := List.all_eq_false.1 h2
      have hdw : d = identBit w i := by
        cases hwi : identBit w i
        · rw [← hwi]; exact hd ⟨b, hb, by simpa [hwi] using hb'⟩
        · rw [← hwi]; exact hd ⟨a, ha, by simpa [hwi] using ha'⟩
      refine ⟨by simp, by simp [hdw], ?_⟩
      simp only [hdw, Bool.not_false, Bool.true_and, beq_self_eq_true, if_true, Bool.not_eq_true']
      exact ⟨fun h => ⟨h, b, hb, by simpa using hb'⟩, fun h => h.1⟩
    · have := hcmp h2
      refine ⟨by simp, by simp [this], ?_⟩
      simp only [this, Bool.not_true, Bool.and_false, Bool.false_and, Bool.false_eq_true, true_and, false_iff]
      rintro ⟨v, hv, hvi⟩
      have := (List.all_eq_true.1 h2) v hv
      simp [hvi] at this
  · have hwi := hid h1
    cases h2 : ds.all fun v => !identBit v i
    · refine ⟨by simp, by simp [hwi], by simp [hwi]⟩
    · have := hcmp h2
      rw [hwi] at this; cases this

/-- At position `i`, after the positions `pre`, the device `w` parts from another that takes the 1 way there. -/
def parts (ds : List Ident) (w : Ident) (pre : List (Fin 64)) (i : Fin 64) : Prop :=
  identBit w i = false ∧ ∃ v ∈ ds, (∀ j ∈ pre, identBit v j = identBit w j) ∧ identBit v i = true

/-- A pass on a well-behaved bus finds the device `w` if at every position where a device that agreed with `w` so far
parts from it, the controller drives `w`'s bit. The last tentative discrepancy is the last position where `w` takes the 0
way of a branch (R192 to R194). -/
theorem searchBits_finds (c : Fin 8) (w : Ident) (is : List (Fin 64)) (hn : is.Nodup) (ds : List Ident) (t : Int)
    (s : State) (hw : w ∈ ds) (hb : wellBehavedBits c is ds s = true)
    (hd : ∀ pre i post, is = pre ++ i :: post →
      (∃ v ∈ ds, (∀ j ∈ pre, identBit v j = identBit w j) ∧ identBit v i ≠ identBit w i) →
        searchDirection (s.ss c) i = identBit w i) :
    ∃ t' u, searchBits c is t s = (some t', u) ∧
      (∀ i, i ∉ is → romBit (u.ss c).romBuf i = romBit (s.ss c).romBuf i) ∧
      (∀ i ∈ is, romBit (u.ss c).romBuf i = identBit w i) ∧
      ((t' = t ∧ ∀ pre i post, is = pre ++ i :: post → ¬ parts ds w pre i) ∨
        ∃ pre i post, is = pre ++ i :: post ∧ t' = (i.val : Int) ∧ parts ds w pre i ∧
          ∀ mid k rest, post = mid ++ k :: rest → ¬ parts ds w (pre ++ i :: mid) k) := by
  induction is generalizing ds t s with
  | nil => exact ⟨t, s, rfl, fun _ _ => rfl, by simp, .inl ⟨rfl, by simp⟩⟩
  | cons i is ih =>
    obtain ⟨hi, hn⟩ := List.nodup_cons.1 hn
    simp only [wellBehavedBits, Bool.and_eq_true, decide_eq_true_eq] at hb
    obtain ⟨e, hb⟩ := hb
    obtain ⟨hc, hdir, hbr⟩ := busAnswer_of_mem hw i (searchDirection (s.ss c) i) (fun ⟨v, hv, hvi⟩ =>
      hd [] i is rfl ⟨v, hv, by simp, hvi⟩)
    rw [← e] at hc hdir hbr
    simp only [hdir] at hb
    have hss := ss_congr (same_triplet (searchDirection (s.ss c) i) s).search c
    have hmem : ∀ v, v ∈ ds.filter (fun v => identBit v i == identBit w i) ↔ v ∈ ds ∧ identBit v i = identBit w i :=
      fun v => by simp
    have hparts : ∀ pre k, parts (ds.filter fun v => identBit v i == identBit w i) w pre k ↔ parts ds w (i :: pre) k := by
      intro pre k
      unfold parts
      simp only [hmem, List.mem_cons, forall_eq_or_imp]
      constructor
      · rintro ⟨h0, v, ⟨hv, hvi⟩, h⟩; exact ⟨h0, v, hv, ⟨hvi, h.1⟩, h.2⟩
      · rintro ⟨h0, v, hv, ⟨hvi, h⟩, h'⟩; exact ⟨h0, v, ⟨hv, hvi⟩, h, h'⟩
    obtain ⟨t', u, g1, g2, g3, g4⟩ := ih hn _ (tentative i (triplet (searchDirection (s.ss c) i) s).1 t)
      (recordBit c i (identBit w i) (triplet (searchDirection (s.ss c) i) s).2) ((hmem w).2 ⟨hw, rfl⟩) hb
      (fun pre k post hk ⟨v, hv, hvp, hvk⟩ => by
        have hne : k ≠ i := fun h => hi (by rw [hk, h]; simp)
        rw [searchDirection_recordBit hne, hss]
        refine hd (i :: pre) k post (by rw [hk]; rfl) ⟨v, ((hmem v).1 hv).1, ?_, hvk⟩
        simp only [List.mem_cons, forall_eq_or_imp]
        exact ⟨((hmem v).1 hv).2, hvp⟩)
    simp only [hparts] at g4
    refine ⟨t', u, ?_, ?_, ?_, ?_⟩
    · rw [searchBits_cons hc]
      simp only [hdir]
      exact g1
    · intro j hj
      rw [List.mem_cons, not_or] at hj
      rw [g2 j hj.2, romBit_recordBit, if_neg hj.1, hss]
    · intro j hj
      rcases List.mem_cons.1 hj with rfl | hj
      · rw [g2 j hi, romBit_recordBit, if_pos rfl]
      · exact g3 j hj
    · have hp0 : parts ds w [] i ↔ (triplet (searchDirection (s.ss c) i) s).1.branch = true := by
        rw [hbr]; unfold parts; simp
      rcases g4 with ⟨g, gb⟩ | ⟨pre, k, post, hk, g, gb, gl⟩
      · rw [tentative_eq] at g
        cases hbb : (triplet (searchDirection (s.ss c) i) s).1.branch
        · refine .inl ⟨by simpa [hbb] using g, fun pre k post hk => ?_⟩
          cases pre with
          | nil => cases hk; rw [hp0, hbb]; simp
          | cons p pre => cases hk; exact gb pre k post rfl
        · exact .inr ⟨[], i, is, rfl, by simpa [hbb] using g, hp0.2 hbb, fun mid k rest hk => gb mid k rest hk⟩
      · exact .inr ⟨i :: pre, k, post, by rw [hk]; rfl, g, gb, gl⟩

end Sys2Proof.Machine
end

