-- ==== Sys2Proof/Laws/Enumerate.lean ====
section
/-! SUPPORT. Enumeration on a well-behaved bus: which device the next pass finds (R198, R199). -/

namespace Sys2Proof.Machine

/-! ### Passes -/

/-- Where the positions in order are split, the ones before `i` are the smaller ones and the ones after it the greater. -/
theorem finRange_split {n : Nat} {pre : List (Fin n)} {i : Fin n} {post : List (Fin n)}
    (h : List.finRange n = pre ++ i :: post) (j : Fin n) : (j ∈ pre ↔ j < i) ∧ (j ∈ post ↔ i < j) := by
  have hp : (List.finRange n).Pairwise (· < ·) := List.pairwise_lt_finRange n
  have hm : j ∈ List.finRange n := List.mem_finRange j
  rw [h] at hp hm
  rw [List.pairwise_append] at hp
  obtain ⟨h1, h2, h3⟩ := hp
  rw [List.pairwise_cons] at h2
  simp only [List.mem_append, List.mem_cons] at hm
  constructor
  · constructor
    · intro hj; exact h3 j hj i (by simp)
    · intro hj
      rcases hm with h | rfl | h
      · exact h
      · exact absurd hj (lt_irrefl _)
      · exact absurd (h2.1 j h) (not_lt.2 hj.le)
  · constructor
    · intro hj; exact h2.1 j hj
    · intro hj
      rcases hm with h | rfl | h
      · exact absurd (h3 j h i (by simp)) (not_lt.2 hj.le)
      · exact absurd hj (lt_irrefl _)
      · exact h

theorem finRange_at {n : Nat} (i : Fin n) : ∃ pre post, List.finRange n = pre ++ i :: post :=
  List.append_of_mem (List.mem_finRange i)

/-- The search state after a complete pass that found the device `w` among `ds`: the buffer holds `w`, and `LD` is the last
position where `w` takes the 0 way of a branch, or -1 (R194, R196). -/
def SearchFound (ds : List Ident) (w : Ident) (x : SearchState) : Prop :=
  let agree := fun (v : Ident) (i : Fin 64) => ∀ j, j < i → identBit v j = identBit w j
  (∀ i, romBit x.romBuf i = identBit w i) ∧
  ((x.ld = -1 ∧ ∀ v ∈ ds, ∀ i : Fin 64, identBit w i = false → agree v i → identBit v i = false) ∨
   ∃ i : Fin 64, x.ld = (i.val : Int) ∧ identBit w i = false ∧ (∃ v ∈ ds, agree v i ∧ identBit v i = true) ∧
     ∀ v ∈ ds, ∀ k : Fin 64, i < k → identBit w k = false → agree v k → identBit v k = false)

/-- A pass on a well-behaved bus finds `w` if it drives `w`'s bit wherever a device that agreed with `w` so far parts from
it. -/
theorem wireSearch_finds (c : Fin 8) (ds : List Ident) (w : Ident) (s : State) (hf : (s.ss c).ldf = false)
    (hw : w ∈ ds) (hb : wellBehavedPass c ds s = true)
    (hd : ∀ i : Fin 64, (∃ v ∈ ds, (∀ j, j < i → identBit v j = identBit w j) ∧ identBit v i ≠ identBit w i) →
        searchDirection (s.ss c) i = identBit w i) :
    ∃ u, wireSearch c s = (true, u) ∧ SearchFound ds w (u.ss c) ∧ u.addr = (u.ss c).romBuf ∧
      (u.ss c).ldf = decide ((u.ss c).ld = -1) := by
  unfold wellBehavedPass at hb
  rw [Bool.and_eq_true] at hb
  obtain ⟨hp, hb⟩ := hb
  have hne : ds.isEmpty = false := by cases ds with
    | nil => simp at hw
    | cons _ _ => rfl
  have hp : (wireReset s).1 = true := by simpa [hne] using hp
  rw [hne, Bool.false_or] at hb
  have hsame := (same_wireReset s).trans (same_wireWriteByte s.params.romSearch false (wireReset s).2)
  obtain ⟨t', u, g1, g2, g3, g4⟩ := searchBits_finds c w bitPositions (List.nodup_finRange 64) ds (-1) _ hw hb
    (fun pre i post h ⟨v, hv, h1, h2⟩ => by
      rw [ss_congr hsame.search]
      exact hd i ⟨v, hv, fun j hj => h1 j ((finRange_split h j).1.2 hj), h2⟩)
  have hregs := searchBits_regs c bitPositions (-1) (wireWriteByte s.params.romSearch false (wireReset s).2)
  rw [g1] at hregs
  obtain ⟨-, -, -, -, -, h6⟩ := hregs
  simp only [ss_congr hsame.search, hf] at h6
  have e : wireSearch c s = (true, recordFound c t' u) := by
    unfold wireSearch; simp [hf, hp, g1]
  have hss : (recordFound c t' u).ss c = { u.ss c with ld := t', ldf := (u.ss c).ldf || decide (t' = -1) } :=
    setSearch_ss_self _ _ _
  refine ⟨_, e, ?_, ?_, ?_⟩
  · rw [hss]
    refine ⟨fun i => g3 i (List.mem_finRange i), ?_⟩
    rcases g4 with ⟨g, gb⟩ | ⟨pre, i, post, hi, g, ⟨gi, v, hv, hvp, hvi⟩, gl⟩
    · refine .inl ⟨g, fun v hv i hi hagree => ?_⟩
      obtain ⟨pre, post, hs⟩ := finRange_at i
      have := gb pre i post hs
      unfold parts at this
      by_contra hc
      exact this ⟨hi, v, hv, fun j hj => hagree j ((finRange_split hs j).1.1 hj), by simpa using hc⟩
    · refine .inr ⟨i, g, gi, ⟨v, hv, fun j hj => hvp j ((finRange_split hi j).1.2 hj), hvi⟩,
        fun v hv k hik hk hagree => ?_⟩
      obtain ⟨mid, rest, hs⟩ := List.append_of_mem ((finRange_split hi k).2.2 hik)
      have := gl mid k rest hs
      unfold parts at this
      by_contra hc
      have hfull : List.finRange 64 = (pre ++ i :: mid) ++ k :: rest := by
        rw [show List.finRange 64 = _ from hi, hs]; simp
      exact this ⟨hk, v, hv, fun j hj => hagree j ((finRange_split hfull j).1.1 hj), by simpa using hc⟩
  · rw [hss]; rfl
  · rw [hss]; simp [h6]

/-! ### The order of R198 -/

theorem precedes_asymm {v w : Ident} (h : precedes v w) : ¬ precedes w v := by
  rintro ⟨i, h1, h2, h3⟩
  obtain ⟨k, k1, k2, k3⟩ := h
  rcases lt_trichotomy i k with hik | rfl | hik
  · have := k1 i hik; rw [h2, h3] at this; cases this
  · rw [h2] at k3; cases k3
  · have := h1 k hik; rw [k2, k3] at this; cases this

theorem precedes_irrefl {v : Ident} : ¬ precedes v v := fun h => precedes_asymm h h

theorem searchDirection_eq (x : SearchState) (i : Fin 64) :
    searchDirection x i = if (i.val : Int) < x.ld then romBit x.romBuf i else decide ((i.val : Int) = x.ld) := rfl

/-- In a list in the order of R198, a device that precedes another stands before it. -/
theorem lt_of_precedes {ds : List Ident} (hp : ds.Pairwise precedes) {k m : Nat} (hk : k < ds.length)
    (hm : m < ds.length) (h : precedes ds[k] ds[m]) : k < m := by
  by_contra hc
  rcases Nat.lt_or_ge m k with hlt | hge
  · exact precedes_asymm h (List.pairwise_iff_getElem.1 hp m k hm hk hlt)
  · obtain rfl : m = k := by omega
    exact precedes_irrefl h

/-- No device stands between two neighbours of the list. -/
theorem no_device_between {ds : List Ident} (hp : ds.Pairwise precedes) {k : Nat} (hk : k + 1 < ds.length) {v : Ident}
    (hv : v ∈ ds) (h1 : precedes ds[k] v) (h2 : precedes v ds[k + 1]) : False := by
  obtain ⟨m, hm, rfl⟩ := List.getElem_of_mem hv
  have := lt_of_precedes hp (by omega) hm h1
  have := lt_of_precedes hp hm hk h2
  omega

/-- A pass from `LD` = -1 drives the bits of the first device wherever another parts from it (R193, R198). -/
theorem dir_first {w : Ident} {ws : List Ident} (hp : (w :: ws).Pairwise precedes) {x : SearchState} (hx : x.ld = -1)
    (i : Fin 64)
    (h : ∃ v ∈ w :: ws, (∀ j, j < i → identBit v j = identBit w j) ∧ identBit v i ≠ identBit w i) :
    searchDirection x i = identBit w i := by
  have hd0 : searchDirection x i = false := by
    rw [searchDirection_eq, hx, if_neg (by omega)]; simp
  rw [hd0]
  obtain ⟨v, hv, h1, h2⟩ := h
  cases hwi : identBit w i
  · rfl
  · exfalso
    have hvi : identBit v i = false := by cases h : identBit v i <;> simp_all
    rcases List.mem_cons.1 hv with rfl | hv
    · exact h2 rfl
    · exact precedes_asymm ((List.pairwise_cons.1 hp).1 v hv) ⟨i, h1, hvi, hwi⟩

/-- After the pass that found device `k`, `LD` is where device `k + 1` parts from it (R198). -/
theorem found_ld {ds : List Ident} {k : Nat} (hk : k + 1 < ds.length) (hp : ds.Pairwise precedes) {x : SearchState}
    (h : SearchFound ds ds[k] x) :
    ∃ i : Fin 64, x.ld = (i.val : Int) ∧ (∀ j, j < i → identBit ds[k] j = identBit ds[k + 1] j) ∧
      identBit ds[k] i = false ∧ identBit ds[k + 1] i = true := by
  obtain ⟨p, p1, p2, p3⟩ := List.pairwise_iff_getElem.1 hp k (k + 1) (by omega) hk (by omega)
  rcases h.2 with ⟨_, hn⟩ | ⟨i, hi, wi, ⟨v, hv, v1, v2⟩, hmax⟩
  · have := hn ds[k + 1] (List.getElem_mem _) p p2 (fun j hj => (p1 j hj).symm)
    rw [p3] at this; cases this
  · refine ⟨i, hi, ?_⟩
    have : i = p := by
      rcases lt_trichotomy i p with hlt | heq | hgt
      · have := hmax ds[k + 1] (List.getElem_mem _) p hlt p2 (fun j hj => (p1 j hj).symm)
        rw [p3] at this; cases this
      · exact heq
      · exact (no_device_between hp hk hv ⟨i, fun j hj => (v1 j hj).symm, wi, v2⟩
          ⟨p, fun j hj => (v1 j (hj.trans hgt)).trans (p1 j hj), (v1 p hgt).trans p2, p3⟩).elim
    subst this
    exact ⟨p1, p2, p3⟩

/-- After the pass that found the last device, `LD` is -1 (R196, R198). -/
theorem found_last {ds : List Ident} {k : Nat} (hk : k < ds.length) (hl : k + 1 = ds.length)
    (hp : ds.Pairwise precedes) {x : SearchState} (h : SearchFound ds ds[k] x) : x.ld = -1 := by
  rcases h.2 with ⟨h, _⟩ | ⟨i, -, wi, ⟨v, hv, v1, v2⟩, -⟩
  · exact h
  · obtain ⟨m, hm, rfl⟩ := List.getElem_of_mem hv
    have := lt_of_precedes hp hk hm ⟨i, fun j hj => (v1 j hj).symm, wi, v2⟩
    omega

/-- The pass after the one that found device `k` drives the bits of device `k + 1` wherever another parts from it. -/
theorem dir_next {ds : List Ident} {k : Nat} (hk : k + 1 < ds.length) (hp : ds.Pairwise precedes) {x : SearchState}
    (h : SearchFound ds ds[k] x) (i : Fin 64)
    (hv : ∃ v ∈ ds, (∀ j, j < i → identBit v j = identBit ds[k + 1] j) ∧ identBit v i ≠ identBit ds[k + 1] i) :
    searchDirection x i = identBit ds[k + 1] i := by
  obtain ⟨p, hl, p1, p2, p3⟩ := found_ld hk hp h
  rw [searchDirection_eq, hl]
  rcases lt_trichotomy i p with hlt | rfl | hgt
  · rw [if_pos (by exact_mod_cast hlt), h.1]; exact p1 i hlt
  · rw [if_neg (lt_irrefl _)]; simp [p3]
  · have hpi : p.val < i.val := hgt
    have hne : ¬ (i.val : Int) = p.val := by omega
    rw [if_neg (by omega)]
    simp only [hne, decide_false]
    obtain ⟨v, hv, v1, v2⟩ := hv
    cases hwi : identBit ds[k + 1] i
    · rfl
    · have hvi : identBit v i = false := by cases h : identBit v i <;> simp_all
      exact (no_device_between hp hk hv
        ⟨p, fun j hj => (p1 j hj).trans (v1 j (hj.trans hgt)).symm, p2, (v1 p hgt).trans p3⟩ ⟨i, v1, hvi, hwi⟩).elim

end Sys2Proof.Machine
end

