-- ==== Sys2Proof/Laws/Parts.lean ====
section
/-! SUPPORT. The parts of a rule, each a wait and the transfers after it, whatever the waits find: they are issued in order,
and `TO` is raised exactly where a wait times out (R109, R110, R281). -/

namespace Sys2Proof.Machine

/-- The transfers of a list of parts. -/
abbrev transfersOfParts (p : Params) (xs : List Segment) : List Transfer := xs.flatMap (Segment.transfers p)

@[simp] theorem segment_length (p : Params) (x : Segment) : (x.transfers p).length = 2 * x.polls + x.body.length := by
  simp [Segment.transfers, pollTransfers]; omega

@[simp] theorem transfersOf_append (xs ys : List Output) : transfersOf (xs ++ ys) = transfersOf xs ++ transfersOf ys := by
  simp [transfersOf]

/-! ### What a wait's polls and its time-out depend on -/

/-- `t` will get the replies that `s` gets `n` transfers later. -/
structure Later (n : Nat) (s t : State) : Prop where
  params : t.params = s.params
  reply : ∀ k, t.replyAt k = s.replyAt (n + k)

theorem Later.trans {m n : Nat} {s t u : State} (h : Later m s t) (h' : Later n t u) : Later (m + n) s u :=
  ⟨h'.params.trans h.params, fun k => by rw [h'.reply, h.reply, Nat.add_assoc]⟩

theorem Later.busyAt {n : Nat} {s t : State} (h : Later n s t) (k : Nat) : t.busyAt k ↔ s.busyAt (n + k) := by
  unfold State.busyAt; rw [h.params, h.reply]

theorem Later.waitMakes {n : Nat} {s t : State} (h : Later n s t) (k m : Nat) :
    t.waitMakes k m ↔ s.waitMakes (n + k) m := by
  simp only [State.waitMakes, h.busyAt, h.params, h.reply, Nat.add_assoc]

theorem Later.timesOutAt {n : Nat} {s t : State} (h : Later n s t) (k : Nat) : t.timesOutAt k ↔ s.timesOutAt (n + k) := by
  simp only [State.timesOutAt, h.busyAt, Nat.add_assoc]

theorem Later.waitsMake {n : Nat} {s t : State} (h : Later n s t) (k : Nat) (xs : List Segment) :
    t.waitsMake k xs ↔ s.waitsMake (n + k) xs := by
  induction xs generalizing k with
  | nil => rfl
  | cons x xs ih => simp only [State.waitsMake, h.waitMakes, ih, h.params, Nat.add_assoc]

theorem Later.someWaitTimesOut {n : Nat} {s t : State} (h : Later n s t) (k : Nat) (xs : List Segment) :
    t.someWaitTimesOut k xs ↔ s.someWaitTimesOut (n + k) xs := by
  induction xs generalizing k with
  | nil => rfl
  | cons x xs ih => simp only [State.someWaitTimesOut, h.timesOutAt, ih, h.params, Nat.add_assoc]

theorem waitsMake_append (s : State) (k : Nat) (xs ys : List Segment) : s.waitsMake k (xs ++ ys) ↔
    s.waitsMake k xs ∧ s.waitsMake (k + (transfersOfParts s.params xs).length) ys := by
  induction xs generalizing k with
  | nil => simp [State.waitsMake]
  | cons x xs ih =>
    simp only [List.cons_append, State.waitsMake, ih, List.flatMap_cons, List.length_append, and_assoc, Nat.add_assoc]

theorem someWaitTimesOut_append (s : State) (k : Nat) (xs ys : List Segment) : s.someWaitTimesOut k (xs ++ ys) ↔
    s.someWaitTimesOut k xs ∨ s.someWaitTimesOut (k + (transfersOfParts s.params xs).length) ys := by
  induction xs generalizing k with
  | nil => simp [State.someWaitTimesOut]
  | cons x xs ih =>
    simp only [List.cons_append, State.someWaitTimesOut, ih, List.flatMap_cons, List.length_append, or_assoc,
      Nat.add_assoc]

/-! ### Parts -/

/-- `t` comes from `s` by these parts: what they put on the port, which replies they took, how often they polled, and when
they raised `TO`. -/
structure Parts (xs : List Segment) (s t : State) : Prop where
  later : Later (transfersOfParts s.params xs).length s t
  port : ∃ new, t.log = s.log ++ new ∧ transfersOf new = transfersOfParts s.params xs
  polls : s.waitsMake 0 xs
  timeout : t.err.getLsbD 0 = true ↔ s.err.getLsbD 0 = true ∨ s.someWaitTimesOut 0 xs

theorem Parts.trans {xs ys : List Segment} {s t u : State} (h : Parts xs s t) (h' : Parts ys t u) :
    Parts (xs ++ ys) s u := by
  obtain ⟨n1, a1, b1⟩ := h.port
  obtain ⟨n2, a2, b2⟩ := h'.port
  have hl := h'.later
  rw [h.later.params] at hl b2
  refine ⟨?_, ⟨n1 ++ n2, by rw [a2, a1, List.append_assoc], by rw [transfersOf_append, b1, b2]; exact List.flatMap_append.symm⟩, ?_, ?_⟩
  · rw [transfersOfParts, List.flatMap_append, List.length_append]; exact h.later.trans hl
  · rw [waitsMake_append, Nat.zero_add]
    exact ⟨h.polls, (h.later.waitsMake 0 ys).1 h'.polls⟩
  · rw [h'.timeout, h.timeout, someWaitTimesOut_append, or_assoc, Nat.zero_add, h.later.someWaitTimesOut 0 ys, Nat.add_zero]

/-- What changes no transfer, reply or `TO`. -/
theorem Parts.of_same {xs : List Segment} {s t u : State} (h : Parts xs s t) (hl : Later 0 t u) (hlog : u.log = t.log)
    (he : u.err.getLsbD 0 = t.err.getLsbD 0) : Parts xs s u :=
  ⟨h.later.trans hl, hlog ▸ h.port, h.polls, by rw [he]; exact h.timeout⟩

/-- A raise of another kind. -/
theorem Parts.raiseIf {xs : List Segment} {s t : State} (h : Parts xs s t) (b : Bool) {k : ErrKind}
    (hk : k.mask.getLsbD 0 = false := by rfl) : Parts xs s (raiseIf b k t) :=
  h.of_same ⟨by simp, fun j => by rw [replyAt_raiseIf, Nat.zero_add]⟩ (by simp) (by
    cases b
    · rfl
    · rw [raiseIf_true, raiseErr_err, BitVec.getLsbD_or, hk, Bool.or_false])

theorem parts_nil (s : State) : Parts [] s s :=
  ⟨⟨rfl, fun k => by simp⟩, ⟨[], by simp, rfl⟩, trivial, by simp [State.someWaitTimesOut]⟩

/-! ### A wait and what follows it -/

theorem transfersOf_transact (b : List Transfer) (s : State) :
    ∃ new, (transact b s).log = s.log ++ new ∧ transfersOf new = b := by
  induction b generalizing s with
  | nil => exact ⟨[], by simp, rfl⟩
  | cons x b ih =>
    obtain ⟨o, h1, -, h3, h4⟩ := transfer_port s x
    obtain ⟨new, e1, e2⟩ := ih (transfer s x)
    refine ⟨o :: new, by rw [transact_cons, e1, h1]; simp, ?_⟩
    cases x with
    | rd => rw [h3 rfl]; simp only [transfersOf, List.filterMap_cons] at e2 ⊢; rw [e2]
    | wr bytes =>
      obtain ⟨n, hn⟩ := h4 bytes rfl
      rw [hn]; simp only [transfersOf, List.filterMap_cons] at e2 ⊢; rw [e2]

theorem memWrite_flag (bytes : List Byte) (s : State) : (memWrite bytes s).err.getLsbD 0 = s.err.getLsbD 0 := by
  unfold memWrite raiseIf
  dsimp only
  split <;> simp [ErrKind.mask, ErrKind.code]

theorem memRead_flag (s : State) : (memRead s).2.err.getLsbD 0 = s.err.getLsbD 0 := by
  unfold memRead raiseIf
  dsimp only
  split <;> simp [ErrKind.mask, ErrKind.code]

/-- Transfers raise no `TO` (R54). -/
theorem transact_flag (b : List Transfer) (s : State) : (transact b s).err.getLsbD 0 = s.err.getLsbD 0 := by
  induction b generalizing s with
  | nil => rfl
  | cons x b ih =>
    rw [transact_cons, ih]
    cases x with
    | wr bytes => exact memWrite_flag bytes s
    | rd => exact memRead_flag s

theorem later_transact (b : List Transfer) (s : State) : Later b.length s (transact b s) :=
  ⟨by simp, fun k => replyAt_transact b s k⟩

/-- Busy polls put their transfers on the port, and delays (R109). -/
theorem busyPolls_transfers (k : Nat) (s : State) : ∃ new, (busyPolls k s).log = s.log ++ new ∧
    transfersOf new = (List.replicate k (pollTransfers s.params s.params.ptrStatus)).flatten := by
  induction k generalizing s with
  | zero => exact ⟨[], by simp [busyPolls], rfl⟩
  | succ k ih =>
    obtain ⟨n1, h1, h2⟩ := transfersOf_transact (pollTransfers s.params s.params.ptrStatus) s
    obtain ⟨n2, e1, e2⟩ := ih (busyPoll s)
    refine ⟨n1 ++ [.delay Config.pollDelayUs] ++ n2, ?_, ?_⟩
    · rw [busyPolls, e1, busyPoll_eq, delay_eq, emit_log, h1]; simp
    · rw [transfersOf_append, transfersOf_append, h2, e2, busyPoll_params, List.replicate_succ, List.flatten_cons]
      simp [transfersOf]

/-- The state after `k` busy polls and one more poll. -/
def polled (k : Nat) (s : State) : State := transact (pollTransfers s.params s.params.ptrStatus) (busyPolls k s)

theorem polled_later (k : Nat) (s : State) : Later (2 * k + 2) s (polled k s) :=
  Later.trans (t := busyPolls k s) ⟨busyPolls_params k s, busyPolls_replyAt k s⟩
    (later_transact (pollTransfers s.params s.params.ptrStatus) _)

/-- How a wait ends: after `k` busy polls, at a poll that shows not busy, or with `TO` at the last allowed poll (R110). -/
theorem pollLoop_cases (more : Nat) (s : State) : ∃ k, k ≤ more ∧ (∀ j, j < k → s.busyAt (2 * j + 1)) ∧
    (pollLoop more s).1 = (s.replyAt (2 * k + 1)).byte ∧
    ((statusBusy s.params (s.replyAt (2 * k + 1)).byte = false ∧ (pollLoop more s).2 = polled k s) ∨
      (k = more ∧ s.busyAt (2 * k + 1) ∧ (pollLoop more s).2 = raiseErr .timeout (polled k s))) := by
  cases h0 : statusBusy s.params (s.replyAt 1).byte with
  | false => exact ⟨0, Nat.zero_le _, by simp, by rw [pollLoop_idle h0], .inl ⟨h0, by rw [pollLoop_idle h0]; rfl⟩⟩
  | true =>
    induction more generalizing s with
    | zero => exact ⟨0, le_refl _, by simp, by rw [pollLoop_last h0], .inr ⟨rfl, h0, by rw [pollLoop_last h0]; rfl⟩⟩
    | succ more ih =>
      have hrep : ∀ k, (busyPoll s).replyAt (2 * k + 1) = s.replyAt (2 * (k + 1) + 1) := fun k => by
        rw [busyPoll_replyAt]; congr 1; omega
      have hpol : ∀ k, polled k (busyPoll s) = polled (k + 1) s := fun k => by
        unfold polled; rw [busyPoll_params]; rfl
      obtain ⟨k, hk, hb, hv, hend⟩ : ∃ k, k ≤ more ∧ (∀ j, j < k → (busyPoll s).busyAt (2 * j + 1)) ∧
          (pollLoop more (busyPoll s)).1 = ((busyPoll s).replyAt (2 * k + 1)).byte ∧
          ((statusBusy (busyPoll s).params ((busyPoll s).replyAt (2 * k + 1)).byte = false ∧
              (pollLoop more (busyPoll s)).2 = polled k (busyPoll s)) ∨
            (k = more ∧ (busyPoll s).busyAt (2 * k + 1) ∧
              (pollLoop more (busyPoll s)).2 = raiseErr .timeout (polled k (busyPoll s)))) := by
        cases h1 : statusBusy (busyPoll s).params ((busyPoll s).replyAt 1).byte with
        | false =>
          exact ⟨0, Nat.zero_le _, by simp, by rw [pollLoop_idle h1], .inl ⟨h1, by rw [pollLoop_idle h1]; rfl⟩⟩
        | true => exact ih _ h1
      simp only [State.busyAt, hrep, hpol, busyPoll_params] at hb hv hend
      rw [pollLoop_busy h0]
      refine ⟨k + 1, by omega, fun j hj => ?_, hv, ?_⟩
      · cases j with
        | zero => exact h0
        | succ j => exact hb j (by omega)
      · rcases hend with h | ⟨h, h'⟩
        · exact .inl h
        · exact .inr ⟨by omega, h'⟩

/-- A wait, and the transfers `b` after it: one part. The wait answers the status of its last poll. -/
theorem parts_wait (s : State) : ∃ n, (waitOnBusy s).1 = (s.replyAt (2 * (n - 1) + 1)).byte ∧
    ∀ b, Parts [⟨n, b⟩] s (transact b (waitOnBusy s).2) := by
  obtain ⟨k, hk, hb, hv, hend⟩ := pollLoop_cases (Config.pollLimit - 1) s
  rw [show Config.pollLimit - 1 = 999 from rfl] at hk hend
  refine ⟨k + 1, hv, fun b => ?_⟩
  have hlen : ∀ (p : Params), (transfersOfParts p [⟨k + 1, b⟩]).length = 2 * k + 2 + b.length := fun p => by
    simp only [transfersOfParts, List.flatMap_cons, List.flatMap_nil, List.append_nil, segment_length]; omega
  obtain ⟨n1, a1, b1⟩ := busyPolls_transfers k s
  obtain ⟨n2, a2, b2⟩ := transfersOf_transact (pollTransfers s.params s.params.ptrStatus) (busyPolls k s)
  obtain ⟨n3, a3, b3⟩ := transfersOf_transact b (waitOnBusy s).2
  have hflag : (polled k s).err.getLsbD 0 = s.err.getLsbD 0 := by
    rw [polled, transact_flag]; exact (ran_busyPolls k s).flag 0 rfl
  have hto : s.timesOutAt 0 ↔ k = 999 ∧ s.busyAt (2 * k + 1) := by
    simp only [State.timesOutAt, Nat.zero_add]
    constructor
    · intro h
      rcases hend with ⟨hi, -⟩ | ⟨h9, hb', -⟩
      · have := h k (by omega)
        unfold State.busyAt at this
        rw [hi] at this; cases this
      · exact ⟨h9, hb'⟩
    · rintro ⟨rfl, h⟩ j hj
      rcases Nat.lt_or_ge j 999 with hj' | hj'
      · exact hb j hj'
      · obtain rfl : j = 999 := by omega
        exact h
  have hw : Later (2 * k + 2) s (waitOnBusy s).2 ∧
      (waitOnBusy s).2.log = (polled k s).log ∧
      ((waitOnBusy s).2.err.getLsbD 0 = true ↔ s.err.getLsbD 0 = true ∨ s.timesOutAt 0) := by
    have hl := polled_later k s
    rcases hend with ⟨hi, e⟩ | ⟨h9, hb', e⟩
    · have hno : ¬ s.timesOutAt 0 := by
        rw [hto]; rintro ⟨-, h⟩; unfold State.busyAt at h; rw [hi] at h; cases h
      rw [show (waitOnBusy s).2 = polled k s from e, hflag]
      exact ⟨hl, rfl, by simp [hno]⟩
    · rw [show (waitOnBusy s).2 = raiseErr .timeout (polled k s) from e]
      refine ⟨⟨hl.params, hl.reply⟩, rfl, iff_of_true ?_ (.inr (hto.2 ⟨h9, hb'⟩))⟩
      rw [raiseErr_err, BitVec.getLsbD_or, show ErrKind.timeout.mask.getLsbD 0 = true from rfl, Bool.or_true]
  obtain ⟨w1, w2, w3⟩ := hw
  refine ⟨?_, ⟨n1 ++ n2 ++ n3, ?_, ?_⟩, ?_, ?_⟩
  · rw [hlen]; exact w1.trans (later_transact b _)
  · rw [a3, w2, polled, a2, a1]; simp
  · rw [transfersOf_append, transfersOf_append, b1, b2, b3]
    simp [Segment.transfers, List.replicate_succ']
  · refine ⟨⟨by simp, by simp; omega, fun j hj => ?_, fun hlt => ?_⟩, trivial⟩
    · rw [Nat.zero_add]; exact hb j (by simpa using hj)
    · rcases hend with ⟨hi, -⟩ | ⟨h9, -, -⟩
      · simpa using hi
      · simp [h9] at hlt
  · rw [transact_flag, w3]; simp [State.someWaitTimesOut]

/-! ### The parts of each subroutine -/

/-- The bytes read among the transfers after a wait. -/
theorem Parts.replyAt {xs : List Segment} {s t : State} (h : Parts xs s t) (k : Nat) :
    t.replyAt k = s.replyAt ((transfersOfParts s.params xs).length + k) := h.later.reply k

theorem issues_of_parts {i : Instr} {s u : State} {v : Byte} {xs : List Segment} (e : exec i s = .next (finish v u))
    (h : Parts xs s u) : issues i s v xs := by
  obtain ⟨new, a, b⟩ := h.port
  exact ⟨_, new, e, by simp, by simp [a], b, h.polls, by simpa using h.timeout⟩

theorem replyAt_wait {s : State} {n : Nat} (h : Parts [⟨n, []⟩] s (waitOnBusy s).2) (k : Nat) :
    (waitOnBusy s).2.replyAt k = s.replyAt (2 * n + k) := by
  rw [h.replyAt]; simp

@[simp] theorem waitOnBusy_params (s : State) : (waitOnBusy s).2.params = s.params := (ran_waitOnBusy s).params

/-- `writeConfig` and the transfers after it: one part (R108). -/
theorem parts_writeConfig (cfg : Nibble) (b : List Transfer) (s : State) : ∃ n,
    (writeConfig cfg s).1 = ((s.replyAt (2 * n + 1)).byte == configReadback cfg) ∧
    Parts [⟨n, [.wr [s.params.cmdWcfg, configByte cfg], .rd] ++ b⟩] s (transact b (writeConfig cfg s).2) := by
  obtain ⟨n, -, h⟩ := parts_wait s
  have e : writeConfig cfg s = ((s.replyAt (2 * n + 1)).byte == configReadback cfg,
      raiseIf ((s.replyAt (2 * n + 1)).byte != configReadback cfg) .configMismatch
        (transact [.wr [s.params.cmdWcfg, configByte cfg], .rd] (waitOnBusy s).2)) := by
    unfold writeConfig
    simp only [readByte_eq, writeByte2, replyAt_memWrite, replyAt_wait (h []), waitOnBusy_params]
    rfl
  refine ⟨n, by rw [e], ?_⟩
  rw [e]
  simp only [transact_raiseIf, ← transact_append]
  exact (h _).raiseIf _

/-- A wait, the pullup change to `f` of the configuration read, and the transfers after it: two parts (R141, R142). -/
theorem parts_spu (g : State → State) (f : Nibble → Nibble)
    (hg : ∀ s, g s = (writeConfig (f (configNibble (readConfig s).1)) (readConfig s).2).2) (b : List Transfer) (s : State) :
    ∃ n m, let cfg := f (configNibble (s.replyAt (2 * n + 1)).byte)
      Parts [⟨n, pollTransfers s.params s.params.ptrConfig⟩, ⟨m, [.wr [s.params.cmdWcfg, configByte cfg], .rd] ++ b⟩] s
        (transact b (g (waitOnBusy s).2)) := by
  obtain ⟨n, -, h⟩ := parts_wait s
  have h1 := h (pollTransfers s.params s.params.ptrConfig)
  have hr : (readConfig (waitOnBusy s).2) = ((s.replyAt (2 * n + 1)).byte,
      transact (pollTransfers s.params s.params.ptrConfig) (waitOnBusy s).2) := by
    rw [readConfig_eq, replyAt_wait (h []), waitOnBusy_params]
  obtain ⟨m, -, h2⟩ := parts_writeConfig (f (configNibble (s.replyAt (2 * n + 1)).byte)) b
    (transact (pollTransfers s.params s.params.ptrConfig) (waitOnBusy s).2)
  refine ⟨n, m, ?_⟩
  rw [hg, hr]
  rw [h1.later.params] at h2
  exact h1.trans h2

theorem parts_spuEngage (b : List Transfer) (s : State) : ∃ n m,
    let cfg := configNibble (s.replyAt (2 * n + 1)).byte ||| s.params.spuMask
    Parts [⟨n, pollTransfers s.params s.params.ptrConfig⟩, ⟨m, [.wr [s.params.cmdWcfg, configByte cfg], .rd] ++ b⟩] s
      (transact b (spuEngage (waitOnBusy s).2)) := by
  refine parts_spu (fun t => (writeConfig (configNibble (readConfig t).1 ||| s.params.spuMask) (readConfig t).2).2)
    (fun c => c ||| s.params.spuMask) (fun _ => rfl) b s |>.imp fun n => Exists.imp fun m h => ?_
  have : spuEngage (waitOnBusy s).2 = (writeConfig (configNibble (readConfig (waitOnBusy s).2).1 ||| s.params.spuMask)
    (readConfig (waitOnBusy s).2).2).2 := by unfold spuEngage; simp
  rw [this]; exact h

theorem parts_spuClear (b : List Transfer) (s : State) : ∃ n m,
    let cfg := configNibble (s.replyAt (2 * n + 1)).byte &&& ~~~s.params.spuMask
    Parts [⟨n, pollTransfers s.params s.params.ptrConfig⟩, ⟨m, [.wr [s.params.cmdWcfg, configByte cfg], .rd] ++ b⟩] s
      (transact b (spuClear (waitOnBusy s).2)) := by
  refine parts_spu (fun t => (writeConfig (configNibble (readConfig t).1 &&& ~~~s.params.spuMask) (readConfig t).2).2)
    (fun c => c &&& ~~~s.params.spuMask) (fun _ => rfl) b s |>.imp fun n => Exists.imp fun m h => ?_
  have : spuClear (waitOnBusy s).2 = (writeConfig (configNibble (readConfig (waitOnBusy s).2).1 &&& ~~~s.params.spuMask)
    (readConfig (waitOnBusy s).2).2).2 := by unfold spuClear; simp
  rw [this]; exact h

theorem parts_wireWriteByte (b : Byte) (s : State) : ∃ n,
    Parts [⟨n, [.wr [s.params.cmd1wwb, b]]⟩] s (wireWriteByte b false s) := by
  obtain ⟨n, -, h⟩ := parts_wait s
  refine ⟨n, ?_⟩
  unfold wireWriteByte
  simp only [spuEngageIf, Bool.false_eq_true, if_false, writeByte2, waitOnBusy_params, transact_wr]
  exact h _

theorem parts_wireWriteBit (v : Bool) (b : List Transfer) (s : State) : ∃ n,
    Parts [⟨n, .wr [s.params.cmd1wsb, bitOperand s.params v] :: b⟩] s (transact b (wireWriteBit v false s)) := by
  obtain ⟨n, -, h⟩ := parts_wait s
  refine ⟨n, ?_⟩
  unfold wireWriteBit
  simp only [spuEngageIf, Bool.false_eq_true, if_false, writeByte2, waitOnBusy_params]
  exact h (.wr [s.params.cmd1wsb, bitOperand s.params v] :: b)

/-- A wait, a command and a second wait: two parts. The second wait answers the status of its last poll (R151, R159). -/
theorem parts_command (command : List Byte) (b : List Transfer) (s : State) : ∃ n m,
    let w := waitOnBusy (memWrite command (waitOnBusy s).2)
    1 ≤ m ∧ w.1 = (s.replyAt (2 * (n + m))).byte ∧ (∀ k, w.2.replyAt k = s.replyAt (2 * (n + m) + 1 + k)) ∧
      Parts [⟨n, [.wr command]⟩, ⟨m, b⟩] s (transact b w.2) := by
  obtain ⟨n, -, h⟩ := parts_wait s
  have h1 : Parts [⟨n, [.wr command]⟩] s (memWrite command (waitOnBusy s).2) := h _
  obtain ⟨m, hv, h2⟩ := parts_wait (memWrite command (waitOnBusy s).2)
  have hm : 1 ≤ m := (h2 []).polls.1.1
  refine ⟨n, m, hm, ?_, fun k => ?_, h1.trans (h2 b)⟩
  · rw [hv, h1.replyAt]; simp; congr 2; omega
  · rw [replyAt_wait (h2 []), h1.replyAt]; simp; congr 1; omega

theorem parts_sendAddr (ks : List (Fin 8)) (s : State) : ∃ xs : List Segment,
    xs.map Segment.body = ks.map (fun k => [.wr [s.params.cmd1wwb, s.addrByte k]]) ∧ Parts xs s (sendAddr ks s) := by
  induction ks generalizing s with
  | nil => exact ⟨[], rfl, parts_nil s⟩
  | cons k ks ih =>
    obtain ⟨n, h⟩ := parts_wireWriteByte (s.addrByte k) s
    obtain ⟨xs, e, h'⟩ := ih (wireWriteByte (s.addrByte k) false s)
    refine ⟨⟨n, [.wr [s.params.cmd1wwb, s.addrByte k]]⟩ :: xs, ?_, h.trans h'⟩
    have ha : ∀ j, (wireWriteByte (s.addrByte k) false s).addrByte j = s.addrByte j := fun j => by
      unfold State.addrByte; rw [(same_wireWriteByte _ _ s).addr]
    rw [List.map_cons, List.map_cons, e, h.later.params]
    simp only [ha]

theorem parts_wireReadByte (s : State) : ∃ n m, (wireReadByte s).1 = (s.replyAt (2 * (n + m) + 2)).byte ∧
    Parts [⟨n, [.wr [s.params.cmd1wrb]]⟩, ⟨m, [.wr [s.params.cmdSrp, s.params.ptrData], .rd]⟩] s (wireReadByte s).2 := by
  obtain ⟨n, m, -, -, hr, h⟩ := parts_command [s.params.cmd1wrb] [.wr [s.params.cmdSrp, s.params.ptrData], .rd] s
  have e : wireReadByte s = readData (waitOnBusy (memWrite [s.params.cmd1wrb] (waitOnBusy s).2)).2 := by
    unfold wireReadByte; simp [writeByte]
  refine ⟨n, m, ?_, ?_⟩
  · rw [e, readData_eq, hr]
  · rw [e, readData_eq]
    simpa [pollTransfers] using h

theorem parts_readFrame (ks : List (Fin 9)) (s : State) : ∃ xs : List Segment,
    xs.map Segment.body = (List.replicate ks.length
      [[.wr [s.params.cmd1wrb]], [.wr [s.params.cmdSrp, s.params.ptrData], .rd]]).flatten ∧
    Parts xs s (ks.foldl readFrameByte s) := by
  induction ks generalizing s with
  | nil => exact ⟨[], rfl, parts_nil s⟩
  | cons k ks ih =>
    obtain ⟨n, m, -, h⟩ := parts_wireReadByte s
    have h : Parts _ s (readFrameByte s k) := h.of_same ⟨rfl, fun j => by rw [Nat.zero_add]; rfl⟩ rfl rfl
    obtain ⟨xs, e, h'⟩ := ih (readFrameByte s k)
    refine ⟨_, ?_, h.trans h'⟩
    rw [List.map_append, e, h.later.params]
    simp [List.replicate_succ]

end Sys2Proof.Machine
end

