-- ==== Sys2Proof/Laws/PerInstr.lean ====
section
/-! SUPPORT. One lemma per constructor of Instr: its word carries the fixed bits of its row in spec/opcode_table.json
(R82 point 2, R86). -/

namespace Sys2Proof.Laws.RowMatch

/-- The request's word matches the request's row. -/
def Statement (i : Instr) : Prop := encode i &&& i.row.1 = i.row.2

/-- A word matches a row when it does bit by bit. -/
theorem of_bits {f : Fields} {mask value : Request}
    (h : ∀ i, i < 32 → ((pack f).getLsbD i && mask.getLsbD i) = value.getLsbD i) : pack f &&& mask = value :=
  BitVec.eq_of_getLsbD_eq fun i hi => by rw [BitVec.getLsbD_and]; exact h i hi

theorem brWb (imm : Byte) : Statement (.brWb imm) := by
  refine of_bits fun i hi => ?_
  rw [getLsbD_pack]
  interval_cases i <;> simp [encodeFields, Fields.bare, Instr.row]

theorem brWb2 (imm imm2 : Byte) : Statement (.brWb2 imm imm2) := by
  refine of_bits fun i hi => ?_
  rw [getLsbD_pack]
  interval_cases i <;> simp [encodeFields, Fields.bare, Instr.row]

theorem brRb : Statement (.brRb) := rfl

theorem brSrp (imm : Byte) : Statement (.brSrp imm) := by
  refine of_bits fun i hi => ?_
  rw [getLsbD_pack]
  interval_cases i <;> simp [encodeFields, Fields.bare, Instr.row]

theorem brRstat : Statement (.brRstat) := rfl

theorem brRdata : Statement (.brRdata) := rfl

theorem brRcfg : Statement (.brRcfg) := rfl

theorem brWcfg (cfg : Nibble) : Statement (.brWcfg cfg) := by revert cfg; unfold Statement; decide

theorem brWait : Statement (.brWait) := rfl

theorem owReset : Statement (.owReset) := rfl

theorem owWb (imm : Byte) (p : Bool) : Statement (.owWb imm p) := by
  refine of_bits fun i hi => ?_
  rw [getLsbD_pack]
  interval_cases i <;> simp [encodeFields, Fields.bare, Instr.row]

theorem owRb : Statement (.owRb) := rfl

theorem owWbit (bit p : Bool) : Statement (.owWbit bit p) := by revert bit p; unfold Statement; decide

theorem owRbit : Statement (.owRbit) := rfl

theorem owSkip : Statement (.owSkip) := rfl

theorem owSelect : Statement (.owSelect) := rfl

theorem owChan (c : Fin 8) : Statement (.owChan c) := by revert c; unfold Statement; decide

theorem owTrip (dir : Bool) : Statement (.owTrip dir) := by revert dir; unfold Statement; decide

theorem owRframe : Statement (.owRframe) := rfl

theorem owPullup (on : Bool) : Statement (.owPullup on) := by revert on; unfold Statement; decide

theorem srReset (c : Fin 8) : Statement (.srReset c) := by revert c; unfold Statement; decide

theorem srNext (c : Fin 8) : Statement (.srNext c) := by revert c; unfold Statement; decide

theorem srAll (c : Fin 8) : Statement (.srAll c) := by revert c; unfold Statement; decide

theorem srState (c : Fin 8) : Statement (.srState c) := by revert c; unfold Statement; decide

theorem srRomb (c k : Fin 8) : Statement (.srRomb c k) := by revert c k; unfold Statement; decide

theorem crcStep (imm imm2 : Byte) : Statement (.crcStep imm imm2) := by
  refine of_bits fun i hi => ?_
  rw [getLsbD_pack]
  interval_cases i <;> simp [encodeFields, Fields.bare, Instr.row]

theorem crcAddr (n : Fin 9) : Statement (.crcAddr n) := by revert n; unfold Statement; decide

theorem crcFrame (n : Fin 10) : Statement (.crcFrame n) := by revert n; unfold Statement; decide

theorem crcChkaddr : Statement (.crcChkaddr) := rfl

theorem crcChkframe : Statement (.crcChkframe) := rfl

theorem errRd : Statement (.errRd) := rfl

theorem errClr (m : BitVec 7) : Statement (.errClr m) := by revert m; unfold Statement; decide

theorem addrSetb (k : Fin 8) (imm : Byte) : Statement (.addrSetb k imm) := by
  refine of_bits fun i hi => ?_
  rw [getLsbD_pack]
  interval_cases i <;> simp [encodeFields, Fields.bare, Instr.row]
  revert k; decide

theorem addrGetb (k : Fin 8) : Statement (.addrGetb k) := by revert k; unfold Statement; decide

theorem frameSetb (k : Fin 9) (imm : Byte) : Statement (.frameSetb k imm) := by
  refine of_bits fun i hi => ?_
  rw [getLsbD_pack]
  interval_cases i <;> simp [encodeFields, Fields.bare, Instr.row]

theorem frameGetb (k : Fin 9) : Statement (.frameGetb k) := by revert k; unfold Statement; decide

end Sys2Proof.Laws.RowMatch
end

