-- ==== Sys2Proof/Laws/Port.lean ====
section
/-! SUPPORT. What one step, no reset intervening, can put on the ports, and what a reset keeps of it. -/

namespace Sys2Proof.Machine

theorem exec_next (i : Instr) (s : State) : ∃ t, exec i s = .next t := by cases i <;> exact ⟨_, rfl⟩

/-- What a request, or a turn of `SR.ALL`, leaves alone and what it puts on the ports: transfers and delays, and then at
most one event or response. -/
structure Served (s t : State) : Prop where
  requests : t.requests = s.requests
  resetIn : t.resetIn = s.resetIn
  params : t.params = s.params
  port : ∃ new tail, t.log = s.log ++ new ++ tail ∧ (∀ o ∈ new, o.upstream s.params.bridgeAddr = true) ∧
    tail.length ≤ 1 ∧ ∀ o ∈ tail, o.final = true

theorem served_finish {f : Byte} {lo hi : Nat} {s u : State} (h : Ran f lo hi s u) (v : Byte) :
    Served s (finish v u) := by
  obtain ⟨new, h1, h2, -⟩ := h.port
  exact ⟨h.requests, h.resetIn, h.params, new, [.response .ok v], by simp [h1], h2, by simp, by simp [Output.final]⟩

theorem served_searchAllPass (c : Fin 8) (n : Nat) (s : State) : Served s (searchAllPass c n s) := by
  obtain ⟨u, h, -, h1, h2, h3, -, -, tail, h4, h5, h6⟩ := searchAllPass_ran c n s
  obtain ⟨new, e1, e2, -⟩ := h.port
  exact ⟨h1, h2, h3, new, tail, by rw [h4, e1], e2, h5, h6⟩

theorem served_exec (i : Instr) {s t : State} (e : exec i s = .next t) : Served s t := by
  by_cases ha : ∃ c, i = .srAll c
  · obtain ⟨c, rfl⟩ := ha
    cases e
    have h := served_searchAllPass c 0 (wireResetSearch c s)
    exact ⟨h.requests, h.resetIn, h.params, h.port⟩
  · by_cases hm : ∃ m, i = .errClr m
    · obtain ⟨m, rfl⟩ := hm
      cases e
      exact ⟨rfl, rfl, rfl, [], [.response .ok _], by rw [List.append_nil]; rfl, by simp, by simp, by simp [Output.final]⟩
    · obtain ⟨v, u, e', h⟩ := exec_ran i s (fun c h => ha ⟨c, h⟩) (fun m h => hm ⟨m, h⟩)
      rw [e'] at e; cases e
      exact served_finish h v

/-- One step of an undisturbed controller (R64). -/
theorem advance_served {s t : State} (h : advance s = .next t) :
    t.resetIn = s.resetIn ∧ t.params = s.params ∧
      ∃ new tail, t.log = s.log ++ new ++ tail ∧ (∀ o ∈ new, o.upstream s.params.bridgeAddr = true) ∧
        tail.length ≤ 1 ∧ ∀ o ∈ tail, o.final = true := by
  unfold advance at h
  split at h
  · next a _ =>
    cases h
    have h := served_searchAllPass a.chan a.found s
    exact ⟨h.resetIn, h.params, h.port⟩
  · split at h
    · unfold serve at h
      split at h
      · have h := served_exec _ h
        exact ⟨h.resetIn, h.params, h.port⟩
      · cases h
        exact ⟨rfl, rfl, [], [.response .illegal _], by rw [List.append_nil]; rfl, by simp, by simp, by simp [Output.final]⟩
    · cases h
      exact ⟨rfl, rfl, [], [], by simp, by simp, by simp, by simp⟩

theorem advance_next (s : State) : ∃ t, advance s = .next t := by
  unfold advance
  split
  · exact ⟨_, rfl⟩
  · split
    · unfold serve
      split
      · exact exec_next _ _
      · exact ⟨_, rfl⟩
    · exact ⟨_, rfl⟩

/-! ### What a reset keeps (R311) -/

theorem mem_cutAfter {k : Nat} {os : List Output} {o : Output} (h : o ∈ cutAfter k os) :
    o ∈ os ∧ (o.isTransfer = true ∨ ∃ us, o = .delay us) := by
  induction os generalizing k with
  | nil => cases k <;> simp [cutAfter] at h
  | cons p os ih =>
    cases k with
    | zero => simp [cutAfter] at h
    | succ k =>
      cases p <;> simp only [cutAfter, Output.isTransfer, if_true, Bool.false_eq_true, if_false, List.mem_cons] at h ⊢
      all_goals grind [Output.isTransfer]

theorem filter_cutAfter (k : Nat) (os : List Output) :
    (cutAfter k os).filter Output.isTransfer = (os.filter Output.isTransfer).take k := by
  induction os generalizing k with
  | nil => cases k <;> simp [cutAfter]
  | cons p os ih =>
    cases k with
    | zero => simp [cutAfter]
    | succ k => cases p <;> simp [cutAfter, Output.isTransfer, List.filter_cons, ih]

theorem eventsIn_reset (os : List Output) : eventsIn (os ++ [.reset]) = [] := by
  induction os with
  | nil => rfl
  | cons o os ih => cases o <;> simp [eventsIn, ih]

/-- A run of `k + 1` steps is one step and a run of `k`. -/
theorem run_next {M : Host.Core} (k : Nat) {s t : M.State} (h : M.step s = .next t) : M.run (k + 1) s = M.run k t := by
  rw [Host.Core.run, h]

/-- A run of one step is that step. -/
theorem run_one {M : Host.Core} {s u : M.State} (h : M.run 1 s = .next u) : M.step s = .next u := by
  unfold Host.Core.run at h
  split at h <;> rename_i t ht
  · rw [ht]; exact h
  · cases h
  · cases h

end Sys2Proof.Machine
end

