-- ==== Sys2Proof/Tests/Slice0.lean ====
section
/-! SUPPORT. Tests: ill-formed requests, words written out from spec/30_encoding.md, one-step vectors of
spec/95_test_vectors.md, and for each statement with hypotheses a state and operands that meet them. -/

namespace Sys2Proof.Tests

open Sys2Proof Sys2Proof.Machine

/-! ### Well-formed requests (R81, R82): each check refuses an ill-formed term -/

theorem test_wf_owChan_needs_eight_channels : (Instr.owChan 0).wf 1 = false ∧ (Instr.owChan 7).wf 8 = true := by decide
theorem test_wf_srReset_channel : (Instr.srReset 1).wf 1 = false ∧ (Instr.srReset 0).wf 1 = true := by decide
theorem test_wf_srNext_channel : (Instr.srNext 7).wf 1 = false ∧ (Instr.srNext 7).wf 8 = true := by decide
theorem test_wf_srAll_channel : (Instr.srAll 2).wf 1 = false ∧ (Instr.srAll 2).wf 8 = true := by decide
theorem test_wf_srState_channel : (Instr.srState 1).wf 1 = false ∧ (Instr.srState 1).wf 8 = true := by decide
theorem test_wf_srRomb_channel : (Instr.srRomb 1 0).wf 1 = false ∧ (Instr.srRomb 0 7).wf 1 = true := by decide

/-! ### Words written out from R80 and R86 (spec/95_test_vectors.md sections 2, 7, 8 and 9) -/

theorem test_word_brWb : decodeTableWord 32 0x0000F001 = some (.brWb 0xF0#8) := by decide
theorem test_word_brWb2 : decodeTableWord 32 0xF000E102 = some (.brWb2 0xE1#8 0xF0#8) := by decide
theorem test_word_brRb : decodeTableWord 32 0x00000003 = some .brRb := by decide
theorem test_word_brSrp : decodeTableWord 32 0x0000C304 = some (.brSrp 0xC3#8) := by decide
theorem test_word_brRstat : decodeTableWord 32 0x00000005 = some .brRstat := by decide
theorem test_word_brRdata : decodeTableWord 32 0x00000006 = some .brRdata := by decide
theorem test_word_brRcfg : decodeTableWord 32 0x00000007 = some .brRcfg := by decide
theorem test_word_brWcfg : decodeTableWord 32 0x00000F08 = some (.brWcfg 0xF#4) := by decide
theorem test_word_brWait : decodeTableWord 32 0x00000009 = some .brWait := by decide
theorem test_word_owReset : decodeTableWord 32 0x00000010 = some .owReset := by decide
theorem test_word_owWb : decodeTableWord 32 0x0000CC11 = some (.owWb 0xCC#8 false) := by decide
theorem test_word_owWb_power : decodeTableWord 32 0x00104411 = some (.owWb 0x44#8 true) := by decide
theorem test_word_owRb : decodeTableWord 32 0x00000012 = some .owRb := by decide
theorem test_word_owWbit : decodeTableWord 32 0x00000013 = some (.owWbit false false) := by decide
theorem test_word_owWbit_power : decodeTableWord 32 0x00100113 = some (.owWbit true true) := by decide
theorem test_word_owRbit : decodeTableWord 32 0x00000014 = some .owRbit := by decide
theorem test_word_owSkip : decodeTableWord 32 0x00000015 = some .owSkip := by decide
theorem test_word_owSelect : decodeTableWord 32 0x00000016 = some .owSelect := by decide
theorem test_word_owChan : decodeTableWord 32 0x00070017 = some (.owChan 7) := by decide
theorem test_word_owTrip : decodeTableWord 32 0x00000118 = some (.owTrip true) := by decide
theorem test_word_owRframe : decodeTableWord 32 0x00000019 = some .owRframe := by decide
theorem test_word_owPullup : decodeTableWord 32 0x0000011A = some (.owPullup true) := by decide
theorem test_word_srReset : decodeTableWord 32 0x00030020 = some (.srReset 3) := by decide
theorem test_word_srNext : decodeTableWord 32 0x00030021 = some (.srNext 3) := by decide
theorem test_word_srAll : decodeTableWord 32 0x00030022 = some (.srAll 3) := by decide
theorem test_word_srState : decodeTableWord 32 0x00030023 = some (.srState 3) := by decide
theorem test_word_srRomb : decodeTableWord 32 0x00000524 = some (.srRomb 0 5) := by decide
theorem test_word_crcStep : decodeTableWord 32 0xBC001C30 = some (.crcStep 0x1C#8 0xBC#8) := by decide
theorem test_word_crcAddr : decodeTableWord 32 0x00080031 = some (.crcAddr 8) := by decide
theorem test_word_crcFrame : decodeTableWord 32 0x00090032 = some (.crcFrame 9) := by decide
theorem test_word_crcChkaddr : decodeTableWord 32 0x00000033 = some .crcChkaddr := by decide
theorem test_word_crcChkframe : decodeTableWord 32 0x00000034 = some .crcChkframe := by decide
theorem test_word_errRd : decodeTableWord 32 0x00000038 = some .errRd := by decide
theorem test_word_errClr : decodeTableWord 32 0x00007F39 = some (.errClr 0x7F#7) := by decide
theorem test_word_addrSetb : decodeTableWord 32 0x0007A23A = some (.addrSetb 7 0xA2#8) := by decide
theorem test_word_addrGetb : decodeTableWord 32 0x0001003B = some (.addrGetb 1) := by decide
theorem test_word_frameSetb : decodeTableWord 32 0x00081C3C = some (.frameSetb 8 0x1C#8) := by decide
theorem test_word_frameGetb : decodeTableWord 32 0x0008003D = some (.frameGetb 8) := by decide

/-- The ILLEGAL vectors E-13 to E-19 and E-23 to E-30. -/
theorem test_illegal_words :
    [0x00000000, 0x0000000A, 0x0000003E, 0x01000003, 0x00200010, 0x00100012, 0x00080017, 0x00090031, 0x000A0032,
      0x0009553C, 0x00001008, 0x00008039, 0x00000218, 0x00000824, 0x0008003B].map (decodeTableWord 32) =
      List.replicate 15 none := by decide

/-- The reason a word is ILLEGAL, where it is. -/
def reason (numChannels : Nat) (w : Request) : Option Illegal :=
  match decode numChannels w with
  | .ok _ => none
  | .error e => some e

theorem test_reason_reservedOp : reason 8 0x00000000 = some .reservedOp := by decide
theorem test_reason_unusedBits : reason 8 0x00200010 = some .unusedBits := by decide
theorem test_reason_idxRange : reason 8 0x00090031 = some .idxRange ∧ reason 1 0x00010021 = some .idxRange := by decide
theorem test_reason_needsEightChannels : reason 1 0x00030017 = some .needsEightChannels := by decide
theorem test_one_channel_legal : reason 1 0x00000021 = none := by decide

/-! ### Helpers for one-step tests -/

/-- The reply of an acknowledged transfer that yields `b`. -/
def yields (b : Byte) : Reply := ⟨true, b, 0⟩

/-- S0 of spec/95_test_vectors.md section 0 before a bridge whose next transfers end with these bytes (0 stands for a
write). -/
def bus (bytes : List Byte) : State := { State.reset with replies := bytes.map yields }

/-- The next state. -/
def nextOf (o : StepResult) (s : State) : State :=
  match o with
  | .next t => t
  | .fault _ => s
  | .refused _ => s

/-- The state after a request. -/
def after (i : Instr) (s : State) : State := nextOf (exec i s) s

/-- The bytes of the writes issued. -/
def writes (t : State) : List (List Byte) :=
  t.log.filterMap fun o =>
    match o with
    | .write _ bytes _ _ => some bytes
    | _ => none

/-- The ROM code of the reference device A (spec/95_test_vectors.md section 0). -/
def romA : Vector Byte 8 := #v[0x28, 0xFF, 0x4C, 0x8E, 0x63, 0x16, 0x04, 0x2A]

/-- The ROM code of the reference device C. -/
def romC : Vector Byte 8 := #v[0x10, 0xA3, 0x5B, 0x1E, 0x02, 0x08, 0x00, 0x0F]

/-- The scratchpad of device A. -/
def frameA : Vector Byte 9 := #v[0x50, 0x05, 0x4B, 0x46, 0x7F, 0xFF, 0x0C, 0x10, 0x1C]

/-! ### The bridge register family (section 3) -/

theorem test_brWb_B1 : let t := after (.brWb 0xB4#8) (bus [0x00]); writes t = [[0xB4#8]] ∧ t.res = 0x00#8 := by decide
theorem test_brWb2_two_bytes_in_order : writes (after (.brWb2 0xE1#8 0xC3#8) (bus [0x00])) = [[0xE1#8, 0xC3#8]] := by decide
theorem test_brRb_B4a : (after .brRb (bus [0x04])).res = 0x04#8 := by decide
theorem test_brRb_B12 : (after .brRb { State.reset with replies := [⟨false, 0xAA#8, 0⟩] }).err = 0x10#8 := by decide
theorem test_brSrp_B4a : writes (after (.brSrp 0xC3#8) (bus [0x00])) = [[0xE1#8, 0xC3#8]] := by decide
theorem test_brRstat_B2 : let t := after .brRstat (bus [0x00, 0x22]); writes t = [[0xE1#8, 0xF0#8]] ∧ t.res = 0x22#8 := by
  decide
theorem test_brRdata_B11 : let t := after .brRdata (bus [0x00, 0x50]); writes t = [[0xE1#8, 0xE1#8]] ∧ t.res = 0x50#8 := by
  decide
theorem test_brRcfg_B4 : let t := after .brRcfg (bus [0x00, 0x04]); writes t = [[0xE1#8, 0xC3#8]] ∧ t.res = 0x04#8 := by
  decide
theorem test_brWcfg_B3 : let t := after (.brWcfg 0x4#4) (bus [0x00, 0x00, 0x00, 0x04])
    writes t = [[0xE1#8, 0xF0#8], [0xD2#8, 0xB4#8]] ∧ t.res = 0x01#8 ∧ t.err = 0x00#8 := by decide +kernel
theorem test_brWcfg_B5 : let t := after (.brWcfg 0x4#4) (bus [0x00, 0x00, 0x00, 0xFB])
    t.res = 0x00#8 ∧ t.err = 0x04#8 := by decide +kernel
theorem test_brWait_B8 : let t := after .brWait (bus [0x00, 0x01, 0x00, 0x01, 0x00, 0x00])
    transfersIn t.log = 6 ∧ delaysIn t.log = 3 ∧ t.res = 0x00#8 ∧ t.err = 0x00#8 := by decide +kernel

/-! ### The 1-Wire family (section 4) -/

/-- The answers of O-1 with this last status. -/
def resetAnswers (status : Byte) : List Byte :=
  [0x00, 0x00, 0x00, 0x00, 0x00, 0x00, 0x00, 0x00, 0x00, 0x00, 0x00, 0x00, status]

theorem test_owReset_O1 : let t := after .owReset (bus (resetAnswers 0x02#8))
    writes t = [[0xE1#8, 0xF0#8], [0xE1#8, 0xC3#8], [0xE1#8, 0xF0#8], [0xD2#8, 0xF0#8], [0xE1#8, 0xF0#8], [0xB4#8],
      [0xE1#8, 0xF0#8]] ∧ t.res = 0x01#8 ∧ t.err = 0x00#8 ∧ transfersIn t.log = 13 := by decide +kernel
theorem test_owReset_O3 : let t := after .owReset (bus (resetAnswers 0x06#8)); t.res = 0x01#8 ∧ t.err = 0x02#8 := by
  decide +kernel
theorem test_owSkip_O6 : writes (after .owSkip (bus [0x00, 0x02, 0x00])) = [[0xE1#8, 0xF0#8], [0xA5#8, 0xCC#8]] := by
  decide +kernel
/-- R109: after a wait of two polls the command is issued all the same. -/
theorem test_owWb_longer_wait : let t := after (.owWb 0x44#8 false) (bus [0x00, 0x03, 0x00, 0x02, 0x00])
    writes t = [[0xE1#8, 0xF0#8], [0xE1#8, 0xF0#8], [0xA5#8, 0x44#8]] ∧ delaysIn t.log = 2 ∧ t.err = 0x00#8 := by
  decide +kernel
theorem test_owWb_O6 : let t := after (.owWb 0x44#8 true) (bus [0x00, 0x02, 0x00, 0x00, 0x00, 0x02, 0x00, 0x04, 0x00])
    writes t = [[0xE1#8, 0xF0#8], [0xE1#8, 0xC3#8], [0xE1#8, 0xF0#8], [0xD2#8, 0xB4#8], [0xA5#8, 0x44#8]] ∧
      t.err = 0x00#8 := by decide +kernel
theorem test_owRb_O15 : let t := after .owRb (bus [0x00, 0x02, 0x00, 0x00, 0x02, 0x00, 0x50])
    writes t = [[0xE1#8, 0xF0#8], [0x96#8], [0xE1#8, 0xF0#8], [0xE1#8, 0xE1#8]] ∧ t.res = 0x50#8 := by decide +kernel
theorem test_owWbit_O9 : writes (after (.owWbit false false) (bus [0x00, 0x02, 0x00])) =
    [[0xE1#8, 0xF0#8], [0x87#8, 0x00#8]] := by decide +kernel
theorem test_owWbit_O11 :
    writes (after (.owWbit true true) (bus [0x00, 0x22, 0x00, 0x04, 0x00, 0x22, 0x00, 0x04, 0x00])) =
      [[0xE1#8, 0xF0#8], [0xE1#8, 0xC3#8], [0xE1#8, 0xF0#8], [0xD2#8, 0xB4#8], [0x87#8, 0x80#8]] := by decide +kernel
theorem test_owRbit_O10 : let t := after .owRbit (bus [0x00, 0x02, 0x00, 0x00, 0x22])
    writes t = [[0xE1#8, 0xF0#8], [0x87#8, 0x80#8], [0xE1#8, 0xF0#8]] ∧ t.res = 0x01#8 := by decide +kernel
theorem test_owSelect_O14 : let t := after .owSelect { bus (List.replicate 27 0x00#8) with addr := romA }
    (writes t).filter (fun w => w != [0xE1#8, 0xF0#8]) = [[0xA5#8, 0x55#8], [0xA5#8, 0x28#8], [0xA5#8, 0xFF#8],
      [0xA5#8, 0x4C#8], [0xA5#8, 0x8E#8], [0xA5#8, 0x63#8], [0xA5#8, 0x16#8], [0xA5#8, 0x04#8], [0xA5#8, 0x2A#8]] ∧
      transfersIn t.log = 27 := by decide +kernel
theorem test_owChan_O12 : let t := after (.owChan 4) (bus [0x00, 0x00, 0x00, 0x9C])
    writes t = [[0xE1#8, 0xF0#8], [0xC3#8, 0xB4#8]] ∧ t.res = 0x01#8 := by decide +kernel
theorem test_owChan_O13 : let t := after (.owChan 2) (bus [0x00, 0x00, 0x00, 0xB8]); t.res = 0x00#8 ∧ t.err = 0x08#8 := by
  decide +kernel
theorem test_owTrip_O17 : let t := after (.owTrip false) (bus [0x00, 0x02, 0x00, 0x00, 0x42])
    writes t = [[0xE1#8, 0xF0#8], [0x78#8, 0x00#8], [0xE1#8, 0xF0#8]] ∧ t.res = 0x02#8 ∧ t.err = 0x00#8 := by
  decide +kernel
theorem test_owRframe_P2 :
    let t := after .owRframe (bus (frameA.toList.flatMap fun b => [0x00, 0x02, 0x00, 0x00, 0x02, 0x00, b]))
    t.frame = frameA ∧ t.res = 0x00#8 ∧ transfersIn t.log = 63 := by decide +kernel
theorem test_owPullup_O7 : let t := after (.owPullup false) (bus [0x00, 0x02, 0x00, 0x04, 0x00, 0x02, 0x00, 0x00])
    writes t = [[0xE1#8, 0xF0#8], [0xE1#8, 0xC3#8], [0xE1#8, 0xF0#8], [0xD2#8, 0xF0#8]] ∧ t.err = 0x00#8 := by
  decide +kernel

/-! ### The search family (section 5) -/

/-- The answers of a pass with presence whose `i`-th triplet shows the `i`-th of these status bytes. -/
def passAnswers (statuses : List Byte) : List Byte :=
  resetAnswers 0x02#8 ++ [0x00, 0x02, 0x00] ++ statuses.flatMap fun b => [0x00, 0x02, 0x00, 0x00, b]

/-- The triplet status of one device whose bit is `b` (S-2). -/
def oneDevice (b : Bool) : Byte := if b then 0xA2#8 else 0x42#8

/-- The triplet statuses of a bus with this device alone. -/
def aloneStatuses (v : Ident) : List Byte := bitPositions.map fun i => oneDevice (identBit v i)

theorem test_srReset_fresh :
    (after (.srReset 3) { State.reset with search := Vector.replicate 8 ⟨romA, -1, true⟩ }).ss 3 = .fresh := by decide
theorem test_srNext_S0 : let t := after (.srNext 0) (bus (resetAnswers 0x00#8))
    t.res = 0x00#8 ∧ transfersIn t.log = 13 ∧ (t.ss 0).byte = 0x7F#8 := by decide +kernel
theorem test_srNext_S1 : let t := after (.srNext 0) (bus (passAnswers (aloneStatuses (identOf romA))))
    t.res = 0x01#8 ∧ transfersIn t.log = 336 ∧ t.addr = romA ∧ (t.ss 0).byte = 0xFF#8 := by decide +kernel
theorem test_srAll_first_pass : let t := after (.srAll 0) (bus (passAnswers (aloneStatuses (identOf romC))))
    t.events = [0x0F0008021E5BA310#64] ∧ t.running = some ⟨0, 1⟩ := by decide +kernel
/-- S-6: the triplet of bit 10 sees no device. -/
theorem test_srNext_S6 :
    let t := after (.srNext 0) { bus (passAnswers ((aloneStatuses (identOf romA)).take 10 ++ [0xE2#8])) with
      addr := Vector.replicate 8 0x11#8 }
    t.res = 0x00#8 ∧ transfersIn t.log = 71 ∧ t.err = 0x40#8 ∧ t.addr = Vector.replicate 8 0x11#8 ∧
      t.ss 0 = ⟨#v[0x28, 0x03, 0, 0, 0, 0, 0, 0], -1, false⟩ := by decide +kernel
theorem test_srAll_no_device : let t := after (.srAll 0) (bus (resetAnswers 0x00#8))
    t.res = 0x00#8 ∧ t.running = none ∧ t.events = [] := by decide +kernel
theorem test_srState_S3 : (after (.srState 0) (setSearch 0 ⟨romC, 9, false⟩ State.reset)).res = 0x09#8 := by decide
theorem test_srState_S1 : (after (.srState 2) (setSearch 2 ⟨romA, -1, true⟩ State.reset)).res = 0xFF#8 := by decide
theorem test_srRomb_byte : (after (.srRomb 1 2) (setSearch 1 ⟨romA, -1, true⟩ State.reset)).res = 0x4C#8 := by decide

/-! ### The CRC family (section 6) -/

theorem test_crcStep_C1 : (after (.crcStep 0x01#8 0x00#8) State.reset).res = 0x5E#8 := by decide +kernel
theorem test_crcStep_C3a : (after (.crcStep 0x00#8 0xFF#8) State.reset).res = 0x35#8 := by decide +kernel
theorem test_crcAddr_C8 : (after (.crcAddr 7) { State.reset with addr := romA }).res = 0x2A#8 := by decide +kernel
theorem test_crcAddr_residue : (after (.crcAddr 8) { State.reset with addr := romA }).res = 0x00#8 := by decide +kernel
theorem test_crcFrame_C7 : (after (.crcFrame 8) { State.reset with frame := frameA }).res = 0x1C#8 := by decide +kernel
theorem test_crcFrame_C6 : (after (.crcFrame 9) { State.reset with
    frame := #v[0x31, 0x32, 0x33, 0x34, 0x35, 0x36, 0x37, 0x38, 0x39] }).res = 0xA1#8 := by decide +kernel
theorem test_crcChkaddr_C11 :
    let t := after .crcChkaddr { State.reset with addr := #v[0x02, 0x1C, 0xB8, 0x01, 0x00, 0x00, 0x00, 0xA3] }
    t.res = 0x00#8 ∧ t.err = 0x20#8 := by decide +kernel
theorem test_crcChkaddr_C10 : (after .crcChkaddr { State.reset with addr := romC }).res = 0x01#8 := by decide +kernel
theorem test_crcChkframe_C7 : let t := after .crcChkframe { State.reset with frame := frameA }
    t.res = 0x01#8 ∧ t.err = 0x00#8 := by decide +kernel
theorem test_crcChkframe_O16 : let t := after .crcChkframe { State.reset with frame := Vector.replicate 9 0xFF#8 }
    t.res = 0x00#8 ∧ t.err = 0x20#8 := by decide +kernel

/-! ### The error and buffer family (section 7) -/

theorem test_errRd_X4 : let t := after .errRd { State.reset with err := 0x02#8 }; t.res = 0x02#8 ∧ t.err = 0x02#8 := by
  decide
theorem test_errClr_X3 : let t := after (.errClr 0x01#7) { State.reset with err := 0x21#8 }
    t.res = 0x20#8 ∧ t.err = 0x20#8 := by decide
theorem test_addrSetb_X5 : (after (.addrSetb 7 0x2A#8) { State.reset with addr := romA.set 7 0#8 }).addr = romA := by decide
theorem test_addrGetb_X5 : (after (.addrGetb 7) { State.reset with addr := romA }).res = 0x2A#8 := by decide
theorem test_frameSetb_X6 : (after (.frameSetb 8 0x1C#8) { State.reset with frame := frameA.set 8 0#8 }).frame = frameA := by
  decide
theorem test_frameGetb_X6 : (after (.frameGetb 8) { State.reset with frame := frameA }).res = 0x1C#8 := by decide

/-! ### The port and the reset input (section 8) -/

/-- The reset input before the next request. -/
def resetNow : ResetInput := ⟨.beforeRequest, 0x11#8, romA, frameA⟩

theorem test_step_illegal :
    let t := nextOf (step (State.withFetchWord { State.reset with res := 0x55#8 } 32 0x00200010)) State.reset
    t.log = [.response .illegal 0x55#8] ∧ t.requests = [] := by decide
theorem test_step_reset_Z1 :
    let t := nextOf (step { State.reset with err := 0x7F#8, resetIn := some resetNow }) State.reset
    t.err = 0x00#8 ∧ t.res = 0x11#8 ∧ t.addr = romA := by decide
/-- R311: three transfers of `BR.WCFG 4` issued, then the reset; no response. -/
theorem test_step_reset_during :
    let s := { bus [0x00, 0x00, 0x00, 0x04] with requests := [0x00000408#32], resetIn := some ⟨.during 3, 0, romA, frameA⟩ }
    let t := nextOf (step s) s
    transfersIn t.log = 3 ∧ t.log.getLast? = some .reset ∧ t.replies = [yields 0x04#8] ∧ t.res = 0x00#8 := by
  decide +kernel

/-! ### The hypotheses of each statement can be met -/

/-- S0 before a bridge whose next `n` transfers end alike. -/
def steady (n : Nat) (r : Reply) : State := { State.reset with replies := List.replicate n r }

theorem steady_replyAt {n k : Nat} {r : Reply} (h : k < n) : (steady n r).replyAt k = r := by
  simp [State.replyAt, steady, h]

theorem steady_idleAt {n k : Nat} (h : k < n) : (steady n (yields 0x00#8)).idleAt k := by
  rw [State.idleAt, steady_replyAt h]
  exact (by decide : statusBusy Params.gk 0x00#8 = false)

theorem exec_after (i : Instr) (s : State) : exec i s = .next (after i s) := by cases i <;> rfl

theorem nextOf_eq {s t : State} (h : step s = .next t) : t = nextOf (step s) s := by rw [h]; rfl

theorem run_one_eq {s u : State} (h : Host.Core.run Sys2Proof.core 1 s = .next u) : u = nextOf (step s) s :=
  nextOf_eq (run_one h)

/-- A bus with this device alone. -/
def aloneBus (v : Ident) : State := bus (passAnswers (aloneStatuses v))

/-- The devices 0 and 2^63: they differ at bit 63 alone, and only the first has a valid CRC (compare S-7). -/
def twoDevices : List Ident := [0#64, 0x8000000000000000#64]

/-- A bus with these two devices, for two passes. -/
def twoBus : State :=
  bus (passAnswers (List.replicate 63 0x42#8 ++ [0x02#8]) ++ passAnswers (List.replicate 63 0x42#8 ++ [0x82#8]))

theorem test_meets_LegalWordsAreThoseOfTheTable : ((1 : Nat) = 1 ∨ (1 : Nat) = 8) ∧ ((8 : Nat) = 1 ∨ (8 : Nat) = 8) := by
  decide
theorem test_meets_DecodeOfEncode : (Instr.srNext 0).wf 1 = true ∧ (Instr.owChan 7).wf 8 = true := by decide
theorem test_meets_EncodeOfDecode : decode 8 0x00070017#32 = .ok (.owChan 7) := rfl
theorem test_meets_RowsDoNotOverlap : 0x0007A23A#32 &&& (Instr.addrSetb 0 0#8).row.1 = (Instr.addrSetb 0 0#8).row.2 ∧
    0x0007A23A#32 &&& (Instr.addrSetb 7 0xA2#8).row.1 = (Instr.addrSetb 7 0xA2#8).row.2 := by decide
theorem test_meets_StepServesTheDecodedRequest :
    let s := { State.reset with requests := [0x0008003D#32] }
    s.resetIn = none ∧ s.running = none ∧ s.requests = 0x0008003D#32 :: [] ∧
      decode s.params.numChannels 0x0008003D#32 = .ok (.frameGetb 8) := ⟨rfl, rfl, rfl, rfl⟩
theorem test_meets_IllegalRequestOnlyAnswers :
    let s := { State.reset with requests := [0x00090031#32] }
    s.resetIn = none ∧ s.running = none ∧ s.requests = 0x00090031#32 :: [] ∧
      decode s.params.numChannels 0x00090031#32 = .error .idxRange := ⟨rfl, rfl, rfl, rfl⟩
theorem test_meets_IdleControllerDoesNothing :
    State.reset.resetIn = none ∧ State.reset.running = none ∧ State.reset.requests = [] := by decide
theorem test_meets_UnfinishedSearchAllKeepsThePort :
    let s := { State.reset with running := some ⟨7, 255⟩, requests := [0x00000038#32] }
    s.resetIn = none ∧ s.running = some ⟨7, 255⟩ := by decide
theorem test_meets_ResetInputBetweenRequests :
    let s := { State.reset with resetIn := some resetNow, err := 0x7F#8 }
    s.resetIn = some resetNow ∧ resetNow.time = .beforeRequest := by decide
theorem test_meets_ResetAbandonsTheRequest :
    let d : ResetInput := ⟨.during 3, 0x00#8, romA, frameA⟩
    let s := { bus [0x00, 0x00, 0x00, 0x04] with requests := [0x00000408#32], resetIn := some d }
    s.resetIn = some d ∧ d.time = .during 3 ∧ ∃ u, advance s = .next u := ⟨rfl, rfl, _, rfl⟩
theorem test_meets_EveryRequestRespondsOnce : ∀ c, Instr.srNext 0 ≠ .srAll c := by decide
theorem test_meets_ErrorsAccumulateByOr :
    (∀ m, Instr.crcChkaddr ≠ .errClr m) ∧ ∃ t, exec .crcChkaddr { State.reset with addr := romA } = .next t :=
  ⟨by simp, _, rfl⟩
theorem test_meets_OnlyErrClrAndResetClearFlags :
    let s := { State.reset with err := 0x40#8, requests := [0x00000038#32] }
    s.resetIn = none ∧ (∃ t, step s = .next t) ∧
      (∀ w ws m, s.running = none → s.requests = w :: ws → decode s.params.numChannels w ≠ .ok (.errClr m)) ∧
      s.err.getLsbD 6 = true := by
  refine ⟨rfl, ⟨_, rfl⟩, fun w ws m _ hr => ?_, rfl⟩
  obtain ⟨rfl, -⟩ := List.cons.inj hr
  intro h
  cases h
theorem test_meets_SearchStatesAreIndependent :
    (Instr.srAll 0).searchChannel ≠ some 7 ∧ Instr.owReset.searchChannel ≠ some 0 ∧ (0 : Fin 8) ≠ 7 := by decide
theorem test_meets_LegalStatesAreKept : State.reset.Inv ∧ ∃ t, step { State.reset with requests := [0x21#32] } = .next t :=
  ⟨⟨by decide, by unfold SearchState.legal; decide +kernel, by decide⟩, _, rfl⟩
theorem test_meets_ParametersFixedAndOutputsKept : ∃ t, step (bus [0x00]) = .next t := ⟨_, rfl⟩
theorem test_meets_WaitEndsAtFirstIdlePoll_at_once :
    statusBusy (bus [0x00, 0x00]).params ((bus [0x00, 0x00]).replyAt 1).byte = false := by decide
/-- B-9: the last allowed poll is the first that shows not busy. -/
theorem test_meets_WaitEndsAtFirstIdlePoll_at_last :
    let s := { State.reset with replies := List.replicate 1999 (yields 0x01#8) ++ [yields 0x00#8] }
    999 < 1000 ∧ (∀ j, j < 999 → statusBusy s.params (s.replyAt (2 * j + 1)).byte = true) ∧
      statusBusy s.params (s.replyAt (2 * 999 + 1)).byte = false := by
  refine ⟨by decide, fun j hj => ?_, by decide +kernel⟩
  have h : 2 * j + 1 < (List.replicate 1999 (yields 0x01#8)).length := by rw [List.length_replicate]; omega
  rw [show State.replyAt _ (2 * j + 1) = yields 0x01#8 by
    rw [State.replyAt, dif_pos (by rw [List.length_append]; omega), List.getElem_append_left h, List.getElem_replicate]]
  exact (by decide : statusBusy Params.gk 0x01#8 = true)
/-- B-10: every allowed poll shows busy. -/
theorem test_meets_WaitTimesOutAfterThePollLimit :
    let s := steady 2000 (yields 0x01#8)
    ∀ j, j < 1000 → statusBusy s.params (s.replyAt (2 * j + 1)).byte = true := by
  intro s j hj
  rw [steady_replyAt (by omega)]
  exact (by decide : statusBusy Params.gk 0x01#8 = true)
/-- A wait that times out, of the statements that say what is issued whatever the waits find. -/
theorem test_meets_waits_that_time_out :
    let s := steady 2000 (yields 0x01#8)
    s.timesOutAt 0 ∧ s.waitMakes 0 1000 := by
  intro s
  have h : ∀ j, j < 1000 → s.busyAt (0 + 2 * j + 1) := fun j hj => by
    rw [State.busyAt, steady_replyAt (by omega)]
    exact (by decide : statusBusy Params.gk 0x01#8 = true)
  exact ⟨h, by omega, by omega, fun j hj => h j (by omega), fun hn => absurd hn (by omega)⟩
theorem test_meets_ConfigWriteTransfers :
    let s := bus [0x00, 0x00, 0x00, 0xFB]
    s.idleAt 1 ∧ (s.replyAt 3).byte = ~~~((0x4#4).setWidth 8) := ⟨rfl, rfl⟩
theorem test_meets_BusResetTransfers :
    let s := steady 13 (yields 0x00#8)
    s.idleAt 1 ∧ s.idleAt 5 ∧ s.idleAt 9 ∧ s.idleAt 12 := ⟨rfl, rfl, rfl, rfl⟩
theorem test_meets_WritesWithoutPower : (bus [0x00, 0x02, 0x00]).idleAt 1 := rfl
theorem test_meets_WritesWithPower : let s := steady 9 (yields 0x00#8); s.idleAt 1 ∧ s.idleAt 5 := ⟨rfl, rfl⟩
theorem test_meets_PullupControl : let s := steady 8 (yields 0x00#8); s.idleAt 1 ∧ s.idleAt 5 := ⟨rfl, rfl⟩
theorem test_meets_ReadTransfers : let s := steady 7 (yields 0x00#8); s.idleAt 1 ∧ s.idleAt 4 := ⟨rfl, rfl⟩
theorem test_meets_SelectSendsTheIdentifier :
    ∀ j, j < 9 → (steady 27 (yields 0x00#8)).idleAt (3 * j + 1) := fun _ _ => steady_idleAt (by omega)
theorem test_meets_ChannelSelectTransfers : (bus [0x00, 0x00, 0x00, 0xB8]).idleAt 1 := rfl
theorem test_meets_FrameReadFillsTheFrame :
    ∀ k, k < 9 → (steady 63 (yields 0x00#8)).idleAt (7 * k + 1) ∧ (steady 63 (yields 0x00#8)).idleAt (7 * k + 4) :=
  fun _ _ => ⟨steady_idleAt (by omega), steady_idleAt (by omega)⟩
theorem test_meets_FrameOfThePortRequests :
    Instr.owRframe.searchChannel = none ∧ (∀ k v, Instr.srReset 0 ≠ .addrSetb k v) ∧ (∀ c, Instr.srReset 0 ≠ .srNext c) ∧
      (∀ c, Instr.srReset 0 ≠ .srAll c) ∧ (∀ k v, Instr.srReset 0 ≠ .frameSetb k v) ∧ Instr.srReset 0 ≠ .owRframe := by
  simp [Instr.searchChannel]
/-- A later turn of `SR.ALL` that finds a device goes on, so `RES` is as before; one without presence responds. -/
theorem test_meets_FrameOfThePortRequests_turn : (7 : Fin 8) ≠ 0 ∧
    (searchAllPass 0 5 (aloneBus (identOf romA))).running.isSome = true ∧
    (searchAllPass 0 5 (bus (resetAnswers 0x00#8))).res = 0x05#8 := by decide +kernel
theorem test_meets_ExhaustedSearchIsIdempotent :
    ((setSearch 7 ⟨romA, -1, true⟩ State.reset).ss 7).ldf = true := by decide
theorem test_meets_SearchNextOutcomes : (State.reset.ss 0).ldf = false := by decide
theorem test_meets_SearchWithoutPresence :
    let s := bus (resetAnswers 0x00#8)
    (s.ss 0).ldf = false ∧ ∃ t, exec .owReset s = .next t ∧ t.res = 0x00#8 :=
  ⟨by decide, _, exec_after _ _, by decide +kernel⟩
/-- Both cases of the discrepancy: a device alone, and a first pass over two devices that differ at bit 63. -/
theorem test_meets_SearchPassFollowsTheTriplets : ∀ s ∈ [aloneBus (identOf romA), twoBus],
    (s.ss 0).ldf = false ∧ s.idleAt 1 ∧ s.idleAt 5 ∧ s.idleAt 9 ∧ s.idleAt 12 ∧ s.idleAt 14 ∧
      (∀ i : Fin 64, s.idleAt (5 * i.val + 17) ∧ s.idleAt (5 * i.val + 20)) ∧
      (s.replyAt 12).byte.getLsbD s.params.stPpd = true ∧
      ∀ i : Fin 64, ((statusTriplet s.params (s.replyAt (5 * i.val + 20)).byte).id &&
        (statusTriplet s.params (s.replyAt (5 * i.val + 20)).byte).cmp) = false := by
  unfold State.idleAt
  decide +kernel
/-- A pass whose triplet of bit `i` sees no device, those before it device A (S-6 is bit 10). -/
def inconsistentBus (i : Fin 64) : State :=
  bus (passAnswers ((aloneStatuses (identOf romA)).take i.val ++ [0xE2#8]))

/-- The first bit position, that of S-6, and the last. -/
theorem test_meets_InconsistentTripletEndsThePass : ∀ i ∈ [(0 : Fin 64), 10, 63], let s := inconsistentBus i
    (s.ss 0).ldf = false ∧ s.idleAt 1 ∧ s.idleAt 5 ∧ s.idleAt 9 ∧ s.idleAt 12 ∧ s.idleAt 14 ∧
      (∀ j : Fin 64, j ≤ i → s.idleAt (5 * j.val + 17) ∧ s.idleAt (5 * j.val + 20)) ∧
      (s.replyAt 12).byte.getLsbD s.params.stPpd = true ∧
      (∀ j : Fin 64, j < i → ((statusTriplet s.params (s.replyAt (5 * j.val + 20)).byte).id &&
        (statusTriplet s.params (s.replyAt (5 * j.val + 20)).byte).cmp) = false) ∧
      (statusTriplet s.params (s.replyAt (5 * i.val + 20)).byte).id = true ∧
      (statusTriplet s.params (s.replyAt (5 * i.val + 20)).byte).cmp = true := by
  unfold State.idleAt
  decide +kernel
theorem test_meets_SearchDirections_below : (((0 : Fin 64).val : Int) < (⟨romA, 63, false⟩ : SearchState).ld) ∧
    (((62 : Fin 64).val : Int) < (⟨romA, 63, false⟩ : SearchState).ld) := by decide
theorem test_meets_SearchDirections_at : (((63 : Fin 64).val : Int) = (⟨romA, 63, false⟩ : SearchState).ld) ∧
    (((0 : Fin 64).val : Int) = (⟨romA, 0, false⟩ : SearchState).ld) := by decide
theorem test_meets_SearchDirections_above : ((⟨romA, -1, false⟩ : SearchState).ld < ((0 : Fin 64).val : Int)) ∧
    ((⟨romA, 62, false⟩ : SearchState).ld < ((63 : Fin 64).val : Int)) := by decide
theorem test_meets_SearchAllTurns_valid : let s := aloneBus (identOf romA)
    (wireSearch 0 s).1 = true ∧ crc8 (wireSearch 0 s).2.params.crcInit ((wireSearch 0 s).2.addr.toList.take 7) =
      (wireSearch 0 s).2.addr[7] := by decide +kernel
theorem test_meets_SearchAllTurns_bad_crc : let s := aloneBus (identOf (romA.set 7 0x2B#8))
    (wireSearch 0 s).1 = true ∧ crc8 (wireSearch 0 s).2.params.crcInit ((wireSearch 0 s).2.addr.toList.take 7) ≠
      (wireSearch 0 s).2.addr[7] := by decide +kernel
theorem test_meets_SearchAllTurns_end : (wireSearch 0 (bus (resetAnswers 0x00#8))).1 = false := by decide +kernel
theorem test_meets_SearchAllHasNoPassBound : Params.gk.wf = true ∧ (7 : Fin 8).val < Params.gk.numChannels := by decide

theorem twoDevices_precedes : twoDevices.Pairwise precedes := by
  refine .cons (fun w hw => ?_) (.cons (by simp) .nil)
  obtain rfl : w = 0x8000000000000000#64 := by simpa using hw
  exact ⟨63, by decide +kernel⟩

theorem test_meets_SearchEnumeratesInBitOrder :
    twoBus.ss 0 = ⟨Vector.replicate 8 0x00#8, -1, false⟩ ∧ twoDevices ≠ [] ∧ twoDevices.Pairwise precedes ∧
      ∀ k, k < twoDevices.length → wellBehavedPass 0 twoDevices (afterNexts 0 k twoBus) = true :=
  ⟨by decide +kernel, by decide, twoDevices_precedes, by decide +kernel⟩
theorem test_meets_SearchAllFindsEveryValidDevice :
    let s := { twoBus with requests := [0x00000022#32] }
    s.resetIn = none ∧ s.running = none ∧ s.requests = 0x00000022#32 :: [] ∧
      decode s.params.numChannels 0x00000022#32 = .ok (.srAll 0) ∧ twoDevices.Pairwise precedes ∧
      wellBehavedPass 0 twoDevices (setSearch 0 ⟨Vector.replicate 8 0x00#8, -1, false⟩ { s with requests := [] }) = true ∧
      ∀ k u, 0 < k → k < twoDevices.length → Host.Core.run Sys2Proof.core k s = .next u →
        wellBehavedPass 0 twoDevices u = true := by
  refine ⟨rfl, rfl, rfl, rfl, twoDevices_precedes, by decide +kernel, fun k u h0 h1 hr => ?_⟩
  obtain rfl : k = 1 := by simp only [twoDevices, List.length_cons, List.length_nil] at h1; omega
  rw [run_one_eq hr]
  decide +kernel
/-- No device: the statement's other boundary. -/
theorem test_meets_SearchAllFindsEveryValidDevice_none :
    let s := { bus (resetAnswers 0x00#8) with requests := [0x00000022#32] }
    decode s.params.numChannels 0x00000022#32 = .ok (.srAll 0) ∧ ([] : List Ident).Pairwise precedes ∧
      wellBehavedPass 0 [] (setSearch 0 ⟨Vector.replicate 8 0x00#8, -1, false⟩ { s with requests := [] }) = true :=
  ⟨rfl, .nil, by decide +kernel⟩
theorem test_meets_ValidIdentifiersPartBelowBit63 : identValid 0x00#8 (identOf romA) = true ∧
    ∀ i : Fin 64, i.val < 63 → identBit (identOf romA) i = identBit (identOf romA) i :=
  ⟨by decide +kernel, fun _ _ => rfl⟩
theorem test_meets_CrcChecks :
    let s := { State.reset with addr := romA, frame := frameA }
    crc8 s.params.crcInit (s.addr.toList.take 7) = s.addr[7] ∧
      crc8 s.params.crcInit (s.frame.toList.take 8) = s.frame[8] := by decide +kernel
theorem test_meets_CrcChecks_bad :
    let s := { State.reset with addr := romA.set 7 0x2B#8, frame := frameA.set 8 0x1D#8 }
    crc8 s.params.crcInit (s.addr.toList.take 7) ≠ s.addr[7] ∧
      crc8 s.params.crcInit (s.frame.toList.take 8) ≠ s.frame[8] := by decide +kernel
theorem test_meets_BufferWrites : (0 : Fin 8) ≠ 7 ∧ (8 : Fin 9) ≠ 0 := by decide
theorem test_meets_SearchReset : (7 : Fin 8) ≠ 0 := by decide

end Sys2Proof.Tests
end

section
/-! The state after reset is legal (spec/10_state.md R8, R22, R28, R39). The lemmas on fresh search states serve every
state that a reset leaves, whatever the values it draws. -/

namespace Sys2Proof.Machine

@[simp] theorem SearchState.legal_fresh : SearchState.fresh.legal :=
  ⟨le_refl (-1), by decide, fun _ => rfl⟩

/-- Where R39 has reset the search registers, every channel is fresh. -/
theorem ss_of_search_replicate_fresh {s : State} (h : s.search = Vector.replicate 8 .fresh) (c : Fin 8) :
    s.ss c = .fresh := by
  simp [State.ss, h]

theorem searchLegal_of_search_replicate_fresh {s : State} (h : s.search = Vector.replicate 8 .fresh) (c : Fin 8) :
    (s.ss c).legal := by
  rw [ss_of_search_replicate_fresh h c]
  exact SearchState.legal_fresh

/-- The suggested values of R7 meet R8: a finite check of five constraints on literals. -/
theorem Params.wf_gk : Params.gk.wf = true := by decide

/-- Settles O20, one part of the invariant at a time: `ERR` is 0 after reset, every channel is fresh and a fresh search
state is legal, and the parameters bound at reset are the suggested ones. -/
theorem resetStateIsLegal : Obligations.ResetStateIsLegal where
  errBit7 := BitVec.getLsbD_zero
  searchLegal := searchLegal_of_search_replicate_fresh rfl
  paramsWf := Params.wf_gk

end Sys2Proof.Machine
end

section
/-! What a step can do: the branches of `step` and `advance`, once each as equations and once as an inversion; then the
statements on the request port and the reset input that read off one branch (spec/10_state.md R31, R32, R39). -/

namespace Sys2Proof.Machine

/-! ### The branches as equations -/

theorem step_of_noReset {s : State} (h : s.resetIn = none) : step s = advance s := by
  simp [step, stepOnce, h]

theorem step_of_resetBefore {s : State} {d : ResetInput} (h : s.resetIn = some d) (hd : d.time = .beforeRequest) :
    step s = .next (assertReset d s) := by
  simp [step, stepOnce, h, hd]

theorem step_of_resetDuring {s u : State} {d : ResetInput} {k : Nat} (h : s.resetIn = some d)
    (hd : d.time = .during k) (hu : advance s = .next u) : step s = .next (abandon k d s u) := by
  simp [step, stepOnce, h, hd, hu]

theorem advance_of_running {s : State} {a : SearchAllRun} (h : s.running = some a) :
    advance s = .next (searchAllPass a.chan a.found s) := by
  simp [advance, h]

theorem advance_of_legal {s : State} {w : Request} {ws : List Request} {i : Instr} (hr : s.running = none)
    (hw : s.requests = w :: ws) (hd : decode s.params.numChannels w = .ok i) :
    advance s = exec i { s with requests := ws } := by
  simp [advance, serve, hr, hw, hd]

theorem advance_of_illegal {s : State} {w : Request} {ws : List Request} {e : Illegal} (hr : s.running = none)
    (hw : s.requests = w :: ws) (hd : decode s.params.numChannels w = .error e) :
    advance s = .next (respond .illegal { s with requests := ws }) := by
  simp [advance, serve, hr, hw, hd]

theorem advance_of_idle {s : State} (hr : s.running = none) (hw : s.requests = []) : advance s = .next s := by
  simp [advance, hr, hw]

/-! ### The inversions -/

/-- A step advances undisturbed, takes a reset between requests, or abandons what it advanced to (R310, R311). -/
theorem step_cases {s t : State} (h : step s = .next t) :
    (s.resetIn = none ∧ advance s = .next t) ∨
    (∃ d, s.resetIn = some d ∧ d.time = .beforeRequest ∧ t = assertReset d s) ∨
    (∃ d k u, s.resetIn = some d ∧ d.time = .during k ∧ advance s = .next u ∧ t = abandon k d s u) := by
  cases hr : s.resetIn with
  | none => exact .inl ⟨rfl, (step_of_noReset hr).symm.trans h⟩
  | some d =>
    cases hd : d.time with
    | beforeRequest =>
      rw [step_of_resetBefore hr hd] at h; cases h
      exact .inr (.inl ⟨d, rfl, hd, rfl⟩)
    | during k =>
      obtain ⟨u, hu⟩ := advance_next s
      rw [step_of_resetDuring hr hd hu] at h; cases h
      exact .inr (.inr ⟨d, k, u, rfl, hd, hu, rfl⟩)

/-- An undisturbed controller runs the next turn of its `SR.ALL`, executes the first waiting request, answers it
ILLEGAL, or is idle (R31, R64, R83). -/
theorem advance_cases {s t : State} (h : advance s = .next t) :
    (∃ a, s.running = some a ∧ t = searchAllPass a.chan a.found s) ∨
    (∃ w ws i, s.running = none ∧ s.requests = w :: ws ∧ decode s.params.numChannels w = .ok i ∧
      exec i { s with requests := ws } = .next t) ∨
    (∃ w ws e, s.running = none ∧ s.requests = w :: ws ∧ decode s.params.numChannels w = .error e ∧
      t = respond .illegal { s with requests := ws }) ∨
    (s.running = none ∧ s.requests = [] ∧ t = s) := by
  rcases Option.eq_none_or_eq_some s.running with hr | ⟨a, hr⟩
  · cases hw : s.requests with
    | nil =>
      rw [advance_of_idle hr hw] at h; cases h
      exact .inr (.inr (.inr ⟨hr, rfl, rfl⟩))
    | cons w ws =>
      cases hd : decode s.params.numChannels w with
      | ok i =>
        rw [advance_of_legal hr hw hd] at h
        exact .inr (.inl ⟨w, ws, i, hr, rfl, hd, h⟩)
      | error e =>
        rw [advance_of_illegal hr hw hd] at h; cases h
        exact .inr (.inr (.inl ⟨w, ws, e, hr, rfl, hd, rfl⟩))
  · rw [advance_of_running hr] at h; cases h
    exact .inl ⟨a, hr, rfl⟩

/-- A request is `SR.ALL` with its first turn, `ERR.CLR`, or a part of a rule that raises only its kinds of R282 and
then `finish`. -/
theorem exec_cases {i : Instr} {s t : State} (h : exec i s = .next t) :
    (∃ c, i = .srAll c ∧ t = searchAllPass c 0 (wireResetSearch c s)) ∨
    (∃ m, i = .errClr m ∧ t = finish (clearErr m s).err (clearErr m s)) ∨
    (∃ v u, t = finish v u ∧ Ran (flagMask (mayRaise i)) (fewestTransfers i) (mostTransfers i) s u) := by
  by_cases hall : ∃ c, i = .srAll c
  · obtain ⟨c, rfl⟩ := hall
    cases h
    exact .inl ⟨c, rfl, rfl⟩
  by_cases hclr : ∃ m, i = .errClr m
  · obtain ⟨m, rfl⟩ := hclr
    cases h
    exact .inr (.inl ⟨m, rfl, rfl⟩)
  obtain ⟨v, u, e, hran⟩ := exec_ran i s (fun c hc => hall ⟨c, hc⟩) (fun m hm => hclr ⟨m, hm⟩)
  exact .inr (.inr ⟨v, u, Host.Outcome.next.inj (h.symm.trans e), hran⟩)

/-! ### Statements about one branch -/

/-- Settles O6: the branch of a waiting request that decodes. -/
theorem stepServesTheDecodedRequest : Obligations.StepServesTheDecodedRequest := by
  intro s w ws i hreset hrunning hrequests hdecode
  exact (step_of_noReset hreset).trans (advance_of_legal hrunning hrequests hdecode)

/-- Settles O9: the branch of an unfinished `SR.ALL`; a turn of it touches no waiting request. -/
theorem unfinishedSearchAllKeepsThePort : Obligations.UnfinishedSearchAllKeepsThePort := by
  intro s a hreset hrunning
  exact ⟨_, (step_of_noReset hreset).trans (advance_of_running hrunning), rfl,
    (served_searchAllPass a.chan a.found s).requests⟩

/-- Settles O11: with every channel fresh by `ss_of_search_replicate_fresh`, the rest is the record itself. -/
theorem stateAfterReset : Obligations.StateAfterReset :=
  ⟨rfl, ss_of_search_replicate_fresh rfl, rfl, rfl⟩

/-- Settles O12: the branch of a reset between requests. The mark it leaves in the log empties the event output
(`eventsIn_reset`). -/
theorem resetInputBetweenRequests : Obligations.ResetInputBetweenRequests := by
  intro s d hreset hbefore
  have hfresh : ∀ c, (assertReset d s).ss c = .fresh := ss_of_search_replicate_fresh rfl
  have hevents : (assertReset d s).events = [] := eventsIn_reset s.log
  exact ⟨assertReset d s, step_of_resetBefore hreset hbefore, rfl, rfl, rfl, rfl, hfresh, hevents, rfl, rfl, rfl, rfl,
    rfl, rfl, rfl⟩

end Sys2Proof.Machine
end

section
/-! The bits of `ERR`: the bit of each kind, the flags a step keeps, and the ones no step sets (spec/10_state.md R22,
R23; spec/60_exceptions.md R282). -/

namespace Sys2Proof.Machine

/-! ### The bit of a kind -/

theorem ErrKind.code_lt (k : ErrKind) : k.code < 7 := by cases k <;> decide

theorem ErrKind.getLsbD_mask (k : ErrKind) (b : Nat) : k.mask.getLsbD b = decide (b = k.code) := by
  have hk : k.code < 8 := Nat.lt_succ_of_lt k.code_lt
  rw [ErrKind.mask, ← BitVec.twoPow_eq, BitVec.getLsbD_twoPow]
  simp [hk, eq_comm]

theorem getLsbD_raiseErr (k : ErrKind) (s : State) (b : Nat) :
    (raiseErr k s).err.getLsbD b = (s.err.getLsbD b || decide (b = k.code)) := by
  rw [raiseErr_err, BitVec.getLsbD_or, ErrKind.getLsbD_mask]

/-- Settles O60: the bit of each kind's mask, and the seven masks as R22 numbers them. -/
theorem raiseSetsItsBitAlone : Obligations.RaiseSetsItsBitAlone :=
  ⟨fun k s b => ⟨rfl, getLsbD_raiseErr k s b⟩, fun _ => ⟨rfl, rfl, rfl, rfl, rfl, rfl, rfl⟩⟩

/-! ### The flags that stay set (R23) -/

theorem Ran.getLsbD_of_set {f : Byte} {lo hi : Nat} {s t : State} (h : Ran f lo hi s t) {b : Nat}
    (hb : s.err.getLsbD b = true) : t.err.getLsbD b = true := by
  have hbit := congrArg (·.getLsbD b) h.sticky
  simpa [hb] using hbit

theorem searchAllPass_getLsbD_of_set (c : Fin 8) (n : Nat) {s : State} {b : Nat} (hb : s.err.getLsbD b = true) :
    (searchAllPass c n s).err.getLsbD b = true := by
  obtain ⟨u, hran, herr, -⟩ := searchAllPass_ran c n s
  rw [herr]
  exact hran.getLsbD_of_set hb

theorem exec_getLsbD_of_set {i : Instr} {s t : State} (hclr : ∀ m, i ≠ .errClr m) (e : exec i s = .next t) {b : Nat}
    (hb : s.err.getLsbD b = true) : t.err.getLsbD b = true := by
  obtain ⟨c, rfl, rfl⟩ | ⟨m, rfl, -⟩ | ⟨v, u, rfl, hran⟩ := exec_cases e
  · exact searchAllPass_getLsbD_of_set c 0 (s := wireResetSearch c s) hb
  · exact absurd rfl (hclr m)
  · exact hran.getLsbD_of_set hb

/-- Settles O16, by what the controller can do undisturbed: a turn of `SR.ALL` and every request but `ERR.CLR` change
`ERR` by an OR; ILLEGAL and idleness do not touch it. -/
theorem onlyErrClrAndResetClearFlags : Obligations.OnlyErrClrAndResetClearFlags := by
  intro s t b hreset hstep hclr hb
  rw [step_of_noReset hreset] at hstep
  rcases advance_cases hstep with ⟨a, -, rfl⟩ | ⟨w, ws, i, hrunning, hrequests, hdecode, e⟩ |
    ⟨w, ws, -, -, -, -, rfl⟩ | ⟨-, -, rfl⟩
  · exact searchAllPass_getLsbD_of_set _ _ hb
  · refine exec_getLsbD_of_set (s := { s with requests := ws }) (fun m hm => ?_) e hb
    exact hclr w ws m hrunning hrequests (hm ▸ hdecode)
  · exact hb
  · exact hb

/-! ### Bit 7, which no kind has -/

theorem flagMask_bit7 (ks : List ErrKind) : (flagMask ks).getLsbD 7 = false := by
  induction ks with
  | nil => rfl
  | cons k ks ih =>
    have hk : k.mask.getLsbD 7 = false := by
      rw [ErrKind.getLsbD_mask, decide_eq_false (Nat.ne_of_gt k.code_lt)]
    show (k.mask ||| flagMask ks).getLsbD 7 = false
    rw [BitVec.getLsbD_or, hk, ih, Bool.or_false]

theorem searchAllPass_errBit7 (c : Fin 8) (n : Nat) (s : State) :
    (searchAllPass c n s).err.getLsbD 7 = s.err.getLsbD 7 := by
  obtain ⟨u, hran, herr, -⟩ := searchAllPass_ran c n s
  rw [herr]
  exact hran.flag 7 rfl

theorem clearErr_errBit7 {s : State} (h : s.err.getLsbD 7 = false) (m : BitVec 7) :
    (clearErr m s).err.getLsbD 7 = false := by
  rw [clearErr_err, BitVec.getLsbD_and, h, Bool.false_and]

theorem exec_errBit7 {i : Instr} {s t : State} (e : exec i s = .next t) (h : s.err.getLsbD 7 = false) :
    t.err.getLsbD 7 = false := by
  obtain ⟨c, rfl, rfl⟩ | ⟨m, rfl, rfl⟩ | ⟨v, u, rfl, hran⟩ := exec_cases e
  · exact (searchAllPass_errBit7 c 0 (wireResetSearch c s)).trans h
  · exact clearErr_errBit7 h m
  · exact (hran.flag 7 (flagMask_bit7 _)).trans h

end Sys2Proof.Machine
end

section
/-! The registers each request and each turn of `SR.ALL` can write (spec/10_state.md R24, R25, R27; spec/43_search.md
R197, R205). -/

namespace Sys2Proof.Machine

/-! ### The requests that write `RES` and the flags alone -/

/-- A request that writes `ADDR`, `FRAME` or a search state. -/
def writesBuffer : Instr → Bool
  | .owRframe | .srReset _ | .srNext _ | .srAll _ | .addrSetb _ _ | .frameSetb _ _ => true
  | .brWb _ | .brWb2 _ _ | .brRb | .brSrp _ | .brRstat | .brRdata | .brRcfg | .brWcfg _ | .brWait
  | .owReset | .owWb _ _ | .owRb | .owWbit _ _ | .owRbit | .owSkip | .owSelect | .owChan _ | .owTrip _
  | .owPullup _ | .srState _ | .srRomb _ _ | .crcStep _ _ | .crcAddr _ | .crcFrame _ | .crcChkaddr | .crcChkframe
  | .errRd | .errClr _ | .addrGetb _ | .frameGetb _ => false

theorem same_clearErr (m : BitVec 7) (s : State) : SameRegs s (clearErr m s) := ⟨rfl, rfl, rfl, rfl⟩

/-- Every other request is a part of a rule that keeps the registers, and then `finish`. -/
theorem exec_sameRegs {i : Instr} (hi : writesBuffer i = false) (s : State) :
    ∃ v u, exec i s = .next (finish v u) ∧ SameRegs s u := by
  cases i with
  | owRframe => cases hi
  | srReset c => cases hi
  | srNext c => cases hi
  | srAll c => cases hi
  | addrSetb k v => cases hi
  | frameSetb k v => cases hi
  | brWb b => exact ⟨_, _, rfl, same_writeByte b s⟩
  | brWb2 b b' => exact ⟨_, _, rfl, same_writeByte2 b b' s⟩
  | brRb => exact ⟨_, _, rfl, same_readByte s⟩
  | brSrp b => exact ⟨_, _, rfl, same_setReadPointer b s⟩
  | brRstat => exact ⟨_, _, rfl, same_readStatus s⟩
  | brRdata => exact ⟨_, _, rfl, same_readData s⟩
  | brRcfg => exact ⟨_, _, rfl, same_readConfig s⟩
  | brWcfg cfg => exact ⟨_, _, rfl, same_writeConfig cfg s⟩
  | brWait => exact ⟨_, _, rfl, same_waitOnBusy s⟩
  | owReset => exact ⟨_, _, rfl, same_wireReset s⟩
  | owWb b p => exact ⟨_, _, rfl, same_wireWriteByte b p s⟩
  | owRb => exact ⟨_, _, rfl, same_wireReadByte s⟩
  | owWbit b p => exact ⟨_, _, rfl, same_wireWriteBit b p s⟩
  | owRbit => exact ⟨_, _, rfl, same_wireReadBit s⟩
  | owSkip => exact ⟨_, _, rfl, same_wireSkip s⟩
  | owSelect => exact ⟨_, _, rfl, same_wireSelect s⟩
  | owChan c => exact ⟨_, _, rfl, same_setChannel c s⟩
  | owTrip d => exact ⟨_, _, rfl, same_triplet d s⟩
  | owPullup on =>
    cases on
    · exact ⟨_, _, rfl, (same_waitOnBusy s).trans (same_spuClear _)⟩
    · exact ⟨_, _, rfl, (same_waitOnBusy s).trans (same_spuEngage _)⟩
  | srState c => exact ⟨_, _, rfl, SameRegs.refl s⟩
  | srRomb c k => exact ⟨_, _, rfl, SameRegs.refl s⟩
  | crcStep b b' => exact ⟨_, _, rfl, SameRegs.refl s⟩
  | crcAddr n => exact ⟨_, _, rfl, SameRegs.refl s⟩
  | crcFrame n => exact ⟨_, _, rfl, SameRegs.refl s⟩
  | crcChkaddr => exact ⟨_, _, rfl, same_raiseIf _ _ s⟩
  | crcChkframe => exact ⟨_, _, rfl, same_raiseIf _ _ s⟩
  | errRd => exact ⟨_, _, rfl, SameRegs.refl s⟩
  | errClr m => exact ⟨_, _, rfl, same_clearErr m s⟩
  | addrGetb k => exact ⟨_, _, rfl, SameRegs.refl s⟩
  | frameGetb k => exact ⟨_, _, rfl, SameRegs.refl s⟩

/-! ### The search -/

/-- What a search pass on channel `c`, or a turn of an `SR.ALL` on it, leaves alone of the buffers (R27, R197). -/
structure SearchFrame (c : Fin 8) (s t : State) : Prop where
  frame : t.frame = s.frame
  others : ∀ d, d ≠ c → t.ss d = s.ss d
  addr : t.addr = s.addr ∨ t.addr = (t.ss c).romBuf

theorem SameRegs.searchFrame {s t : State} (h : SameRegs s t) (c : Fin 8) : SearchFrame c s t :=
  ⟨h.frame, fun d _ => ss_congr h.search d, .inl h.addr⟩

theorem recordFound_ss_ne {c d : Fin 8} (h : d ≠ c) (t : Int) (s : State) : (recordFound c t s).ss d = s.ss d :=
  ss_setSearch_ne _ s h

theorem recordFound_addr (c : Fin 8) (t : Int) (s : State) :
    (recordFound c t s).addr = ((recordFound c t s).ss c).romBuf := by
  have hss : (recordFound c t s).ss c = { s.ss c with ld := t, ldf := (s.ss c).ldf || decide (t = -1) } :=
    setSearch_ss_self s c _
  rw [hss]; rfl

theorem wireSearch_frame (c : Fin 8) (s : State) :
    (wireSearch c s).2.res = s.res ∧ SearchFrame c s (wireSearch c s).2 := by
  have hstart := (same_wireReset s).trans (same_wireWriteByte s.params.romSearch false (wireReset s).2)
  have hbits := searchBits_regs c bitPositions (-1) (wireWriteByte s.params.romSearch false (wireReset s).2)
  rcases wireSearch_cases c s with ⟨-, e⟩ | ⟨-, -, e⟩ | ⟨-, -, u, hu, e⟩ | ⟨-, -, t, u, hu, e⟩
  all_goals rw [e]
  · exact ⟨rfl, (SameRegs.refl s).searchFrame c⟩
  · exact ⟨(same_wireReset s).res, (same_wireReset s).searchFrame c⟩
  · rw [hu] at hbits
    obtain ⟨hres, haddr, hframe, hss, -⟩ := hbits
    exact ⟨hres.trans hstart.res, hframe.trans hstart.frame,
      fun d hd => (hss d hd).trans (ss_congr hstart.search d), .inl (haddr.trans hstart.addr)⟩
  · rw [hu] at hbits
    obtain ⟨hres, -, hframe, hss, -⟩ := hbits
    refine ⟨hres.trans hstart.res, hframe.trans hstart.frame, fun d hd => ?_, .inr (recordFound_addr c t u)⟩
    exact (recordFound_ss_ne hd t u).trans ((hss d hd).trans (ss_congr hstart.search d))

theorem searchAllPass_frame (c : Fin 8) (n : Nat) (s : State) : SearchFrame c s (searchAllPass c n s) := by
  obtain ⟨-, h⟩ := wireSearch_frame c s
  rcases searchAllPass_cases c n s with ⟨-, -, e⟩ | ⟨-, -, e⟩ | ⟨-, e⟩
  all_goals rw [e]; exact ⟨h.frame, h.others, h.addr⟩

/-- A turn of `SR.ALL` writes `RES` only where it responds (R205). -/
theorem searchAllPass_res_of_running {c : Fin 8} {n : Nat} {s : State}
    (hr : (searchAllPass c n s).running.isSome = true) : (searchAllPass c n s).res = s.res := by
  obtain ⟨hres, -⟩ := wireSearch_frame c s
  rcases searchAllPass_cases c n s with ⟨-, -, e⟩ | ⟨-, -, e⟩ | ⟨-, e⟩
  all_goals rw [e] at hr ⊢
  · exact hres
  · exact hres
  · cases hr

/-- Settles O40, by the requests that write a buffer, one at a time, and all others at once; then the turns. -/
theorem frameOfThePortRequests : Obligations.FrameOfThePortRequests := by
  refine ⟨fun i s => ?_, fun c n s => ?_⟩
  · cases hi : writesBuffer i with
    | false =>
      obtain ⟨v, u, e, h⟩ := exec_sameRegs hi s
      exact ⟨_, e, fun _ => h.search, fun _ _ _ => h.addr, fun _ _ => h.frame⟩
    | true =>
      cases i with
      | owRframe =>
        obtain ⟨-, haddr, hsearch⟩ := readFrame_regs frameIndexes s
        exact ⟨_, rfl, fun _ => hsearch, fun _ _ _ => haddr, fun _ h => absurd rfl h⟩
      | srReset c => exact ⟨_, rfl, nofun, fun _ _ _ => rfl, fun _ _ => rfl⟩
      | srNext c => exact ⟨_, rfl, nofun, fun _ h _ => absurd rfl (h c), fun _ _ => (wireSearch_frame c s).2.frame⟩
      | srAll c =>
        exact ⟨_, rfl, nofun, fun _ _ h => absurd rfl (h c),
          fun _ _ => (searchAllPass_frame c 0 (wireResetSearch c s)).frame⟩
      | addrSetb k v => exact ⟨_, rfl, fun _ => rfl, fun h _ _ => absurd rfl (h k v), fun _ _ => rfl⟩
      | frameSetb k v => exact ⟨_, rfl, fun _ => rfl, fun _ _ _ => rfl, fun h _ => absurd rfl (h k v)⟩
      | _ => cases hi
  · have h := searchAllPass_frame c n s
    exact ⟨h.frame, h.others, h.addr, searchAllPass_res_of_running⟩

end Sys2Proof.Machine
end

section
/-! The legal states are kept by every step (spec/10_state.md R22, R26, R28, R40; spec/43_search.md R196). -/

namespace Sys2Proof.Machine

theorem searchLegal_setSearch {s : State} (h : ∀ d, (s.ss d).legal) (c : Fin 8) {x : SearchState} (hx : x.legal)
    (d : Fin 8) : ((setSearch c x s).ss d).legal := by
  rw [setSearch_ss]
  split
  · exact hx
  · exact h d

theorem searchLegal_searchAllPass (c : Fin 8) (n : Nat) {s : State} (h : ∀ d, (s.ss d).legal) (d : Fin 8) :
    ((searchAllPass c n s).ss d).legal := by
  have hsearch := legal_wireSearch c s h d
  rcases searchAllPass_cases c n s with ⟨-, -, e⟩ | ⟨-, -, e⟩ | ⟨-, e⟩
  all_goals rw [e]; exact hsearch

/-- The requests that write a search state write a legal one; all others leave them (R28). -/
theorem searchLegal_exec {i : Instr} {s t : State} (e : exec i s = .next t) (h : ∀ d, (s.ss d).legal) (d : Fin 8) :
    (t.ss d).legal := by
  by_cases hi : i.searchChannel = none
  · obtain ⟨t', e', hsearch, -⟩ := frameOfThePortRequests.1 i s
    obtain rfl := Host.Outcome.next.inj (e'.symm.trans e)
    rw [ss_congr (hsearch hi)]
    exact h d
  cases i with
  | srReset c => cases e; exact searchLegal_setSearch h c SearchState.legal_fresh d
  | srNext c => cases e; exact legal_wireSearch c s h d
  | srAll c => cases e; exact searchLegal_searchAllPass c 0 (searchLegal_setSearch h c SearchState.legal_fresh) d
  | srState c => cases e; exact h d
  | srRomb c k => cases e; exact h d
  | _ => exact absurd rfl hi

theorem inv_searchAllPass (c : Fin 8) (n : Nat) {s : State} (h : s.Inv) : (searchAllPass c n s).Inv where
  errBit7 := (searchAllPass_errBit7 c n s).trans h.errBit7
  searchLegal := searchLegal_searchAllPass c n h.searchLegal
  paramsWf := by rw [(served_searchAllPass c n s).params]; exact h.paramsWf

theorem inv_exec {i : Instr} {s t : State} (e : exec i s = .next t) (h : s.Inv) : t.Inv where
  errBit7 := exec_errBit7 e h.errBit7
  searchLegal := searchLegal_exec e h.searchLegal
  paramsWf := by rw [(served_exec i e).params]; exact h.paramsWf

theorem inv_setRequests {s : State} (h : s.Inv) (ws : List Request) : State.Inv { s with requests := ws } :=
  ⟨h.errBit7, h.searchLegal, h.paramsWf⟩

theorem inv_respond {s : State} (h : s.Inv) (code : ResponseCode) : (respond code s).Inv :=
  ⟨h.errBit7, h.searchLegal, h.paramsWf⟩

theorem inv_advance {s t : State} (e : advance s = .next t) (h : s.Inv) : t.Inv := by
  rcases advance_cases e with ⟨a, -, rfl⟩ | ⟨w, ws, i, -, -, -, e⟩ | ⟨w, ws, -, -, -, -, rfl⟩ | ⟨-, -, rfl⟩
  · exact inv_searchAllPass a.chan a.found h
  · exact inv_exec e (inv_setRequests h ws)
  · exact inv_respond (inv_setRequests h ws) .illegal
  · exact h

/-- A reset needs nothing of the state before it but its parameters (R39). -/
theorem inv_assertReset (d : ResetInput) {s : State} (h : s.params.wf = true) : (assertReset d s).Inv where
  errBit7 := BitVec.getLsbD_zero
  searchLegal := searchLegal_of_search_replicate_fresh rfl
  paramsWf := h

theorem inv_abandon (k : Nat) (d : ResetInput) {s : State} (h : s.params.wf = true) (t : State) :
    (abandon k d s t).Inv := inv_assertReset d h

/-- Settles O19, by the three things a step can be. -/
theorem legalStatesAreKept : Obligations.LegalStatesAreKept := by
  intro s t h e
  obtain ⟨-, e⟩ | ⟨d, -, -, rfl⟩ | ⟨d, k, u, -, -, -, rfl⟩ := step_cases e
  · exact inv_advance e h
  · exact inv_assertReset d h.paramsWf
  · exact inv_abandon k d h.paramsWf u

end Sys2Proof.Machine
end

section
/-! A step adds to the outputs and keeps the parameters (spec/10_state.md R40; spec/20_memory.md R50, R64). -/

namespace Sys2Proof.Machine

/-- `t` has the parameters of `s`, and its outputs are those of `s` and then some, of which every transfer is one to the
bridge. -/
def Extends (s t : State) : Prop :=
  t.params = s.params ∧ ∃ new, t.log = s.log ++ new ∧
    ∀ o ∈ new, o.isTransfer = true → o.upstream s.params.bridgeAddr = true

theorem Output.final_not_isTransfer {o : Output} (h : o.final = true) : ¬ o.isTransfer = true := by
  cases o <;> simp_all [Output.final, Output.isTransfer]

theorem extends_advance {s t : State} (h : advance s = .next t) : Extends s t := by
  obtain ⟨-, hparams, new, tail, hlog, hnew, -, htail⟩ := advance_served h
  refine ⟨hparams, new ++ tail, by rw [hlog, List.append_assoc], fun o ho htransfer => ?_⟩
  rcases List.mem_append.1 ho with ho | ho
  · exact hnew o ho
  · exact absurd htransfer (Output.final_not_isTransfer (htail o ho))

theorem extends_assertReset (d : ResetInput) (s : State) : Extends s (assertReset d s) :=
  ⟨rfl, [.reset], rfl, by simp [Output.isTransfer]⟩

theorem abandon_log (k : Nat) (d : ResetInput) (s t : State) :
    (abandon k d s t).log = s.log ++ cutAfter k (t.log.drop s.log.length) ++ [.reset] := rfl

/-- What an abandoned step has issued is among the outputs it would have made (R311). -/
theorem extends_abandon (k : Nat) (d : ResetInput) {s t : State} (h : Extends s t) : Extends s (abandon k d s t) := by
  obtain ⟨-, new, hlog, hnew⟩ := h
  refine ⟨rfl, cutAfter k (t.log.drop s.log.length) ++ [.reset], ?_, fun o ho htransfer => ?_⟩
  · rw [abandon_log, List.append_assoc]
  rw [hlog, List.drop_left, List.mem_append, List.mem_singleton] at ho
  rcases ho with ho | rfl
  · exact hnew o (mem_cutAfter ho).1 htransfer
  · cases htransfer

/-- Settles O21, by the three things a step can be. -/
theorem parametersFixedAndOutputsKept : Obligations.ParametersFixedAndOutputsKept := by
  intro s t e
  obtain ⟨-, e⟩ | ⟨d, -, -, rfl⟩ | ⟨d, k, u, -, -, hu, rfl⟩ := step_cases e
  · exact extends_advance e
  · exact extends_assertReset d s
  · exact extends_abandon k d (extends_advance hu)

end Sys2Proof.Machine
end

section
/-! Non-interference of the search states: a request that does not name channel `c` neither reads nor writes it
(spec/10_state.md R27). -/

namespace Sys2Proof.Machine

/-- The end of a request, past which `setSearch c x` moves where it moves past the rest of its rule. -/
theorem next_finish_setSearch {c : Fin 8} {x : SearchState} {v v' : Byte} {u u' : State} (hv : v' = v)
    (hu : u' = setSearch c x u) :
    (.next (finish v' u') : StepResult) = .next (setSearch c x (finish v u)) := by
  rw [hv, hu, finish_setSearch]

theorem next_finish_pair_setSearch {α : Type} {c : Fin 8} {x : SearchState} (f : α → Byte) {r r' : α × State}
    (h : r' = (r.1, setSearch c x r.2)) :
    (.next (finish (f r'.1) r'.2) : StepResult) = .next (setSearch c x (finish (f r.1) r.2)) := by
  rw [h, finish_setSearch]

/-- A request that does not name `c` does the same with another search state of `c` in place, and leaves that one. -/
theorem exec_setSearch {c : Fin 8} {i : Instr} (hi : i.searchChannel ≠ some c) (x : SearchState) (s : State) :
    ∃ t, exec i s = .next t ∧ exec i (setSearch c x s) = .next (setSearch c x t) := by
  have ne {d : Fin 8} (h : some d ≠ some c) : d ≠ c := fun e => h (congrArg some e)
  cases i with
  | brWb b => exact ⟨_, rfl, next_finish_setSearch rfl (writeByte_setSearch c x s b)⟩
  | brWb2 b b' => exact ⟨_, rfl, next_finish_setSearch rfl (writeByte2_setSearch c x s b b')⟩
  | brRb => exact ⟨_, rfl, next_finish_pair_setSearch id (readByte_setSearch c x s)⟩
  | brSrp b => exact ⟨_, rfl, next_finish_setSearch rfl (setReadPointer_setSearch c x s b)⟩
  | brRstat => exact ⟨_, rfl, next_finish_pair_setSearch id (readStatus_setSearch c x s)⟩
  | brRdata => exact ⟨_, rfl, next_finish_pair_setSearch id (readData_setSearch c x s)⟩
  | brRcfg => exact ⟨_, rfl, next_finish_pair_setSearch id (readConfig_setSearch c x s)⟩
  | brWcfg cfg => exact ⟨_, rfl, next_finish_pair_setSearch boolByte (writeConfig_setSearch c x s cfg)⟩
  | brWait => exact ⟨_, rfl, next_finish_pair_setSearch id (waitOnBusy_setSearch c x s)⟩
  | owReset => exact ⟨_, rfl, next_finish_pair_setSearch boolByte (wireReset_setSearch c x s)⟩
  | owWb b p => exact ⟨_, rfl, next_finish_setSearch rfl (wireWriteByte_setSearch c x s b p)⟩
  | owRb => exact ⟨_, rfl, next_finish_pair_setSearch id (wireReadByte_setSearch c x s)⟩
  | owWbit b p => exact ⟨_, rfl, next_finish_setSearch rfl (wireWriteBit_setSearch c x s b p)⟩
  | owRbit => exact ⟨_, rfl, next_finish_pair_setSearch boolByte (wireReadBit_setSearch c x s)⟩
  | owSkip => exact ⟨_, rfl, next_finish_setSearch rfl (wireWriteByte_setSearch c x s _ false)⟩
  | owSelect => exact ⟨_, rfl, next_finish_setSearch rfl (wireSelect_setSearch c x s)⟩
  | owChan d => exact ⟨_, rfl, next_finish_pair_setSearch boolByte (setChannel_setSearch c x s d)⟩
  | owTrip d => exact ⟨_, rfl, next_finish_pair_setSearch Triplet.byte (triplet_setSearch c x s d)⟩
  | owRframe => exact ⟨_, rfl, next_finish_setSearch rfl (readFrame_setSearch c x s frameIndexes)⟩
  | owPullup on =>
    have hwait := congrArg Prod.snd (waitOnBusy_setSearch c x s)
    cases on
    · exact ⟨_, rfl, next_finish_setSearch rfl ((congrArg spuClear hwait).trans (spuClear_setSearch c x _))⟩
    · exact ⟨_, rfl, next_finish_setSearch rfl ((congrArg spuEngage hwait).trans (spuEngage_setSearch c x _))⟩
  | srReset d => exact ⟨_, rfl, next_finish_setSearch rfl (setSearch_comm x s (ne hi) .fresh)⟩
  | srNext d => exact ⟨_, rfl, next_finish_pair_setSearch boolByte (wireSearch_setSearch x s (ne hi))⟩
  | srAll d =>
    refine ⟨_, rfl, congrArg Host.Outcome.next ?_⟩
    exact (congrArg (searchAllPass d 0) (setSearch_comm x s (ne hi) .fresh)).trans
      (searchAllPass_setSearch x _ (ne hi) 0)
  | srState d => exact ⟨_, rfl, next_finish_setSearch (congrArg SearchState.byte (ss_setSearch_ne x s (ne hi))) rfl⟩
  | srRomb d k =>
    have hss : (setSearch c x s).ss d = s.ss d := ss_setSearch_ne x s (ne hi)
    exact ⟨_, rfl, next_finish_setSearch (congrArg (fun y : SearchState => y.romBuf[k]) hss) rfl⟩
  | crcStep b b' => exact ⟨_, rfl, rfl⟩
  | crcAddr n => exact ⟨_, rfl, rfl⟩
  | crcFrame n => exact ⟨_, rfl, rfl⟩
  | crcChkaddr => exact ⟨_, rfl, next_finish_setSearch rfl (raiseIf_setSearch c x s _ _)⟩
  | crcChkframe => exact ⟨_, rfl, next_finish_setSearch rfl (raiseIf_setSearch c x s _ _)⟩
  | errRd => exact ⟨_, rfl, rfl⟩
  | errClr m => exact ⟨_, rfl, rfl⟩
  | addrSetb k v => exact ⟨_, rfl, rfl⟩
  | addrGetb k => exact ⟨_, rfl, rfl⟩
  | frameSetb k v => exact ⟨_, rfl, rfl⟩
  | frameGetb k => exact ⟨_, rfl, rfl⟩

theorem setSearch_ss_eq_self (c : Fin 8) (s : State) : setSearch c (s.ss c) s = s := by
  unfold setSearch State.ss
  simp

/-- Nothing written is a case of nothing read: put in place the search state that stands there. -/
theorem exec_ss_of_searchChannel_ne {c : Fin 8} {i : Instr} (hi : i.searchChannel ≠ some c) {s t : State}
    (e : exec i s = .next t) : t.ss c = s.ss c := by
  obtain ⟨t', e1, e2⟩ := exec_setSearch hi (s.ss c) s
  rw [setSearch_ss_eq_self] at e2
  obtain rfl := Host.Outcome.next.inj (e.symm.trans e2)
  exact setSearch_ss_self t' c _

/-- Settles O18: `setSearch` moves past each request and each turn that does not name its channel. -/
theorem searchStatesAreIndependent : Obligations.SearchStatesAreIndependent := by
  refine ⟨fun i s c x hi => ?_, fun d c n s x hd => ⟨?_, searchAllPass_setSearch x s hd n⟩⟩
  · obtain ⟨t, e, e'⟩ := exec_setSearch hi x s
    exact ⟨t, e, exec_ss_of_searchChannel_ne hi e, e'⟩
  · exact (searchAllPass_frame d n s).others c hd.symm

end Sys2Proof.Machine
end

section
/-! The configuration write and its readback (spec/10_state.md R36; spec/41_bridge_register.md R108). -/

namespace Sys2Proof.Machine

/-- A response is no read. -/
theorem lastRead_finish (v : Byte) (s : State) : lastRead (finish v s).log = lastRead s.log := by
  rw [finish_log, lastRead_append]; rfl

/-- Whatever the wait and the transfers do, the last byte read decides the match and whether `CM` is raised (R108). -/
theorem writeConfig_checks (cfg : Nibble) (s : State) :
    ∃ b, lastRead (writeConfig cfg s).2.log = some b ∧ (writeConfig cfg s).1 = (b == configReadback cfg) ∧
      (writeConfig cfg s).2.err.getLsbD 2 = (s.err.getLsbD 2 || b != configReadback cfg) := by
  let w := (waitOnBusy s).2
  let r := readByte (writeByte2 w.params.cmdWcfg (configByte cfg) w)
  have hran := ((ran_waitOnBusy s).trans (ran_writeByte2 w.params.cmdWcfg (configByte cfg) w)).trans (ran_readByte _)
  have hcm : r.2.err.getLsbD 2 = s.err.getLsbD 2 := hran.flag 2 rfl
  have hresult : writeConfig cfg s = (r.1 == configReadback cfg,
      raiseIf (r.1 != configReadback cfg) .configMismatch r.2) := rfl
  refine ⟨r.1, ?_, rfl, ?_⟩
  · rw [hresult, raiseIf_log]
    exact lastRead_readByte _
  · rw [hresult, ← hcm]
    cases r.1 != configReadback cfg
    · exact (Bool.or_false _).symm
    · exact getLsbD_raiseErr .configMismatch r.2 2

/-- Settles O27: the configuration write decides, and the response it is followed by reads nothing. -/
theorem configWriteChecksItsReadback : Obligations.ConfigWriteChecksItsReadback := by
  intro s cfg
  obtain ⟨b, hread, hmatch, hcm⟩ := writeConfig_checks cfg s
  exact ⟨_, b, rfl, (lastRead_finish _ _).trans hread, congrArg boolByte hmatch, hcm⟩

end Sys2Proof.Machine
end

section
/-! The idle controller (spec/20_memory.md R64; spec/70_reset_and_hazards.md R333). -/

namespace Sys2Proof.Machine

/-- Settles O8: the branch with nothing to do. -/
theorem idleControllerDoesNothing : Obligations.IdleControllerDoesNothing := by
  intro s hreset hrunning hrequests
  exact (step_of_noReset hreset).trans (advance_of_idle hrunning hrequests)

end Sys2Proof.Machine
end

section
/-! The bits of the packed identifier, byte by byte (spec/10_state.md R24; spec/20_memory.md R56, R58). -/

namespace Sys2Proof.Machine

theorem getLsbD_append_byte_of_lt {w : Nat} (x : BitVec w) (y : Byte) {j : Nat} (hj : j < 8) :
    (x ++ y).getLsbD j = y.getLsbD j := by
  rw [BitVec.getLsbD_append, if_pos hj]

/-- Past the low byte of a concatenation, byte `k + 1` is byte `k` of the rest. -/
theorem getLsbD_append_byte_add {w : Nat} (x : BitVec w) (y : Byte) (k j : Nat) :
    (x ++ y).getLsbD (8 * (k + 1) + j) = x.getLsbD (8 * k + j) := by
  have hge : ¬ 8 * (k + 1) + j < 8 := by omega
  have hsub : 8 * (k + 1) + j - 8 = 8 * k + j := by omega
  rw [BitVec.getLsbD_append, if_neg hge, hsub]

/-- Byte `k` of the packed identifier is the buffer's byte `k`: drop the `k` bytes below it from the concatenation. -/
theorem getLsbD_identOf (buf : Vector Byte 8) (k : Fin 8) {j : Nat} (hj : j < 8) :
    (identOf buf).getLsbD (8 * k.val + j) = buf[k].getLsbD j := by
  rw [identOf_eq_append]
  fin_cases k
  all_goals
    simp only [getLsbD_append_byte_add, getLsbD_append_byte_of_lt _ _ hj, Nat.mul_zero, Nat.zero_add]
    rfl

/-- Settles O53: position `i` is bit `i % 8` of byte `i / 8`, and `romBit` reads that bit by definition. -/
theorem bufferBitsAreIdentifierBits : Obligations.BufferBitsAreIdentifierBits := by
  intro buf i
  have hbyte : i.val / 8 < 8 := by omega
  have hbit : i.val % 8 < 8 := by omega
  have h := getLsbD_identOf buf ⟨i.val / 8, hbyte⟩ hbit
  rw [Nat.div_add_mod] at h
  exact ⟨h, rfl⟩

end Sys2Proof.Machine
end

section
/-! The device select: match ROM and the eight identifier bytes (spec/20_memory.md R57; spec/42_onewire.md R155). -/

namespace Sys2Proof.Machine

/-- Whatever its waits find, the match ROM command and then `ADDR`, which no byte write changes, one part each. -/
theorem parts_wireSelect (s : State) : ∃ xs : List Segment,
    xs.map Segment.body = (s.params.romMatch :: s.addr.toList).map (fun b => [.wr [s.params.cmd1wwb, b]]) ∧
      Parts xs s (wireSelect s) := by
  let t := wireWriteByte s.params.romMatch false s
  have haddr : t.addr = s.addr := (same_wireWriteByte s.params.romMatch false s).addr
  obtain ⟨n, hmatch⟩ := parts_wireWriteByte s.params.romMatch s
  obtain ⟨xs, hbodies, hsend⟩ := parts_sendAddr addrIndexes t
  refine ⟨⟨n, [.wr [s.params.cmd1wwb, s.params.romMatch]]⟩ :: xs, ?_, hmatch.trans hsend⟩
  rw [List.map_cons, hbodies, hmatch.later.params, ← haddr, ← map_addrByte, List.map_cons, List.map_map]
  rfl

/-- Settles O36: the parts of the select for any waits, and its transfers where each wait takes one poll. -/
theorem selectSendsTheIdentifier : Obligations.SelectSendsTheIdentifier := by
  refine ⟨fun s => ?_, fun s hidle => ?_⟩
  · obtain ⟨xs, hbodies, hparts⟩ := parts_wireSelect s
    exact ⟨xs, hbodies, issues_of_parts rfl hparts⟩
  · have hselect := wireSelect_idle hidle
    rw [map_addrByte] at hselect
    exact congrArg (fun t => (.next (finish 0x00#8 t) : StepResult)) hselect

end Sys2Proof.Machine
end

section
/-! Decoding what was encoded (spec/30_encoding.md R80 to R82, R86): when a row of the decoder accepts, and each operand
as a field and back. -/

namespace Sys2Proof

/-! ### When a row accepts -/

theorem accept_eq_ok {b : Bool} {i j : Instr} (hb : b = true) (hij : i = j) : accept b i = .ok j := by
  rw [accept, if_pos hb, hij]

theorem acceptIdx_eq_ok {n : Nat} {b : Bool} {f : Fields} {i : Fin n → Instr} {j : Instr} (hb : b = true)
    (hn : f.idx.toNat < n) (hij : i ⟨f.idx.toNat, hn⟩ = j) : acceptIdx n b f i = .ok j := by
  rw [acceptIdx, if_pos hb, dif_pos hn, hij]

theorem acceptChan_eq_ok {n : Nat} {b : Bool} {f : Fields} {i : Fin 8 → Instr} {j : Instr} (hn : f.idx.toNat < n)
    (hb : b = true) (h8 : f.idx.toNat < 8) (hij : i ⟨f.idx.toNat, h8⟩ = j) : acceptChan n b f i = .ok j := by
  rw [acceptChan, if_pos hn, acceptIdx_eq_ok hb h8 hij]

/-! ### Operands as fields, and back (R81) -/

theorem toNat_idxOf {n : Nat} (hn : n ≤ 16) (k : Fin n) : (idxOf k).toNat = k.val := by
  rw [idxOf, BitVec.toNat_ofNat, Nat.mod_eq_of_lt (Nat.lt_of_lt_of_le k.isLt hn)]

theorem idxOf_toNat {n : Nat} {x : BitVec 4} (h : x.toNat < n) : idxOf (⟨x.toNat, h⟩ : Fin n) = x := by
  rw [idxOf, BitVec.ofNat_toNat, BitVec.setWidth_eq]

theorem extractLsb'_low_setWidth {k : Nat} (hk : k ≤ 8) (y : BitVec k) : (y.setWidth 8).extractLsb' 0 k = y := by
  rw [BitVec.extractLsb'_setWidth_of_le (by omega), BitVec.extractLsb'_eq_self]

theorem extractLsb'_high_setWidth {k m : Nat} (y : BitVec k) : (y.setWidth 8).extractLsb' k m = 0#m := by
  ext i hi
  simp

/-- A byte whose bits from `k` up are 0 is its low `k` bits, extended by zeros. -/
theorem setWidth_extractLsb'_low {k m : Nat} (hk : k + m = 8) {x : Byte} (hx : x.extractLsb' k m = 0#m) :
    (x.extractLsb' 0 k).setWidth 8 = x := by
  apply BitVec.eq_of_getLsbD_eq; intro i hi
  by_cases hik : i < k
  · simp [hik, hi]
  · have hbit := congrArg (·.getLsbD (i - k)) hx
    simp only [BitVec.getLsbD_extractLsb', BitVec.getLsbD_zero] at hbit
    rw [show k + (i - k) = i by omega, decide_eq_true (by omega : i - k < m), Bool.true_and] at hbit
    simp [hik, hbit]

theorem extractLsb'_one (x : Byte) (k : Nat) : x.extractLsb' k 1 = BitVec.ofBool (x.getLsbD k) := by
  ext i hi
  obtain rfl : i = 0 := by omega
  simp

theorem getLsbD_bitImm (b : Bool) : (bitImm b).getLsbD 0 = b := by cases b <;> rfl

theorem immBit_bitImm {f : Fields} {b : Bool} (h : f.imm = bitImm b) : f.immBit = true := by
  rw [Fields.immBit, h]; cases b <;> rfl

theorem bitImm_of_immBit {f : Fields} (h : f.immBit = true) : bitImm (f.imm.getLsbD 0) = f.imm := by
  rw [bitImm, ← extractLsb'_one]
  exact setWidth_extractLsb'_low rfl (eq_of_beq h)

theorem extractLsb'_bit7_eq_zero_iff {x : Byte} : x.extractLsb' 7 1 = 0#1 ↔ (!x.getLsbD 7) = true := by
  rw [extractLsb'_one]
  cases x.getLsbD 7 <;> decide

theorem ofNat_val_eq_setWidth (k : Fin 8) : BitVec.ofNat 8 k.val = (BitVec.ofFin k : BitVec 3).setWidth 8 := by
  rw [← BitVec.ofNat_toNat]; rfl

/-! ### Decoding what was encoded -/

theorem acceptIdx_idxOf {n : Nat} {b : Bool} {f : Fields} {i : Fin n → Instr} {j : Instr} {k : Fin n} (hb : b = true)
    (hk : f.idx = idxOf k) (hij : i k = j) (hn : n ≤ 16 := by decide) : acceptIdx n b f i = .ok j := by
  have hval : f.idx.toNat = k.val := by rw [hk, toNat_idxOf hn]
  have hlt : f.idx.toNat < n := hval ▸ k.isLt
  have hfin : ⟨f.idx.toNat, hlt⟩ = k := Fin.ext hval
  exact acceptIdx_eq_ok hb hlt (hfin ▸ hij)

theorem acceptChan_idxOf {n : Nat} {b : Bool} {f : Fields} {i : Fin 8 → Instr} {j : Instr} {c : Fin 8}
    (hn : c.val < n) (hb : b = true) (hc : f.idx = idxOf c) (hij : i c = j) : acceptChan n b f i = .ok j := by
  have hval : f.idx.toNat = c.val := by rw [hc, toNat_idxOf (by decide)]
  rw [acceptChan, if_pos (hval ▸ hn), acceptIdx_idxOf hb hc hij]

/-- The decoder meets the row of the request, finds the unused bits 0, and reads each operand back (R81, R82). -/
theorem decodeFields_encodeFields {n : Nat} {i : Instr} (h : i.wf n = true) :
    decodeFields n (encodeFields i) = .ok i := by
  cases i with
  | brRb | brRstat | brRdata | brRcfg | brWait | owReset | owRb | owRbit | owSkip | owSelect | owRframe
  | crcChkaddr | crcChkframe | errRd => rfl
  | brWb | brWb2 | brSrp | owWb | crcStep => exact accept_eq_ok rfl rfl
  | brWcfg cfg =>
    exact accept_eq_ok (beq_of_eq (extractLsb'_high_setWidth cfg)) (congrArg _ (extractLsb'_low_setWidth (by decide) cfg))
  | owWbit b p => exact accept_eq_ok (immBit_bitImm rfl) (congrArg (Instr.owWbit · p) (getLsbD_bitImm b))
  | owTrip d => exact accept_eq_ok (immBit_bitImm rfl) (congrArg _ (getLsbD_bitImm d))
  | owPullup on => exact accept_eq_ok (immBit_bitImm rfl) (congrArg _ (getLsbD_bitImm on))
  | owChan c =>
    obtain ⟨hc, rfl⟩ : c.val < n ∧ n = 8 := by simpa [Instr.wf] using h
    exact acceptChan_idxOf hc rfl rfl rfl
  | srReset c | srNext c | srAll c | srState c => exact acceptChan_idxOf (of_decide_eq_true h) rfl rfl rfl
  | srRomb c k =>
    have himm : (encodeFields (.srRomb c k)).imm = (BitVec.ofFin k : BitVec 3).setWidth 8 := ofNat_val_eq_setWidth k
    refine acceptChan_idxOf (of_decide_eq_true h) (beq_of_eq ?_) rfl (congrArg (Instr.srRomb c) ?_)
    · rw [himm, extractLsb'_high_setWidth]; rfl
    · rw [himm, extractLsb'_low_setWidth (by decide)]
  | errClr m =>
    refine accept_eq_ok ?_ (congrArg Instr.errClr (extractLsb'_low_setWidth (by decide) m))
    show (!(m.setWidth 8).getLsbD 7) = true
    simp
  | crcAddr | crcFrame | addrGetb | frameGetb => exact acceptIdx_idxOf rfl rfl rfl
  | addrSetb k b => exact acceptIdx_idxOf (i := fun k => .addrSetb k b) rfl rfl rfl
  | frameSetb k b => exact acceptIdx_idxOf (i := fun k => .frameSetb k b) rfl rfl rfl

/-- Settles O3: packing loses no field, and the decoder reads the fields of a well-formed request back. -/
theorem decodeOfEncode : Obligations.DecodeOfEncode := by
  intro n i h
  rw [decode, encode, unpack_pack]
  exact decodeFields_encodeFields h

end Sys2Proof
end

section
/-! Encoding what was decoded (spec/30_encoding.md R80 to R82, R87): where a row accepts, no bit of the word is ignored. -/

namespace Sys2Proof

/-! ### The fields of a word whose unused fields are 0 -/

/-- Equality field by field, with `op` compared as the number the decoder branches on. -/
theorem fields_eq {f g : Fields} (hop : g.op.toNat = f.op.toNat) (himm : f.imm = g.imm) (hidx : f.idx = g.idx)
    (hp : f.p = g.p) (hrsv : f.rsv = g.rsv) (himm2 : f.imm2 = g.imm2) : f = g := by
  have := BitVec.eq_of_toNat_eq hop
  cases f; cases g; simp_all

theorem onlyImm_iff {f : Fields} : f.onlyImm = true ↔ f.idx = 0#4 ∧ f.p = false ∧ f.rsv = 0#3 ∧ f.imm2 = 0#8 := by
  simp [Fields.onlyImm, and_assoc]

theorem onlyImms_iff {f : Fields} : f.onlyImms = true ↔ f.idx = 0#4 ∧ f.p = false ∧ f.rsv = 0#3 := by
  simp [Fields.onlyImms, and_assoc]

theorem onlyImmP_iff {f : Fields} : f.onlyImmP = true ↔ f.idx = 0#4 ∧ f.rsv = 0#3 ∧ f.imm2 = 0#8 := by
  simp [Fields.onlyImmP, and_assoc]

theorem onlyIdxImm_iff {f : Fields} : f.onlyIdxImm = true ↔ f.p = false ∧ f.rsv = 0#3 ∧ f.imm2 = 0#8 := by
  simp [Fields.onlyIdxImm, and_assoc]

theorem onlyOp_iff {f : Fields} :
    f.onlyOp = true ↔ (f.idx = 0#4 ∧ f.p = false ∧ f.rsv = 0#3 ∧ f.imm2 = 0#8) ∧ f.imm = 0#8 := by
  rw [Fields.onlyOp, Bool.and_eq_true, onlyImm_iff, beq_iff_eq]; rfl

theorem onlyIdx_iff {f : Fields} : f.onlyIdx = true ↔ (f.p = false ∧ f.rsv = 0#3 ∧ f.imm2 = 0#8) ∧ f.imm = 0#8 := by
  rw [Fields.onlyIdx, Bool.and_eq_true, onlyIdxImm_iff, beq_iff_eq]; rfl

theorem eq_of_onlyOp {f : Fields} {op : Byte} (hop : f.op.toNat = op.toNat) (h : f.onlyOp = true) : .bare op = f := by
  obtain ⟨⟨hidx, hp, hrsv, himm2⟩, himm⟩ := onlyOp_iff.1 h
  exact fields_eq hop himm.symm hidx.symm hp.symm hrsv.symm himm2.symm

theorem eq_of_onlyImm {f : Fields} {op imm : Byte} (hop : f.op.toNat = op.toNat) (h : f.onlyImm = true)
    (himm : imm = f.imm) : { Fields.bare op with imm := imm } = f := by
  obtain ⟨hidx, hp, hrsv, himm2⟩ := onlyImm_iff.1 h
  exact fields_eq hop himm hidx.symm hp.symm hrsv.symm himm2.symm

theorem eq_of_onlyImms {f : Fields} {op : Byte} (hop : f.op.toNat = op.toNat) (h : f.onlyImms = true) :
    { Fields.bare op with imm := f.imm, imm2 := f.imm2 } = f := by
  obtain ⟨hidx, hp, hrsv⟩ := onlyImms_iff.1 h
  exact fields_eq hop rfl hidx.symm hp.symm hrsv.symm rfl

theorem eq_of_onlyImmP {f : Fields} {op imm : Byte} (hop : f.op.toNat = op.toNat) (h : f.onlyImmP = true)
    (himm : imm = f.imm) : { Fields.bare op with imm := imm, p := f.p } = f := by
  obtain ⟨hidx, hrsv, himm2⟩ := onlyImmP_iff.1 h
  exact fields_eq hop himm hidx.symm rfl hrsv.symm himm2.symm

theorem eq_of_onlyIdxImm {f : Fields} {op imm : Byte} {idx : BitVec 4} (hop : f.op.toNat = op.toNat)
    (h : f.onlyIdxImm = true) (hidx : idx = f.idx) (himm : imm = f.imm) :
    { Fields.bare op with idx := idx, imm := imm } = f := by
  obtain ⟨hp, hrsv, himm2⟩ := onlyIdxImm_iff.1 h
  exact fields_eq hop himm hidx hp.symm hrsv.symm himm2.symm

theorem eq_of_onlyIdx {f : Fields} {op : Byte} {idx : BitVec 4} (hop : f.op.toNat = op.toNat) (h : f.onlyIdx = true)
    (hidx : idx = f.idx) : { Fields.bare op with idx := idx } = f := by
  obtain ⟨⟨hp, hrsv, himm2⟩, himm⟩ := onlyIdx_iff.1 h
  exact fields_eq hop himm.symm hidx hp.symm hrsv.symm himm2.symm

/-! ### What a row accepts -/

/-- The request has these fields, and it is well-formed for this number of channels. -/
def Instr.hasFields (n : Nat) (f : Fields) (i : Instr) : Prop := encodeFields i = f ∧ i.wf n = true

section
variable {n : Nat} {b : Bool} {f : Fields} {j : Instr}

theorem hasFields_of_accept {i : Instr} (h : accept b i = .ok j) (hi : b = true → encodeFields i = f)
    (hwf : i.wf n = true := by rfl) : j.hasFields n f := by
  obtain ⟨hb, rfl⟩ := accept_ok h
  exact ⟨hi hb, hwf⟩

theorem hasFields_of_accept_and {b' : Bool} {i : Instr} (h : accept (b && b') i = .ok j)
    (hi : b = true → b' = true → encodeFields i = f) (hwf : i.wf n = true := by rfl) : j.hasFields n f :=
  hasFields_of_accept h (fun hu => (Bool.and_eq_true_iff.1 hu).elim hi) hwf

theorem hasFields_of_acceptIdx {m : Nat} {i : Fin m → Instr} (h : acceptIdx m b f i = .ok j)
    (hi : b = true → ∀ k : Fin m, idxOf k = f.idx → encodeFields (i k) = f)
    (hwf : ∀ k, (i k).wf n = true := by exact fun _ => rfl) : j.hasFields n f := by
  obtain ⟨hb, hm, rfl⟩ := acceptIdx_ok h
  exact ⟨hi hb _ (idxOf_toNat hm), hwf _⟩

theorem hasFields_of_acceptChan {i : Fin 8 → Instr} (h : acceptChan n b f i = .ok j)
    (hi : b = true → ∀ c : Fin 8, idxOf c = f.idx → encodeFields (i c) = f)
    (hwf : ∀ c, (i c).wf n = decide (c.val < n) := by exact fun _ => rfl) : j.hasFields n f := by
  obtain ⟨hn, hb, h8, rfl⟩ := acceptChan_ok h
  exact ⟨hi hb _ (idxOf_toNat h8), (hwf _).trans (decide_eq_true hn)⟩

end

/-- The rows `h_1` to `h_36` are those of the opcode map in its order, grouped by the fields they use; `h_37` is a
reserved `op` (R86, R87). -/
theorem hasFields_of_decodeFields {n : Nat} {f : Fields} {i : Instr} (h : decodeFields n f = .ok i) :
    i.hasFields n f := by
  unfold decodeFields at h
  split at h
  case h_3 hop | h_5 hop | h_6 hop | h_7 hop | h_9 hop | h_10 hop | h_12 hop | h_14 hop | h_15 hop | h_16 hop
    | h_19 hop | h_29 hop | h_30 hop | h_31 hop =>
    exact hasFields_of_accept h (eq_of_onlyOp hop)
  case h_1 hop | h_4 hop => exact hasFields_of_accept h fun hu => eq_of_onlyImm hop hu rfl
  case h_2 hop | h_26 hop => exact hasFields_of_accept h (eq_of_onlyImms hop)
  case h_8 hop =>
    exact hasFields_of_accept_and h fun hu hcfg => eq_of_onlyImm hop hu (setWidth_extractLsb'_low rfl (eq_of_beq hcfg))
  case h_32 hop =>
    exact hasFields_of_accept_and h fun hu hbit7 =>
      eq_of_onlyImm hop hu (setWidth_extractLsb'_low rfl (extractLsb'_bit7_eq_zero_iff.2 hbit7))
  case h_11 hop => exact hasFields_of_accept h fun hu => eq_of_onlyImmP hop hu rfl
  case h_13 hop => exact hasFields_of_accept_and h fun hu hbit => eq_of_onlyImmP hop hu (bitImm_of_immBit hbit)
  case h_18 hop | h_20 hop =>
    exact hasFields_of_accept_and h fun hu hbit => eq_of_onlyImm hop hu (bitImm_of_immBit hbit)
  case h_17 hop =>
    split at h
    · next h8 =>
      subst h8
      exact hasFields_of_acceptChan h (fun hu c => eq_of_onlyIdx hop hu) fun _ => Bool.and_true _
    · cases h
  case h_21 hop | h_22 hop | h_23 hop | h_24 hop => exact hasFields_of_acceptChan h fun hu c => eq_of_onlyIdx hop hu
  case h_25 hop =>
    refine hasFields_of_acceptChan h fun hu c hc => ?_
    obtain ⟨hu, hbyte⟩ := Bool.and_eq_true_iff.1 hu
    refine eq_of_onlyIdxImm hop hu hc ((ofNat_val_eq_setWidth _).trans ?_)
    exact setWidth_extractLsb'_low rfl (eq_of_beq hbyte)
  case h_27 hop | h_28 hop | h_34 hop | h_36 hop => exact hasFields_of_acceptIdx h fun hu k => eq_of_onlyIdx hop hu
  case h_33 hop | h_35 hop => exact hasFields_of_acceptIdx h fun hu k hk => eq_of_onlyIdxImm hop hu hk rfl
  case h_37 => cases h

/-- Settles O4: the request has the word's fields, and packing the fields of a word gives the word. -/
theorem encodeOfDecode : Obligations.EncodeOfDecode := by
  intro n w i h
  obtain ⟨hfields, hwf⟩ := hasFields_of_decodeFields h
  exact ⟨by rw [encode, hfields, pack_unpack], hwf⟩

end Sys2Proof
end

section
/-! The rows of the opcode table (spec/30_encoding.md R82, R86): a row is known by its `op`, and the words that meet a
row's mask, match and bound are the legal ones. -/

namespace Sys2Proof

/-! ### The mask and the match, field by field -/

/-- The request's `op` (R86). -/
def Instr.opcode (i : Instr) : Byte := (encodeFields i).op

/-- The mask of the request's row, by the fields of format Q. -/
def Instr.rowMask : Instr → Fields
  | .brRb | .brRstat | .brRdata | .brRcfg | .brWait | .owReset | .owRb | .owRbit | .owSkip | .owSelect | .owRframe
  | .crcChkaddr | .crcChkframe | .errRd => ⟨0xFF, 0xFF, 0xF, true, 0x7, 0xFF⟩
  | .brWb _ | .brSrp _ => ⟨0xFF, 0x00, 0xF, true, 0x7, 0xFF⟩
  | .brWb2 _ _ | .crcStep _ _ => ⟨0xFF, 0x00, 0xF, true, 0x7, 0x00⟩
  | .brWcfg _ => ⟨0xFF, 0xF0, 0xF, true, 0x7, 0xFF⟩
  | .errClr _ => ⟨0xFF, 0x80, 0xF, true, 0x7, 0xFF⟩
  | .owTrip _ | .owPullup _ => ⟨0xFF, 0xFE, 0xF, true, 0x7, 0xFF⟩
  | .owWb _ _ => ⟨0xFF, 0x00, 0xF, false, 0x7, 0xFF⟩
  | .owWbit _ _ => ⟨0xFF, 0xFE, 0xF, false, 0x7, 0xFF⟩
  | .owChan _ | .srReset _ | .srNext _ | .srAll _ | .srState _ | .addrGetb _ => ⟨0xFF, 0xFF, 0x8, true, 0x7, 0xFF⟩
  | .crcAddr _ | .crcFrame _ | .frameGetb _ => ⟨0xFF, 0xFF, 0x0, true, 0x7, 0xFF⟩
  | .srRomb _ _ => ⟨0xFF, 0xF8, 0x8, true, 0x7, 0xFF⟩
  | .addrSetb _ _ => ⟨0xFF, 0x00, 0x8, true, 0x7, 0xFF⟩
  | .frameSetb _ _ => ⟨0xFF, 0x00, 0x0, true, 0x7, 0xFF⟩

theorem unpack_row (j : Instr) : unpack j.row.1 = j.rowMask ∧ unpack j.row.2 = .bare j.opcode := by
  cases j <;> (rw [Instr.row]; exact ⟨rfl, rfl⟩)

theorem rowMask_op (j : Instr) : j.rowMask.op = 0xFF#8 := by cases j <;> rfl

theorem rowMask_rsv (j : Instr) : j.rowMask.rsv = 0x7#3 := by cases j <;> rfl

theorem eq_of_and_ones {k : Nat} {x y mask : BitVec k} (hmask : mask = BitVec.allOnes k) (h : x &&& mask = y) :
    x = y := by
  rwa [hmask, BitVec.and_allOnes] at h

/-- A byte is 0 where a mask with ones there makes it 0. -/
theorem extractLsb'_eq_zero_of_and {k m : Nat} {x mask : Byte} (hmask : mask.extractLsb' k m = BitVec.allOnes m)
    (h : x &&& mask = 0#8) : x.extractLsb' k m = 0#m := by
  have hand := congrArg (BitVec.extractLsb' k m) h
  rw [BitVec.extractLsb'_and, BitVec.extractLsb'_zero] at hand
  exact eq_of_and_ones hmask hand

/-- The word with the fields `f` meets the mask and the match of the row of `j`, field by field. -/
structure Fields.MatchesRow (f : Fields) (j : Instr) : Prop where
  op : f.op = j.opcode
  imm : f.imm &&& j.rowMask.imm = 0#8
  idx : f.idx &&& j.rowMask.idx = 0#4
  p : j.rowMask.p = true → f.p = false
  rsv : f.rsv = 0#3
  imm2 : f.imm2 &&& j.rowMask.imm2 = 0#8

/-- Bitwise and, field by field. -/
def Fields.and (f g : Fields) : Fields :=
  ⟨f.op &&& g.op, f.imm &&& g.imm, f.idx &&& g.idx, f.p && g.p, f.rsv &&& g.rsv, f.imm2 &&& g.imm2⟩

theorem unpack_and (w mask : Request) : unpack (w &&& mask) = (unpack w).and (unpack mask) := by
  simp [unpack, Fields.and, BitVec.extractLsb'_and]

theorem matchesRow_of_and {w : Request} {j : Instr} (h : w &&& j.row.1 = j.row.2) : (unpack w).MatchesRow j := by
  obtain ⟨hmask, hmatch⟩ := unpack_row j
  have hand : (unpack w).and j.rowMask = .bare j.opcode := by rw [← hmask, ← unpack_and, h, hmatch]
  obtain ⟨hop, himm, hidx, hp, hrsv, himm2⟩ := Fields.mk.inj hand
  exact ⟨eq_of_and_ones (rowMask_op j) hop, himm, hidx, fun hones => by rwa [hones, Bool.and_true] at hp,
    eq_of_and_ones (rowMask_rsv j) hrsv, himm2⟩

/-! ### A row is known by its `op` -/

/-- The request that has the `op` of `i` and 0 for all operands has the row of `i`. -/
theorem row_of_bare_opcode (i : Instr) : ∃ r, decodeFields 8 (.bare i.opcode) = .ok r ∧ r.row = i.row := by
  cases i <;> (dsimp only [Instr.opcode, encodeFields, Fields.bare]; exact ⟨_, rfl, rfl⟩)

theorem row_eq_of_opcode_eq {i j : Instr} (h : i.opcode = j.opcode) : i.row = j.row := by
  obtain ⟨r, hr, hri⟩ := row_of_bare_opcode i
  obtain ⟨r', hr', hrj⟩ := row_of_bare_opcode j
  rw [h, hr'] at hr
  cases hr
  exact hri.symm.trans hrj

/-- Settles O5: every row fixes `op`, and a row is known by its `op`. -/
theorem rowsDoNotOverlap : Obligations.RowsDoNotOverlap := by
  intro w i j hi hj
  exact row_eq_of_opcode_eq ((matchesRow_of_and hi).op.symm.trans (matchesRow_of_and hj).op)

/-! ### The words of a row are legal (R82) -/

section
variable {f : Fields} {j : Instr}

theorem Fields.MatchesRow.onlyImm (h : f.MatchesRow j) (hidx : j.rowMask.idx = 0xF#4) (hp : j.rowMask.p = true)
    (himm2 : j.rowMask.imm2 = 0xFF#8) : f.onlyImm = true :=
  onlyImm_iff.2 ⟨eq_of_and_ones hidx h.idx, h.p hp, h.rsv, eq_of_and_ones himm2 h.imm2⟩

theorem Fields.MatchesRow.onlyImms (h : f.MatchesRow j) (hidx : j.rowMask.idx = 0xF#4) (hp : j.rowMask.p = true) :
    f.onlyImms = true :=
  onlyImms_iff.2 ⟨eq_of_and_ones hidx h.idx, h.p hp, h.rsv⟩

theorem Fields.MatchesRow.onlyImmP (h : f.MatchesRow j) (hidx : j.rowMask.idx = 0xF#4)
    (himm2 : j.rowMask.imm2 = 0xFF#8) : f.onlyImmP = true :=
  onlyImmP_iff.2 ⟨eq_of_and_ones hidx h.idx, h.rsv, eq_of_and_ones himm2 h.imm2⟩

theorem Fields.MatchesRow.onlyIdxImm (h : f.MatchesRow j) (hp : j.rowMask.p = true)
    (himm2 : j.rowMask.imm2 = 0xFF#8) : f.onlyIdxImm = true :=
  onlyIdxImm_iff.2 ⟨h.p hp, h.rsv, eq_of_and_ones himm2 h.imm2⟩

theorem Fields.MatchesRow.onlyOp (h : f.MatchesRow j) (hidx : j.rowMask.idx = 0xF#4) (hp : j.rowMask.p = true)
    (himm2 : j.rowMask.imm2 = 0xFF#8) (himm : j.rowMask.imm = 0xFF#8) : f.onlyOp = true :=
  Bool.and_eq_true_iff.2 ⟨h.onlyImm hidx hp himm2, beq_of_eq (eq_of_and_ones himm h.imm)⟩

theorem Fields.MatchesRow.onlyIdx (h : f.MatchesRow j) (hp : j.rowMask.p = true) (himm2 : j.rowMask.imm2 = 0xFF#8)
    (himm : j.rowMask.imm = 0xFF#8) : f.onlyIdx = true :=
  Bool.and_eq_true_iff.2 ⟨h.onlyIdxImm hp himm2, beq_of_eq (eq_of_and_ones himm h.imm)⟩

/-- Where the row's operand is in the low `k` bits of `imm`, the bits above are 0. -/
theorem Fields.MatchesRow.imm_high {mask : Byte} {k m : Nat} (h : f.MatchesRow j) (himm : j.rowMask.imm = mask)
    (hmask : mask.extractLsb' k m = BitVec.allOnes m) : f.imm.extractLsb' k m = 0#m :=
  extractLsb'_eq_zero_of_and (himm ▸ hmask) h.imm

end

/-- In the row of `j` the decoder asks for unused fields that are 0, which the row's mask has ensured, and for the bound
on `idx`. -/
theorem decodeFields_of_matchesRow {n : Nat} {f : Fields} {j : Instr} (h : f.MatchesRow j)
    (hbound : ∀ bound, Machine.idxBound n j = some bound → f.idx.toNat < bound) (hn : n ≤ 8)
    (hchan : ∀ c, j = .owChan c → n = 8) : ∃ i, decodeFields n f = .ok i := by
  obtain ⟨op, imm, idx, p, rsv, imm2⟩ := f
  obtain rfl : op = j.opcode := h.op
  cases j with
  | brRb | brRstat | brRdata | brRcfg | brWait | owReset | owRb | owRbit | owSkip | owSelect | owRframe
  | crcChkaddr | crcChkframe | errRd => exact ⟨_, accept_eq_ok (h.onlyOp rfl rfl rfl rfl) rfl⟩
  | brWb | brSrp => exact ⟨_, accept_eq_ok (h.onlyImm rfl rfl rfl) rfl⟩
  | brWb2 | crcStep => exact ⟨_, accept_eq_ok (h.onlyImms rfl rfl) rfl⟩
  | owWb => exact ⟨_, accept_eq_ok (h.onlyImmP rfl rfl) rfl⟩
  | brWcfg =>
    have hcfg := h.imm_high (mask := 0xF0#8) (k := 4) (m := 4) rfl rfl
    exact ⟨_, accept_eq_ok (Bool.and_eq_true_iff.2 ⟨h.onlyImm rfl rfl rfl, beq_of_eq hcfg⟩) rfl⟩
  | errClr =>
    have hbit7 := extractLsb'_bit7_eq_zero_iff.1 (h.imm_high (mask := 0x80#8) rfl rfl)
    exact ⟨_, accept_eq_ok (Bool.and_eq_true_iff.2 ⟨h.onlyImm rfl rfl rfl, hbit7⟩) rfl⟩
  | owWbit =>
    have hbit := h.imm_high (mask := 0xFE#8) (k := 1) (m := 7) rfl rfl
    exact ⟨_, accept_eq_ok (Bool.and_eq_true_iff.2 ⟨h.onlyImmP rfl rfl, beq_of_eq hbit⟩) rfl⟩
  | owTrip | owPullup =>
    have hbit := h.imm_high (mask := 0xFE#8) (k := 1) (m := 7) rfl rfl
    exact ⟨_, accept_eq_ok (Bool.and_eq_true_iff.2 ⟨h.onlyImm rfl rfl rfl, beq_of_eq hbit⟩) rfl⟩
  | owChan c =>
    obtain rfl := hchan c rfl
    exact ⟨_, acceptChan_eq_ok (hbound 8 rfl) (h.onlyIdx rfl rfl rfl) (hbound 8 rfl) rfl⟩
  | srReset | srNext | srAll | srState =>
    have hlt := hbound n rfl
    exact ⟨_, acceptChan_eq_ok hlt (h.onlyIdx rfl rfl rfl) (Nat.lt_of_lt_of_le hlt hn) rfl⟩
  | srRomb =>
    have hlt := hbound n rfl
    have hbyte := h.imm_high (mask := 0xF8#8) (k := 3) (m := 5) rfl rfl
    have hunused := Bool.and_eq_true_iff.2 ⟨h.onlyIdxImm rfl rfl, beq_of_eq hbyte⟩
    exact ⟨_, acceptChan_eq_ok hlt hunused (Nat.lt_of_lt_of_le hlt hn) rfl⟩
  | crcAddr | crcFrame | addrGetb | frameGetb =>
    exact ⟨_, acceptIdx_eq_ok (h.onlyIdx rfl rfl rfl) (hbound _ rfl) rfl⟩
  | addrSetb =>
    exact ⟨_, acceptIdx_eq_ok (i := fun k => .addrSetb k imm) (h.onlyIdxImm rfl rfl) (hbound 8 rfl) rfl⟩
  | frameSetb =>
    exact ⟨_, acceptIdx_eq_ok (i := fun k => .frameSetb k imm) (h.onlyIdxImm rfl rfl) (hbound 9 rfl) rfl⟩

/-- The word of a request matches its row: `Laws.RowMatch`, one constructor at a time. -/
theorem encode_and_row (i : Instr) : encode i &&& i.row.1 = i.row.2 := by
  cases i with
  | brWb b => exact Laws.RowMatch.brWb b
  | brWb2 b b' => exact Laws.RowMatch.brWb2 b b'
  | brRb => exact Laws.RowMatch.brRb
  | brSrp b => exact Laws.RowMatch.brSrp b
  | brRstat => exact Laws.RowMatch.brRstat
  | brRdata => exact Laws.RowMatch.brRdata
  | brRcfg => exact Laws.RowMatch.brRcfg
  | brWcfg cfg => exact Laws.RowMatch.brWcfg cfg
  | brWait => exact Laws.RowMatch.brWait
  | owReset => exact Laws.RowMatch.owReset
  | owWb b p => exact Laws.RowMatch.owWb b p
  | owRb => exact Laws.RowMatch.owRb
  | owWbit b p => exact Laws.RowMatch.owWbit b p
  | owRbit => exact Laws.RowMatch.owRbit
  | owSkip => exact Laws.RowMatch.owSkip
  | owSelect => exact Laws.RowMatch.owSelect
  | owChan c => exact Laws.RowMatch.owChan c
  | owTrip d => exact Laws.RowMatch.owTrip d
  | owRframe => exact Laws.RowMatch.owRframe
  | owPullup on => exact Laws.RowMatch.owPullup on
  | srReset c => exact Laws.RowMatch.srReset c
  | srNext c => exact Laws.RowMatch.srNext c
  | srAll c => exact Laws.RowMatch.srAll c
  | srState c => exact Laws.RowMatch.srState c
  | srRomb c k => exact Laws.RowMatch.srRomb c k
  | crcStep b b' => exact Laws.RowMatch.crcStep b b'
  | crcAddr k => exact Laws.RowMatch.crcAddr k
  | crcFrame k => exact Laws.RowMatch.crcFrame k
  | crcChkaddr => exact Laws.RowMatch.crcChkaddr
  | crcChkframe => exact Laws.RowMatch.crcChkframe
  | errRd => exact Laws.RowMatch.errRd
  | errClr m => exact Laws.RowMatch.errClr m
  | addrSetb k b => exact Laws.RowMatch.addrSetb k b
  | addrGetb k => exact Laws.RowMatch.addrGetb k
  | frameSetb k b => exact Laws.RowMatch.frameSetb k b
  | frameGetb k => exact Laws.RowMatch.frameGetb k

/-- What `wf` asks of a channel, and what the types ask of an index or a length, is the row's bound on `idx`. -/
theorem idx_lt_idxBound {n : Nat} {i : Instr} (h : i.wf n = true) {bound : Nat}
    (hbound : Machine.idxBound n i = some bound) : (encodeFields i).idx.toNat < bound := by
  have hlt {m : Nat} {k : Fin m} (hm : m ≤ 16) (hk : k.val < bound) : (idxOf k).toNat < bound := by
    rwa [toNat_idxOf hm]
  cases i with
  | owChan c =>
    cases hbound
    exact hlt (by decide) (of_decide_eq_true (Bool.and_eq_true_iff.1 h).1)
  | srReset c | srNext c | srAll c | srState c | srRomb c =>
    cases hbound
    exact hlt (by decide) (of_decide_eq_true h)
  | crcAddr k | crcFrame k | addrSetb k | addrGetb k | frameSetb k | frameGetb k =>
    cases hbound
    exact hlt (by decide) k.isLt
  | _ => cases hbound

/-- Settles O2: a legal word is the word of the request it decodes to, which matches its own row; and a word that meets a
row's mask and match has 0 in all fields the row does not use, which is what the decoder asks beside the bound. -/
theorem legalWordsAreThoseOfTheTable : Obligations.LegalWordsAreThoseOfTheTable := by
  intro n w hn
  constructor
  · rintro ⟨i, hi⟩
    obtain ⟨rfl, hwf⟩ := encodeOfDecode n w i hi
    refine ⟨i, encode_and_row i, fun bound hbound => ?_, fun c hc => ?_⟩
    · rw [encode, unpack_pack]
      exact idx_lt_idxBound hwf hbound
    · subst hc
      exact eq_of_beq (Bool.and_eq_true_iff.1 hwf).2
  · rintro ⟨j, hrow, hbound, hchan⟩
    exact decodeFields_of_matchesRow (matchesRow_of_and hrow) hbound (by omega) hchan

/-- Settles O1: the decoder evaluated on fourteen words. -/
theorem vectorWordsDecode : Obligations.VectorWordsDecode :=
  ⟨rfl, rfl, rfl, rfl, rfl, rfl, rfl, rfl, rfl, rfl, rfl, rfl, rfl, rfl⟩

end Sys2Proof
end

section
/-! What a request that is answered puts out, and the request that is not (spec/30_encoding.md R83, R84). -/

namespace Sys2Proof.Machine

/-- Settles O7: the branch of a waiting word that is ILLEGAL. -/
theorem illegalRequestOnlyAnswers : Obligations.IllegalRequestOnlyAnswers := by
  intro s w ws e hreset hrunning hrequests hdecode
  exact (step_of_noReset hreset).trans (advance_of_illegal hrunning hrequests hdecode)

/-- Settles O14: `ERR.CLR` puts out nothing but its response, and every other request is a part of a rule that puts out
transfers and delays, and then `finish`. -/
theorem everyRequestRespondsOnce : Obligations.EveryRequestRespondsOnce := by
  intro i s hall
  obtain ⟨t, e⟩ := exec_next i s
  obtain ⟨c, rfl, -⟩ | ⟨m, rfl, rfl⟩ | ⟨v, u, rfl, hran⟩ := exec_cases e
  · exact absurd rfl (hall c)
  · exact ⟨_, [], e, by simp, by simp, rfl, rfl⟩
  · obtain ⟨new, hlog, hnew, -⟩ := hran.port
    exact ⟨_, new, e, by rw [finish_log, finish_res, hlog], hnew, hran.running, hran.requests⟩

end Sys2Proof.Machine
end

section
/-! The transfers of the configuration write and of the reading requests (spec/41_bridge_register.md R108, R109;
spec/42_onewire.md R147, R151, R159). -/

namespace Sys2Proof.Machine

theorem next_finish_congr {v v' : Byte} {u u' : State} (hv : v = v') (hu : u = u') :
    (.next (finish v u) : StepResult) = .next (finish v' u') := by
  rw [hv, hu]

/-- Settles O28. A byte is never its own complement, so the echo is a mismatch (R108). -/
theorem configWriteTransfers : Obligations.ConfigWriteTransfers := by
  refine fun s cfg => ⟨?_, fun hidle => ?_⟩
  · obtain ⟨n, hmatch, hparts⟩ := parts_writeConfig cfg [] s
    exact ⟨n, issues_of_parts (next_finish_congr (congrArg boolByte hmatch) rfl) hparts⟩
  have hwrite := writeConfig_idle hidle cfg
  have hexec : exec (.brWcfg cfg) s = .next (finish (boolByte ((s.replyAt 3).byte == cfg.setWidth 8))
      (raiseIf ((s.replyAt 3).byte != cfg.setWidth 8) .configMismatch
        (transact (writeConfigTransfers s.params cfg) s))) :=
    next_finish_congr (congrArg (boolByte ·.1) hwrite) (congrArg Prod.snd hwrite)
  refine ⟨hexec, fun hecho => ?_⟩
  have hmismatch : (s.replyAt 3).byte ≠ cfg.setWidth 8 := hecho ▸ (BitVec.ne_not_self (by decide)).symm
  refine ⟨_, hexec, ?_, ?_⟩
  · rw [finish_res, beq_false_of_ne hmismatch]; rfl
  · rw [finish_err, bne_iff_ne.2 hmismatch, raiseIf_true, getLsbD_raiseErr]
    exact Bool.or_true _

theorem byte_statusTriplet (p : Params) (b : Byte) : (statusTriplet p b).byte = 0#5 ++
    BitVec.ofBool (b.getLsbD p.stDir) ++ BitVec.ofBool (b.getLsbD p.stTsb) ++ BitVec.ofBool (b.getLsbD p.stSbr) := rfl

/-- Whatever the waits find, the bit read is that of the status the second wait ends with (R151). -/
theorem parts_wireReadBit (s : State) : ∃ n m,
    (wireReadBit s).1 = statusSample s.params (s.replyAt (2 * (n + m))).byte ∧
      Parts [⟨n, [.wr [s.params.cmd1wsb, s.params.bitOne]]⟩, ⟨m, []⟩] s (wireReadBit s).2 := by
  obtain ⟨n, m, -, hstatus, -, hparts⟩ := parts_command [s.params.cmd1wsb, s.params.bitOne] [] s
  have hcommand : wireWriteBit true false s = memWrite [s.params.cmd1wsb, s.params.bitOne] (waitOnBusy s).2 := by
    simp [wireWriteBit, spuEngageIf, writeByte2, bitOperand]
  rw [← hcommand] at hstatus hparts
  exact ⟨n, m, congrArg (statusSample s.params) hstatus, hparts⟩

/-- Whatever the waits find, the triplet is that of the status the second wait ends with (R159). -/
theorem parts_triplet (d : Bool) (s : State) : ∃ n m,
    (triplet d s).1 = statusTriplet s.params (s.replyAt (2 * (n + m))).byte ∧
      Parts [⟨n, [.wr [s.params.cmd1wt, bitOperand s.params d]]⟩, ⟨m, []⟩] s (triplet d s).2 := by
  obtain ⟨n, m, -, hstatus, -, hparts⟩ := parts_command [s.params.cmd1wt, bitOperand s.params d] [] s
  have htriplet : triplet d s = (statusTriplet s.params (waitOnBusy (memWrite [s.params.cmd1wt, bitOperand s.params d]
      (waitOnBusy s).2)).1, (waitOnBusy (memWrite [s.params.cmd1wt, bitOperand s.params d] (waitOnBusy s).2)).2) := by
    simp [triplet, writeByte2]
  rw [htriplet]
  exact ⟨n, m, congrArg (statusTriplet s.params) hstatus, hparts⟩

/-- Settles O35: the parts of each rule for any waits, and its transfers where each wait takes one poll. -/
theorem readTransfers : Obligations.ReadTransfers := by
  refine ⟨fun s d => ⟨?_, ?_, ?_⟩, fun s d h1 h4 => ⟨?_, ?_, ?_⟩⟩
  · obtain ⟨n, m, hbyte, hparts⟩ := parts_wireReadByte s
    exact ⟨n, m, issues_of_parts (next_finish_congr hbyte rfl) hparts⟩
  · obtain ⟨n, m, hbit, hparts⟩ := parts_wireReadBit s
    exact ⟨n, m, issues_of_parts (next_finish_congr (congrArg boolByte hbit) rfl) hparts⟩
  · obtain ⟨n, m, hbits, hparts⟩ := parts_triplet d s
    have hbyte := (congrArg Triplet.byte hbits).trans (byte_statusTriplet _ _)
    exact ⟨n, m, issues_of_parts (next_finish_congr hbyte rfl) hparts⟩
  · have hread := wireReadByte_idle h1 h4
    exact next_finish_congr (congrArg Prod.fst hread) (congrArg Prod.snd hread :)
  · have hread := wireReadBit_idle h1 h4
    exact next_finish_congr (congrArg (boolByte ·.1) hread) (congrArg Prod.snd hread :)
  · have hread := triplet_idle h1 h4 d
    exact next_finish_congr ((congrArg (·.1.byte) hread).trans (byte_statusTriplet _ _)) (congrArg Prod.snd hread :)

end Sys2Proof.Machine
end

section
/-! The bridge register requests of one or two transfers (spec/20_memory.md R50 to R54, R61; spec/41_bridge_register.md
R101 to R107). -/

namespace Sys2Proof.Machine

theorem dropReply_eq (s : State) :
    dropReply s = { s with replies := s.replies.drop 1, drawn := s.drawn + (1 - s.replies.length) } := by
  unfold dropReply
  cases h : s.replies <;> simp

/-- One transfer and the response: the next reply is taken, `DU` is raised where it is not acknowledged, and the other
registers stay (R50, R52, R53). -/
theorem finish_transfer (v : Byte) (ack : Bool) (o : Output) (s : State) :
    finish v (raiseIf (!ack) .deviceUnavailable (emit o (dropReply s))) =
      { s with res := v, err := s.err ||| if ack then 0x00#8 else 0x10#8, replies := s.replies.drop 1,
               drawn := s.drawn + (1 - s.replies.length), log := s.log ++ [o, .response .ok v] } := by
  rw [dropReply_eq]
  cases ack <;> simp [finish, respond, raiseErr, emit, ErrKind.mask, ErrKind.code]

/-- A write in terms of the reply it gets (R52). -/
theorem memWrite_eq (bytes : List Byte) (s : State) :
    memWrite bytes s = raiseIf (!(s.replyAt 0).ack) .deviceUnavailable
      (emit (.write s.params.bridgeAddr bytes (s.replyAt 0).ack
        (if (s.replyAt 0).ack then bytes.length else min (s.replyAt 0).delivered bytes.length)) (dropReply s)) := by
  rw [memWrite, nextReply_eq]

/-- A read in terms of the reply it gets (R53). -/
theorem readByte_snd_eq (s : State) :
    (readByte s).2 = raiseIf (!(s.replyAt 0).ack) .deviceUnavailable
      (emit (.read s.params.bridgeAddr (s.replyAt 0).ack (s.replyAt 0).byte) (dropReply s)) := by
  rw [readByte, memRead, nextReply_eq]

/-- Settles O23: each of these requests is one transfer and its response. -/
theorem rawBridgeRequests : Obligations.RawBridgeRequests := by
  intro s b b1
  have hwrite := fun bytes => (congrArg (finish 0x00#8) (memWrite_eq bytes s)).trans (finish_transfer ..)
  have hread : finish (readByte s).1 (readByte s).2 = _ :=
    (congrArg₂ finish (memRead_fst s) (readByte_snd_eq s)).trans (finish_transfer ..)
  exact ⟨congrArg Host.Outcome.next (hwrite [b]), congrArg Host.Outcome.next (hwrite [b, b1]),
    congrArg Host.Outcome.next (hwrite [s.params.cmdSrp, b]), congrArg Host.Outcome.next hread⟩

/-- A request that ends with what a subroutine answers, `f` of it as its result. -/
theorem next_finish_pair {α : Type} (f : α → Byte) {r r' : α × State} (h : r = r') :
    (.next (finish (f r.1) r.2) : StepResult) = .next (finish (f r'.1) r'.2) := by
  rw [h]

/-- Settles O24: a read of any of the three registers is the pointer write and then the read. -/
theorem registerReads : Obligations.RegisterReads := fun s =>
  ⟨next_finish_pair id (readStatus_eq s), next_finish_pair id (readData_eq s), next_finish_pair id (readConfig_eq s)⟩

end Sys2Proof.Machine
end

section
/-! The busy wait: how many polls and delays it makes and how it ends (spec/41_bridge_register.md R109, R110;
spec/60_exceptions.md R283). -/

namespace Sys2Proof.Machine

/-- `k` busy polls and one more make 2(k + 1) transfers and `k` delays. -/
theorem polled_port (k : Nat) (s : State) :
    ∃ new, (polled k s).log = s.log ++ new ∧ transfersIn new = 2 * (k + 1) ∧ delaysIn new = k := by
  obtain ⟨busy, hlog, htransfers, hdelays⟩ := busyPolls_port k s
  obtain ⟨last, hlog', hlength, hlast, -⟩ :=
    transact_port (pollTransfers s.params s.params.ptrStatus) (busyPolls k s)
  have hnoDelay : delaysIn last = 0 := List.countP_eq_zero.2 fun o ho => by simp [hlast o ho]
  refine ⟨busy ++ last, by rw [polled, hlog', hlog, List.append_assoc], ?_, ?_⟩
  · rw [transfersIn_append, transfersIn_eq_length hlast, htransfers, hlength, pollTransfers_length]
    omega
  · rw [delaysIn_append, hdelays, hnoDelay, Nat.add_zero]

/-- Polls raise no `TO` of their own. -/
theorem polled_timeout_flag (k : Nat) (s : State) : (polled k s).err.getLsbD 0 = s.err.getLsbD 0 := by
  rw [polled, transact_flag]
  exact (ran_busyPolls k s).flag 0 rfl

/-- The wait ends at the first poll that shows not busy. -/
theorem waitOnBusy_of_firstIdle {s : State} {k : Nat} (hk : k < 1000) (hbusy : ∀ j, j < k → s.busyAt (2 * j + 1))
    (hidle : s.idleAt (2 * k + 1)) : waitOnBusy s = ((s.replyAt (2 * k + 1)).byte, polled k s) := by
  have hpolls : waitOnBusy s = pollLoop (999 - k) (busyPolls k s) := by
    rw [← pollLoop_busyPolls hbusy, Nat.sub_add_cancel (by omega)]
    rfl
  rw [hpolls, pollLoop_idle (by rwa [busyPolls_params, busyPolls_replyAt]), busyPolls_replyAt, busyPolls_params, polled]

/-- The wait ends with `TO` at the poll limit where all polls show busy. -/
theorem waitOnBusy_of_timesOut {s : State} (hbusy : ∀ j, j < 1000 → s.busyAt (2 * j + 1)) :
    waitOnBusy s = ((s.replyAt 1999).byte, raiseErr .timeout (polled 999 s)) := by
  have hpolls : waitOnBusy s = pollLoop 0 (busyPolls 999 s) :=
    pollLoop_busyPolls (more := 0) (k := 999) fun j hj => hbusy j (by omega)
  have hlast : statusBusy s.params (s.replyAt 1999).byte = true := hbusy 999 (by omega)
  rw [hpolls, pollLoop_last (by rwa [busyPolls_params, busyPolls_replyAt]), busyPolls_replyAt, busyPolls_params, polled]

/-- Settles O25: the wait is `k` busy polls and the poll it answers. -/
theorem waitEndsAtFirstIdlePoll : Obligations.WaitEndsAtFirstIdlePoll := by
  intro s k hk hbusy hidle
  have hwait := waitOnBusy_of_firstIdle hk hbusy hidle
  obtain ⟨new, hlog, htransfers, hdelays⟩ := polled_port k s
  refine ⟨finish (s.replyAt (2 * k + 1)).byte (polled k s), new,
    next_finish_pair id hwait, rfl, ?_, htransfers, hdelays,
    polled_timeout_flag k s⟩
  rw [finish_log, finish_res, hlog]

/-- Settles O26: the wait is 999 busy polls and a last one that raises `TO`. -/
theorem waitTimesOutAfterThePollLimit : Obligations.WaitTimesOutAfterThePollLimit := by
  intro s hbusy
  have hwait := waitOnBusy_of_timesOut hbusy
  obtain ⟨new, hlog, htransfers, hdelays⟩ := polled_port 999 s
  refine ⟨finish (s.replyAt 1999).byte (raiseErr .timeout (polled 999 s)), new,
    next_finish_pair id hwait, rfl, ?_, htransfers, hdelays, ?_⟩
  · rw [finish_log, finish_res, raiseErr_log, hlog]
  · rw [finish_err, getLsbD_raiseErr]
    exact Bool.or_true _

end Sys2Proof.Machine
end

section
/-! The transfers of the bus reset, of the writes with and without power, of the pullup control, of the channel select and
of the frame read (spec/42_onewire.md R141 to R162). -/

namespace Sys2Proof.Machine

theorem spuClear_params (s : State) : (spuClear s).params = s.params := (ran_spuClear s).params

theorem spuEngage_params (s : State) : (spuEngage s).params = s.params := (ran_spuEngage s).params

/-- The bus reset after the pullup is cleared: a wait, the command, and the status the last wait ends with (R143). -/
theorem wireReset_eq (s : State) :
    wireReset s =
      let w := waitOnBusy (memWrite [s.params.cmd1wrs] (waitOnBusy (spuClear (waitOnBusy s).2)).2)
      (statusPresence s.params w.1, raiseIf (statusShort s.params w.1) .shortCircuit w.2) := by
  simp [wireReset, writeByte, spuClear_params]

/-- Whatever the four waits find, the presence bit is that of the status the last one ends with (R143). -/
theorem parts_wireReset (s : State) : ∃ n₁ n₂ n₃ n₄,
    let p := s.params
    let cfg := configNibble (s.replyAt (2 * n₁ + 1)).byte &&& ~~~p.spuMask
    (wireReset s).1 = statusPresence p (s.replyAt (2 * (n₁ + n₂ + n₃ + n₄) + 4)).byte ∧
      Parts [⟨n₁, pollTransfers p p.ptrConfig⟩, ⟨n₂, [.wr [p.cmdWcfg, configByte cfg], .rd]⟩, ⟨n₃, [.wr [p.cmd1wrs]]⟩,
        ⟨n₄, []⟩] s (wireReset s).2 := by
  obtain ⟨n₁, n₂, hclear⟩ := parts_spuClear [] s
  obtain ⟨n₃, n₄, -, hstatus, -, hcommand⟩ := parts_command [s.params.cmd1wrs] [] (spuClear (waitOnBusy s).2)
  refine ⟨n₁, n₂, n₃, n₄, ?_, ?_⟩ <;> rw [wireReset_eq]
  · refine congrArg (statusPresence s.params) (hstatus.trans ?_)
    rw [← transact_nil (spuClear _), hclear.replyAt]
    congr 2
    simp only [List.flatMap_cons, List.flatMap_nil, List.append_nil, List.length_append, segment_length,
      pollTransfers_length, List.length_cons, List.length_nil]
    omega
  · exact (hclear.trans hcommand).raiseIf _

/-- Settles O30: the parts of the bus reset for any waits, and its transfers where each wait takes one poll. -/
theorem busResetTransfers : Obligations.BusResetTransfers := by
  refine ⟨fun s => ?_, fun s h1 h5 h9 h12 => ?_⟩
  · obtain ⟨n₁, n₂, n₃, n₄, hpresence, hparts⟩ := parts_wireReset s
    exact ⟨n₁, n₂, n₃, n₄, issues_of_parts (next_finish_congr (congrArg boolByte hpresence) rfl) hparts⟩
  · exact next_finish_pair boolByte (wireReset_idle h1 h5 h9 h12)

/-- Settles O31: the one part of each write for any wait, and its transfers where the wait takes one poll. -/
theorem writesWithoutPower : Obligations.WritesWithoutPower := by
  refine ⟨fun s b v => ⟨?_, ?_, ?_⟩, fun s b v hidle => ⟨?_, ?_, ?_⟩⟩
  · exact (parts_wireWriteByte b s).imp fun _ => issues_of_parts rfl
  · exact (parts_wireWriteBit v [] s).imp fun _ => issues_of_parts rfl
  · exact (parts_wireWriteByte s.params.romSkip s).imp fun _ => issues_of_parts rfl
  · exact next_finish_congr rfl (wireWriteByte_idle hidle b)
  · exact next_finish_congr rfl (wireWriteBit_idle hidle v)
  · exact next_finish_congr rfl (wireWriteByte_idle hidle s.params.romSkip)

theorem wireWriteByte_power (b : Byte) (s : State) :
    wireWriteByte b true s = transact [.wr [s.params.cmd1wwb, b]] (spuEngage (waitOnBusy s).2) := by
  simp [wireWriteByte, spuEngageIf, writeByte2, spuEngage_params, transact_wr]

theorem wireWriteBit_power (v : Bool) (s : State) :
    wireWriteBit v true s =
      transact [.wr [s.params.cmd1wsb, bitOperand s.params v]] (spuEngage (waitOnBusy s).2) := by
  simp [wireWriteBit, spuEngageIf, writeByte2, spuEngage_params, transact_wr]

/-- Settles O32: the parts of the pullup change followed by the command, for any waits, and the transfers where each wait
takes one poll. -/
theorem writesWithPower : Obligations.WritesWithPower := by
  refine ⟨fun s b v => ⟨?_, ?_⟩, fun s b v h1 h5 => ⟨?_, ?_⟩⟩
  · obtain ⟨n, m, hparts⟩ := parts_spuEngage [.wr [s.params.cmd1wwb, b]] s
    exact ⟨n, m, issues_of_parts (next_finish_congr rfl (wireWriteByte_power b s)) hparts⟩
  · obtain ⟨n, m, hparts⟩ := parts_spuEngage [.wr [s.params.cmd1wsb, bitOperand s.params v]] s
    exact ⟨n, m, issues_of_parts (next_finish_congr rfl (wireWriteBit_power v s)) hparts⟩
  · exact next_finish_congr rfl (wireWriteByte_power_idle h1 h5 b)
  · exact next_finish_congr rfl (wireWriteBit_power_idle h1 h5 v)

/-- Settles O33: the pullup set or cleared, for any waits, and the transfers where each wait takes one poll. -/
theorem pullupControl : Obligations.PullupControl := by
  refine ⟨fun s on => ?_, fun s on h1 h5 => ?_⟩
  · cases on with
    | false =>
      obtain ⟨n, m, hparts⟩ := parts_spuClear [] s
      exact ⟨n, m, issues_of_parts rfl hparts⟩
    | true =>
      obtain ⟨n, m, hparts⟩ := parts_spuEngage [] s
      exact ⟨n, m, issues_of_parts rfl hparts⟩
  · cases on with
    | false => exact next_finish_congr rfl (unpowered_idle h1 h5)
    | true => exact next_finish_congr rfl (powered_idle h1 h5)

/-- Whatever the wait finds, the byte read after the select write decides the match (R157). -/
theorem parts_setChannel (c : Fin 8) (s : State) : ∃ n,
    (setChannel c s).1 = ((s.replyAt (2 * n + 1)).byte == s.params.chRead[c]) ∧
      Parts [⟨n, [.wr [s.params.cmdChsl, s.params.chWrite[c]], .rd]⟩] s (setChannel c s).2 := by
  obtain ⟨n, -, hwait⟩ := parts_wait s
  have hselect : setChannel c s = ((s.replyAt (2 * n + 1)).byte == s.params.chRead[c],
      raiseIf ((s.replyAt (2 * n + 1)).byte != s.params.chRead[c]) .channelSelectMismatch
        (transact [.wr [s.params.cmdChsl, s.params.chWrite[c]], .rd] (waitOnBusy s).2)) := by
    unfold setChannel
    simp only [readByte_eq, writeByte2, replyAt_memWrite, replyAt_wait (hwait []), waitOnBusy_params]
    rfl
  rw [hselect]
  exact ⟨n, rfl, (hwait _).raiseIf _⟩

/-- Settles O38: the part of the select for any wait, and its transfers where the wait takes one poll. -/
theorem channelSelectTransfers : Obligations.ChannelSelectTransfers := by
  refine ⟨fun s c => ?_, fun s c hidle => ?_⟩
  · obtain ⟨n, hmatch, hparts⟩ := parts_setChannel c s
    exact ⟨n, issues_of_parts (next_finish_congr (congrArg boolByte hmatch) rfl) hparts⟩
  · exact next_finish_pair boolByte (setChannel_idle hidle c)

/-- `frameIndexes` lists each index at its own position. -/
theorem frameIndexes_getElem (k : Fin 9) : frameIndexes[k.val]'k.isLt = k := by
  revert k
  decide

/-- Settles O39: the parts of the nine byte reads for any waits; where each wait takes one poll, each byte stays in `FRAME`
once it is read. -/
theorem frameReadFillsTheFrame : Obligations.FrameReadFillsTheFrame := by
  refine ⟨fun s => ?_, fun s hidle => ?_⟩
  · obtain ⟨xs, hbodies, hparts⟩ := parts_readFrame frameIndexes s
    exact ⟨xs, hbodies, issues_of_parts rfl hparts⟩
  · obtain ⟨new, hlog, htransfers, -, hbytes⟩ := readFrame_idle frameIndexes (by decide) s hidle
    obtain ⟨-, haddr, hsearch⟩ := readFrame_regs frameIndexes s
    refine ⟨_, new, rfl, rfl, fun k => ?_, ?_, htransfers, haddr, hsearch⟩
    · rw [← hbytes k.val k.isLt, frameIndexes_getElem]
      rfl
    · rw [finish_log, hlog]
      rfl

end Sys2Proof.Machine
end

section
/-! The last byte read decides the results and the checks of the bus reset, of the reads and of the channel select
(spec/42_onewire.md R143, R144, R147, R151, R157, R159; spec/60_exceptions.md R284, R286). -/

namespace Sys2Proof.Machine

/-- A check at the end of a part that cannot raise the kind: its flag is set afterwards where it was before or the check
fails. -/
theorem Ran.getLsbD_raiseIf {f : Byte} {lo hi : Nat} {s t : State} (h : Ran f lo hi s t) (b : Bool) (k : ErrKind)
    (hk : f.getLsbD k.code = false) :
    (raiseIf b k t).err.getLsbD k.code = (s.err.getLsbD k.code || b) := by
  rw [← h.flag k.code hk]
  cases b with
  | false => exact (Bool.or_false _).symm
  | true => rw [raiseIf_true, getLsbD_raiseErr, decide_eq_true rfl]

/-- Both the presence and the short bit are those of the status the last wait answers (R143, R144, R284). -/
theorem wireReset_checks (s : State) :
    ∃ b, lastRead (wireReset s).2.log = some b ∧ (wireReset s).1 = statusPresence s.params b ∧
      (wireReset s).2.err.getLsbD 1 = (s.err.getLsbD 1 || statusShort s.params b) := by
  have hran := ((((ran_waitOnBusy s).trans (ran_spuClear _)).trans (ran_waitOnBusy _)).trans
    (ran_writeByte s.params.cmd1wrs _)).trans (ran_waitOnBusy _)
  rw [wireReset_eq]
  refine ⟨_, ?_, rfl, hran.getLsbD_raiseIf _ .shortCircuit rfl⟩
  rw [raiseIf_log]
  exact lastRead_waitOnBusy _

/-- The bare readback after the select write decides the match and whether `CSM` is raised (R157, R286). -/
theorem setChannel_checks (c : Fin 8) (s : State) :
    ∃ b, lastRead (setChannel c s).2.log = some b ∧ (setChannel c s).1 = (b == s.params.chRead[c]) ∧
      (setChannel c s).2.err.getLsbD 3 = (s.err.getLsbD 3 || b != s.params.chRead[c]) := by
  let w := (waitOnBusy s).2
  have hran := ((ran_waitOnBusy s).trans (ran_writeByte2 w.params.cmdChsl w.params.chWrite[c] w)).trans (ran_readByte _)
  refine ⟨_, ?_, rfl, hran.getLsbD_raiseIf _ .channelSelectMismatch rfl⟩
  rw [setChannel, raiseIf_log]
  exact lastRead_readByte _

/-- The byte read is the last one, by the read that ends the rule (R147). -/
theorem lastRead_wireReadByte (s : State) : lastRead (wireReadByte s).2.log = some (wireReadByte s).1 :=
  lastRead_readByte _

/-- The bit read is the sample bit of the last byte read, the status its wait answers (R151). -/
theorem lastRead_wireReadBit (s : State) :
    ∃ b, lastRead (wireReadBit s).2.log = some b ∧ (wireReadBit s).1 = statusSample s.params b :=
  ⟨_, lastRead_waitOnBusy _, rfl⟩

/-- Settles O29: the reset reads its bits off its last status, and the response it is followed by reads nothing. -/
theorem busResetReportsPresence : Obligations.BusResetReportsPresence := by
  intro s
  obtain ⟨b, hread, hpresence, hshort⟩ := wireReset_checks s
  exact ⟨_, b, rfl, (lastRead_finish _ _).trans hread, congrArg boolByte hpresence, hshort⟩

/-- Settles O34: each subroutine answers from its last read, and the response it is followed by reads nothing. -/
theorem readsAnswerTheLastByte : Obligations.ReadsAnswerTheLastByte := by
  refine fun s d => ⟨?_, ?_, ?_⟩
  · exact ⟨_, _, rfl, (lastRead_finish _ _).trans (lastRead_wireReadByte s), rfl⟩
  · obtain ⟨b, hread, hsample⟩ := lastRead_wireReadBit s
    exact ⟨_, b, rfl, (lastRead_finish _ _).trans hread, congrArg boolByte hsample⟩
  · obtain ⟨b, hread, htriplet⟩ := lastRead_triplet d s
    exact ⟨_, b, rfl, (lastRead_finish _ _).trans hread,
      (congrArg Triplet.byte htriplet).trans (byte_statusTriplet _ _)⟩

/-- Settles O37: the readback decides, and the response it is followed by reads nothing. -/
theorem channelSelectChecksItsReadback : Obligations.ChannelSelectChecksItsReadback := by
  intro s c
  obtain ⟨b, hread, hmatch, hmismatch⟩ := setChannel_checks c s
  exact ⟨_, b, rfl, (lastRead_finish _ _).trans hread, congrArg boolByte hmatch, hmismatch⟩

end Sys2Proof.Machine
end

section
/-! One search pass as equations, and the statements on single search requests that read off one of its ends
(spec/43_search.md R190 to R199, R210, R211; spec/44_crc.md R233 to R235; spec/45_buffers_errors.md R260 to R265). -/

namespace Sys2Proof.Machine

/-! ### The direction of a pass (R193) -/

theorem searchDirection_of_lt {x : SearchState} {i : Fin 64} (h : (i.val : Int) < x.ld) :
    searchDirection x i = romBit x.romBuf i := by
  rw [searchDirection_eq, if_pos h]

theorem searchDirection_of_eq {x : SearchState} {i : Fin 64} (h : (i.val : Int) = x.ld) : searchDirection x i = true := by
  rw [searchDirection_eq, if_neg (by omega), decide_eq_true h]

theorem searchDirection_of_gt {x : SearchState} {i : Fin 64} (h : x.ld < (i.val : Int)) :
    searchDirection x i = false := by
  rw [searchDirection_eq, if_neg (by omega), decide_eq_false (by omega)]

/-- Settles O47: the three cases of the direction, by the order of the position and `LD`. -/
theorem searchDirections : Obligations.SearchDirections := fun _ _ =>
  ⟨searchDirection_of_lt, searchDirection_of_eq, searchDirection_of_gt⟩

/-! ### The ends of a pass (R192) -/

/-- The state after steps 2 and 3 of a pass: the bus reset and the search command. -/
abbrev afterSearchCommand (s : State) : State := wireWriteByte s.params.romSearch false (wireReset s).2

theorem same_afterSearchCommand (s : State) : SameRegs s (afterSearchCommand s) :=
  (same_wireReset s).trans (same_wireWriteByte s.params.romSearch false (wireReset s).2)

section
variable {c : Fin 8} {s u : State}

theorem wireSearch_of_exhausted (hldf : (s.ss c).ldf = true) : wireSearch c s = (false, s) := by
  simp [wireSearch, hldf]

theorem wireSearch_of_noPresence (hldf : (s.ss c).ldf = false) (hpresence : (wireReset s).1 = false) :
    wireSearch c s = (false, (wireReset s).2) := by
  simp [wireSearch, hldf, hpresence]

theorem wireSearch_of_inconsistent (hldf : (s.ss c).ldf = false) (hpresence : (wireReset s).1 = true)
    (hbits : searchBits c bitPositions (-1) (afterSearchCommand s) = (none, u)) : wireSearch c s = (false, u) := by
  simp [wireSearch, hldf, hpresence, hbits]

theorem wireSearch_of_found {t : Int} (hldf : (s.ss c).ldf = false) (hpresence : (wireReset s).1 = true)
    (hbits : searchBits c bitPositions (-1) (afterSearchCommand s) = (some t, u)) :
    wireSearch c s = (true, recordFound c t u) := by
  simp [wireSearch, hldf, hpresence, hbits]

theorem recordFound_ss_self (t : Int) :
    (recordFound c t u).ss c = { u.ss c with ld := t, ldf := (u.ss c).ldf || decide (t = -1) } :=
  setSearch_ss_self u c _

end

/-! ### Statements about one end -/

/-- Settles O41: `setSearch` replaces the one search state. -/
theorem searchReset : Obligations.SearchReset := fun s c =>
  ⟨_, rfl, rfl, setSearch_ss_self s c _, fun _ hd => ss_setSearch_ne _ s hd⟩

/-- Settles O42: the end of a pass on an exhausted channel. -/
theorem exhaustedSearchIsIdempotent : Obligations.ExhaustedSearchIsIdempotent := fun _ _ hldf =>
  next_finish_pair boolByte (wireSearch_of_exhausted hldf)

theorem boolByte_eq_zero {b : Bool} (h : boolByte b = 0x00#8) : b = false := by
  cases b
  · rfl
  · cases h

/-- Settles O44: the end of a pass without presence is the bus reset's state, and both requests answer 0. -/
theorem searchWithoutPresence : Obligations.SearchWithoutPresence := by
  intro s t c hldf e hres
  cases e
  have hpresence : (wireReset s).1 = false := boolByte_eq_zero hres
  refine ⟨?_, (same_wireReset s).search, (same_wireReset s).addr⟩
  refine (next_finish_pair boolByte (wireSearch_of_noPresence hldf hpresence)).trans ?_
  rw [hpresence]

/-- Settles O22: each meaning is `finish` of the value its rule gives, on the state as it is. -/
theorem readingRequestsOnlyWriteRes : Obligations.ReadingRequestsOnlyWriteRes := fun _ _ _ _ _ _ _ _ =>
  ⟨rfl, rfl, rfl, rfl, rfl, rfl, rfl, rfl, fun _ => rfl⟩

/-! ### The outcomes of a pass whatever the bridge answers (R195 to R197) -/

/-- Before its last step a pass has written no register but the buffer of its channel. -/
theorem searchPass_regs (c : Fin 8) (s : State) {o : Option Int} {u : State}
    (hbits : searchBits c bitPositions (-1) (afterSearchCommand s) = (o, u)) :
    u.addr = s.addr ∧ u.frame = s.frame ∧ (∀ d, d ≠ c → u.ss d = s.ss d) ∧ (u.ss c).ld = (s.ss c).ld ∧
      (u.ss c).ldf = (s.ss c).ldf := by
  have hstart := same_afterSearchCommand s
  obtain ⟨-, haddr, hframe, hothers, hld, hldf⟩ := searchBits_regs c bitPositions (-1) (afterSearchCommand s)
  rw [hbits] at haddr hframe hothers hld hldf
  rw [ss_congr hstart.search] at hld hldf
  exact ⟨haddr.trans hstart.addr, hframe.trans hstart.frame,
    fun d hd => (hothers d hd).trans (ss_congr hstart.search d), hld, hldf⟩

/-- The bus reset and the search command raise no `SI`. -/
theorem afterSearchCommand_si (s : State) : (afterSearchCommand s).err.getLsbD 6 = s.err.getLsbD 6 :=
  ((ran_wireReset s).trans (ran_wireWriteByte s.params.romSearch _)).flag 6 rfl

theorem afterSearchCommand_params (s : State) : (afterSearchCommand s).params = s.params :=
  ((ran_wireReset s).trans (ran_wireWriteByte s.params.romSearch _)).params

/-- What a pass that finds a device leaves in `ADDR`, `LD`, `LDF` and `SI` (R194 to R197). -/
theorem wireSearch_found {c : Fin 8} {s u : State} (hfound : wireSearch c s = (true, u)) :
    u.addr = (u.ss c).romBuf ∧ -1 ≤ (u.ss c).ld ∧ (u.ss c).ld ≤ 63 ∧ (u.ss c).ldf = decide ((u.ss c).ld = -1) ∧
      u.err.getLsbD 6 = s.err.getLsbD 6 := by
  rcases wireSearch_cases c s with ⟨-, e⟩ | ⟨-, -, e⟩ | ⟨-, -, v, -, e⟩ | ⟨hldf, -, t, v, hbits, e⟩
  all_goals rw [e] at hfound; cases hfound
  obtain ⟨-, -, -, -, hldf'⟩ := searchPass_regs c s hbits
  obtain ⟨hlo, hhi⟩ := searchBits_range c _ _ _ hbits (by omega)
  have hsi := (searchBits_flag c bitPositions (-1) (afterSearchCommand s)).2
  rw [hbits, afterSearchCommand_si] at hsi
  refine ⟨recordFound_addr c t v, ?_⟩
  simp only [recordFound_ss_self, hldf', hldf, Bool.false_or]
  exact ⟨hlo, hhi, trivial, hsi (by simp)⟩

/-- A pass that ends at an inconsistent triplet has raised `SI`, and the status it read last shows id and cmp 1. -/
theorem searchPass_inconsistent (c : Fin 8) (s : State) {u : State}
    (hbits : searchBits c bitPositions (-1) (afterSearchCommand s) = (none, u)) :
    u.err.getLsbD 6 = true ∧ ∃ b, lastRead u.log = some b ∧ b.getLsbD s.params.stSbr = true ∧
      b.getLsbD s.params.stTsb = true := by
  have hflag := (searchBits_flag c bitPositions (-1) (afterSearchCommand s)).1
  rw [hbits, afterSearchCommand_params] at hflag
  exact hflag rfl

/-- Settles O43, by the ends of a pass on a channel that is not exhausted. -/
theorem searchNextOutcomes : Obligations.SearchNextOutcomes := by
  intro s c hldf
  obtain ⟨-, hframe⟩ := wireSearch_frame c s
  refine ⟨_, rfl, hframe.frame, hframe.others, ?_⟩
  rcases wireSearch_cases c s with ⟨h, -⟩ | ⟨-, hpresence, e⟩ | ⟨-, hpresence, u, hbits, e⟩ | ⟨-, -, t, u, -, e⟩
  · rw [hldf] at h; cases h
  · obtain ⟨b, hread, -⟩ := wireReset_checks s
    have hsame := same_wireReset s
    have hss := ss_congr hsame.search c
    rw [e]
    refine .inr ⟨rfl, hsame.addr, congrArg SearchState.ld hss, (congrArg SearchState.ldf hss).trans hldf, _, b, rfl,
      (lastRead_finish _ _).trans hread, .inl ⟨?_, (ran_wireReset s).flag 6 rfl⟩⟩
    rw [finish_res, hpresence]; rfl
  · obtain ⟨haddr, -, -, hld, hldf'⟩ := searchPass_regs c s hbits
    obtain ⟨hsi, b, hread, hid, hcmp⟩ := searchPass_inconsistent c s hbits
    rw [e]
    refine .inr ⟨rfl, haddr, hld, hldf'.trans hldf, _, b, rfl, (lastRead_finish _ _).trans hread,
      .inr ⟨?_, hid, hcmp, hsi⟩⟩
    rw [finish_res, hpresence]; rfl
  · have hfound := wireSearch_found e
    rw [e]
    exact .inl ⟨rfl, hfound⟩

end Sys2Proof.Machine
end

section
/-! One turn of `SR.ALL` (spec/43_search.md R191, R205, R206), and the identifiers that the CRC accepts
(spec/44_crc.md R236; spec/43_search.md R200). -/

namespace Sys2Proof.Machine

theorem addrValid_iff (u : State) :
    addrValid u = true ↔ crc8 u.params.crcInit (u.addr.toList.take 7) = u.addr[7] := beq_iff_eq

section
variable {c : Fin 8} {n : Nat} {s : State}

theorem searchAllPass_of_valid (hfound : (wireSearch c s).1 = true) (hvalid : addrValid (wireSearch c s).2 = true) :
    searchAllPass c n s =
      { emitFound (identOf (wireSearch c s).2.addr) (wireSearch c s).2 with running := some ⟨c, n + 1⟩ } := by
  simp [searchAllPass, hfound, hvalid]

theorem searchAllPass_of_invalid (hfound : (wireSearch c s).1 = true) (hvalid : addrValid (wireSearch c s).2 = false) :
    searchAllPass c n s = { raiseErr .crcValidationFailure (wireSearch c s).2 with running := some ⟨c, n⟩ } := by
  simp [searchAllPass, hfound, hvalid]

theorem searchAllPass_of_none (hnone : (wireSearch c s).1 = false) :
    searchAllPass c n s = finish (BitVec.ofNat 8 (min n 255)) { (wireSearch c s).2 with running := none } := by
  simp [searchAllPass, hnone]

end

/-- Settles O48: the request is the search reset and a turn by definition; the ends of a turn are told apart by what the
pass answers and by the check of `ADDR`. -/
theorem searchAllTurns : Obligations.SearchAllTurns := by
  refine fun s c => ⟨rfl, fun n => ⟨fun hfound hcrc => ?_, fun hfound hcrc => ?_, searchAllPass_of_none⟩⟩
  · exact searchAllPass_of_valid hfound ((addrValid_iff _).2 hcrc)
  · exact searchAllPass_of_invalid hfound (Bool.eq_false_iff.2 (mt (addrValid_iff _).1 hcrc))

/-! ### The bytes and bits of an identifier -/

theorem ident_ext {v w : Ident} (h : ∀ i, identBit v i = identBit w i) : v = w :=
  BitVec.eq_of_getLsbD_eq fun i hi => h ⟨i, hi⟩

theorem getLsbD_identByte (v : Ident) (k : Nat) {j : Nat} (hj : j < 8) :
    (identByte v k).getLsbD j = v.getLsbD (8 * k + j) := by
  simp [identByte, hj]

/-- Byte `k` of two identifiers that agree on its bits. -/
theorem identByte_congr {v w : Ident} {k : Nat} (h : ∀ j, j < 8 → v.getLsbD (8 * k + j) = w.getLsbD (8 * k + j)) :
    identByte v k = identByte w k :=
  BitVec.eq_of_getLsbD_eq fun j hj => by rw [getLsbD_identByte v k hj, getLsbD_identByte w k hj, h j hj]

/-- Settles O52: bytes 0 to 6 of the two are equal, so are their CRCs, and byte 7 is the CRC; its top bit is bit 63. -/
theorem validIdentifiersPartBelowBit63 : Obligations.ValidIdentifiersPartBelowBit63 := by
  intro init v w hv hw hagree
  have hbytes : (List.range 7).map (identByte v) = (List.range 7).map (identByte w) :=
    List.map_congr_left fun k hk => identByte_congr fun j hj => by
      have hk : k < 7 := List.mem_range.1 hk
      exact hagree ⟨8 * k + j, by omega⟩ (by dsimp only; omega)
  have hcrc : identByte v 7 = identByte w 7 := by
    rw [← eq_of_beq hv, ← eq_of_beq hw, hbytes]
  refine ident_ext fun i => ?_
  by_cases hi : i.val < 63
  · exact hagree i hi
  · have hbit := congrArg (·.getLsbD 7) hcrc
    simp only [getLsbD_identByte _ 7 (by omega : 7 < 8)] at hbit
    have h63 : i = 63 := by omega
    rw [h63]; exact hbit

end Sys2Proof.Machine
end

section
/-! A search pass on a bridge whose waits take one poll each: complete, or ended by an inconsistent triplet
(spec/43_search.md R192 to R197), and the bus on which `SR.ALL` never ends (R207). -/

namespace Sys2Proof.Machine

/-! ### The positions and the triplets of a pass -/

@[simp] theorem bitPositions_length : bitPositions.length = 64 := List.length_finRange

theorem bitPositions_getElem {j : Nat} (h : j < bitPositions.length) :
    bitPositions[j] = ⟨j, by simpa using h⟩ := by
  simp [bitPositions]

theorem mem_bitPositions_take {i j : Fin 64} : j ∈ bitPositions.take i.val ↔ j < i := by
  simp only [List.mem_take_iff_getElem, bitPositions_getElem]
  constructor
  · rintro ⟨k, hk, rfl⟩
    exact (lt_min_iff.1 hk).1
  · exact fun h => ⟨j.val, by rw [bitPositions_length]; omega, rfl⟩

/-- The bits of the status read after the `j`-th triplet of a pass whose waits take one poll each. -/
def State.tripletAt (s : State) (j : Nat) : Triplet := statusTriplet s.params (s.replyAt (5 * j + 20)).byte

/-- Both waits of the `j`-th triplet of a pass whose earlier waits take one poll each do so too. -/
def State.tripletIdle (s : State) (j : Nat) : Prop := s.idleAt (5 * j + 17) ∧ s.idleAt (5 * j + 20)

/-- The waits of steps 2 and 3 of a pass take one poll each. -/
structure State.StartIdle (s : State) : Prop where
  reset : s.idleAt 1
  pullup : s.idleAt 5
  command : s.idleAt 9
  status : s.idleAt 12
  search : s.idleAt 14

/-- Steps 2 and 3 make 16 transfers, the last of them the search command. -/
theorem afterSearchCommand_idle {s : State} (h : s.StartIdle) :
    (wireReset s).1 = statusPresence s.params (s.replyAt 12).byte ∧ Later 16 s (afterSearchCommand s) ∧
      ∃ new, (afterSearchCommand s).log = s.log ++ new ∧ new.length = 16 ∧ (∀ o ∈ new, o.isTransfer = true) ∧
        ∃ ack n, new[15]? = some (.write s.params.bridgeAddr [s.params.cmd1wwb, s.params.romSearch] ack n) := by
  obtain ⟨u, new, rfl, hpresence, hparams, hreply, -, -, hport⟩ :=
    searchStart_idle h.reset h.pullup h.command h.status h.search
  exact ⟨hpresence, ⟨hparams, hreply⟩, new, hport⟩

/-- What the triplets find is read off the replies from the 16th transfer on. -/
theorem Later.triplet {s v : State} (h : Later 16 s v) (j : Nat) :
    (v.idleAt (5 * j + 1) ∧ v.idleAt (5 * j + 4) ↔ s.tripletIdle j) ∧
      statusTriplet v.params (v.replyAt (5 * j + 4)).byte = s.tripletAt j := by
  have h17 : 16 + (5 * j + 1) = 5 * j + 17 := by omega
  have h20 : 16 + (5 * j + 4) = 5 * j + 20 := by omega
  simp only [State.tripletIdle, State.tripletAt, State.idleAt, h.params, h.reply, h17, h20, and_self]

/-! ### A complete pass -/

/-- A complete pass on a bridge whose waits take one poll each. -/
theorem wireSearch_idle {c : Fin 8} {s : State} (hldf : (s.ss c).ldf = false) (hstart : s.StartIdle)
    (hidle : ∀ i : Fin 64, s.tripletIdle i) (hpresence : statusPresence s.params (s.replyAt 12).byte = true)
    (hconsistent : ∀ i : Fin 64, ((s.tripletAt i).id && (s.tripletAt i).cmp) = false) :
    ∃ u new, wireSearch c s = (true, u) ∧
      (∀ i : Fin 64, romBit (u.ss c).romBuf i = (s.tripletAt i).dir) ∧
      (((u.ss c).ld = -1 ∧ ∀ i : Fin 64, (s.tripletAt i).branch = false) ∨
        ∃ i : Fin 64, (u.ss c).ld = (i.val : Int) ∧ (s.tripletAt i).branch = true ∧
          ∀ j : Fin 64, i < j → (s.tripletAt j).branch = false) ∧
      u.log = s.log ++ new ∧ new.length = 336 ∧ (∀ o ∈ new, o.isTransfer = true) ∧
      (∃ ack n, new[15]? = some (.write s.params.bridgeAddr [s.params.cmd1wwb, s.params.romSearch] ack n)) ∧
      ∀ i : Fin 64, ∃ ack n, new[5 * i.val + 18]? = some (.write s.params.bridgeAddr
        [s.params.cmd1wt, bitOperand s.params (searchDirection (s.ss c) i)] ack n) := by
  obtain ⟨hreset, hlater, first, hfirst, hlen, htransfers, hcommand⟩ := afterSearchCommand_idle hstart
  obtain ⟨t, u, rest, hbits, -, hbuf, hld, hrest, hlen', htransfers', hdirections⟩ :=
    searchBits_idle c bitPositions (List.nodup_finRange 64) (-1) (afterSearchCommand s)
      (fun j hj => (hlater.triplet j).1.2 (hidle ⟨j, by simpa using hj⟩))
      (fun j hj => by
        rw [(hlater.triplet j).2]
        exact hconsistent ⟨j, by simpa using hj⟩)
  simp only [(hlater.triplet _).2, bitPositions_length, bitPositions_getElem] at hbuf hld hlen' hdirections
  refine ⟨_, first ++ rest, wireSearch_of_found hldf (hreset.trans hpresence) hbits, ?_⟩
  rw [recordFound_ss_self]
  refine ⟨fun i => hbuf i i.isLt, ?_, ?_, ?_, ?_, ?_, fun i => ?_⟩
  · rcases hld with ⟨ht, hnone⟩ | ⟨j, hj, ht, hbranch, hlast⟩
    · exact .inl ⟨ht, fun i => hnone i i.isLt⟩
    · exact .inr ⟨⟨j, hj⟩, ht, hbranch, fun k hk => hlast k hk k.isLt⟩
  · exact hrest.trans (by rw [hfirst, List.append_assoc])
  · rw [List.length_append, hlen, hlen']
  · exact fun o ho => (List.mem_append.1 ho).elim (htransfers o) (htransfers' o)
  · rwa [List.getElem?_append_left (by omega)]
  · have hindex : 5 * i.val + 18 - 16 = 5 * i.val + 2 := by omega
    rw [List.getElem?_append_right (by omega), hlen, hindex]
    have := hdirections i i.isLt
    rwa [hlater.params, ss_congr (same_afterSearchCommand s).search] at this

theorem Triplet.branch_iff (r : Triplet) : r.branch = true ↔ r.id = false ∧ r.cmp = false ∧ r.dir = false := by
  simp [Triplet.branch, and_assoc]

theorem Triplet.branch_eq_false_iff (r : Triplet) :
    r.branch = false ↔ ¬ (r.id = false ∧ r.cmp = false ∧ r.dir = false) := by
  rw [← r.branch_iff, Bool.not_eq_true]

/-- Settles O45: `wireSearch_idle`, and `wireSearch_found` for `ADDR` and `SI`. All outputs of the pass are transfers. -/
theorem searchPassFollowsTheTriplets : Obligations.SearchPassFollowsTheTriplets := by
  intro s c hldf h1 h5 h9 h12 h14 hidle hpresence r branch hconsistent
  obtain ⟨u, new, e, hbuf, hld, hlog, hlen, htransfers, hcommand, hdirections⟩ :=
    wireSearch_idle hldf ⟨h1, h5, h9, h12, h14⟩ hidle hpresence hconsistent
  obtain ⟨haddr, -, -, -, hsi⟩ := wireSearch_found e
  simp only [Triplet.branch_iff, Triplet.branch_eq_false_iff] at hld
  refine ⟨finish 0x01#8 u, new, next_finish_pair boolByte e, rfl, haddr, fun i => ?_, hld, hsi, ?_, ?_, ?_⟩
  · exact (congrArg (romBit · i) haddr).trans (hbuf i)
  · rw [finish_log, hlog]
  · rw [transfersIn_eq_length htransfers, hlen]
  · rw [List.filter_eq_self.2 htransfers]
    exact ⟨hcommand, hdirections⟩

/-! ### A pass that an inconsistent triplet ends -/

/-- Settles O46: the start of the pass and the bits up to the inconsistent one, five transfers each. -/
theorem inconsistentTripletEndsThePass : Obligations.InconsistentTripletEndsThePass := by
  intro s c i hldf h1 h5 h9 h12 h14 hidle hpresence r hconsistent hid hcmp
  obtain ⟨hreset, hlater, first, hfirst, hlen, htransfers, -⟩ := afterSearchCommand_idle ⟨h1, h5, h9, h12, h14⟩
  obtain ⟨u, rest, hbits, hsi, hkept, hwritten, hrest, hlen', htransfers'⟩ :=
    searchBits_stops c bitPositions (List.nodup_finRange 64) (-1) (afterSearchCommand s) i (by simp)
      (fun j hj => (hlater.triplet j).1.2 (hidle ⟨j, by omega⟩ hj))
      (fun j hj => by
        rw [(hlater.triplet j).2]
        exact hconsistent ⟨j, by omega⟩ hj)
      (by
        rw [(hlater.triplet i).2]
        exact Bool.and_eq_true_iff.2 ⟨hid, hcmp⟩)
  obtain ⟨haddr, hframe, hothers, hld, hldf'⟩ := searchPass_regs c s hbits
  have e := wireSearch_of_inconsistent hldf (hreset.trans hpresence) hbits
  refine ⟨finish 0x00#8 u, first ++ rest, next_finish_pair boolByte e, rfl, hsi, fun j => ?_, hld, hldf'.trans hldf,
    haddr, hframe, hothers, ?_, ?_⟩
  · rw [finish_ss]
    split
    · next hj =>
      have hdir := hwritten j hj
      rwa [bitPositions_getElem, (hlater.triplet j).2] at hdir
    · next hj =>
      rw [hkept j (mt mem_bitPositions_take.1 hj), ss_congr (same_afterSearchCommand s).search]
  · rw [finish_log, hrest, hfirst, List.append_assoc s.log]
  · rw [transfersIn_append, transfersIn_eq_length htransfers, transfersIn_eq_length htransfers', hlen, hlen']
    omega

end Sys2Proof.Machine
end

section
/-! A bus on which `SR.ALL` never ends (spec/43_search.md R207): every status shows presence, not busy, and a triplet at
which the devices differ and the 0 way is taken, so that each pass finds a device and leaves a discrepancy. -/

namespace Sys2Proof.Machine

/-- A run of the machine of `k + 1` steps is one step and a run of `k`. -/
theorem run_of_step (k : Nat) {s t : State} (h : step s = .next t) :
    Host.Core.run Sys2Proof.core (k + 1) s = Host.Core.run Sys2Proof.core k t :=
  run_next (M := Sys2Proof.core) k h

/-! ### Replies that are all the same byte -/

/-- The next `m` transfers all answer the byte `b`. -/
def State.Answers (s : State) (m : Nat) (b : Byte) : Prop := ∀ k, k < m → (s.replyAt k).byte = b

theorem answers_replicate {s : State} {m : Nat} {r : Reply} (h : s.replies = List.replicate m r) : s.Answers m r.byte := by
  intro k hk
  have hlt : k < s.replies.length := by rwa [h, List.length_replicate]
  rw [State.replyAt, dif_pos hlt]
  simp only [h, List.getElem_replicate]

/-- A part of a rule takes one reply for each transfer among its outputs. -/
theorem Ran.replyAt_of_log {f : Byte} {lo hi : Nat} {s t : State} (h : Ran f lo hi s t) {new : List Output}
    (hlog : t.log = s.log ++ new) (k : Nat) : t.replyAt k = s.replyAt (transfersIn new + k) := by
  obtain ⟨new', hlog', -, -, -, hreplies, hdrawn⟩ := h.port
  obtain rfl : new = new' := List.append_cancel_left (hlog.symm.trans hlog')
  exact replyAt_of_port hreplies hdrawn k

/-! ### The status byte of the bus -/

/-- The status with the presence bit alone. -/
def presentByte (p : Params) : Byte := BitVec.twoPow 8 p.stPpd.val

theorem getLsbD_presentByte (p : Params) (j : Fin 8) : (presentByte p).getLsbD j.val = decide (p.stPpd = j) := by
  simp [presentByte, Fin.ext_iff, eq_comm]

/-- With the status bits at different positions (R8) it shows not busy, presence, and a triplet of three zeros. -/
theorem presentByte_status {p : Params} (hwf : p.wf = true) :
    statusBusy p (presentByte p) = false ∧ statusPresence p (presentByte p) = true ∧
      statusTriplet p (presentByte p) = ⟨false, false, false⟩ := by
  have hnodup : [p.st1wb, p.stPpd, p.stSd, p.stSbr, p.stTsb, p.stDir].Nodup := by
    simp only [Params.wf, Bool.and_eq_true, decide_eq_true_eq] at hwf
    exact hwf.1.1.1.2
  simp only [List.nodup_cons, List.mem_cons, not_or] at hnodup
  obtain ⟨⟨hbusy, -⟩, ⟨-, hsample, hcomplement, hdirection, -⟩, -⟩ := hnodup
  have hbit := getLsbD_presentByte p
  refine ⟨(hbit _).trans (decide_eq_false (Ne.symm hbusy)), (hbit _).trans (decide_eq_true rfl), ?_⟩
  simp only [statusTriplet, statusSample, hbit, hsample, hcomplement, hdirection, decide_false]

/-! ### The turns -/

/-- The bus serves `m` more turns of `SR.ALL` on channel `c` with this status, and none of them is on an exhausted
channel. -/
structure EndlessBus (c : Fin 8) (m : Nat) (s : State) : Prop where
  wf : s.params.wf = true
  noReset : s.resetIn = none
  notExhausted : (s.ss c).ldf = false
  answers : s.Answers (336 * m) (presentByte s.params)

/-- A pass on the bus finds a device at a discrepancy. -/
theorem EndlessBus.pass {c : Fin 8} {m : Nat} {s : State} (h : EndlessBus c (m + 1) s) :
    (wireSearch c s).1 = true ∧ EndlessBus c m (wireSearch c s).2 := by
  obtain ⟨hbusy, hpresence, htriplet⟩ := presentByte_status h.wf
  have hbyte : ∀ k, k < 336 → (s.replyAt k).byte = presentByte s.params := fun k hk => h.answers k (by omega)
  have hidle : ∀ k, k < 336 → s.idleAt k := fun k hk => by rw [State.idleAt, hbyte k hk, hbusy]
  have hat : ∀ i : Fin 64, s.tripletAt i = ⟨false, false, false⟩ := fun i => by
    rw [State.tripletAt, hbyte _ (by omega), htriplet]
  have hstart : s.StartIdle :=
    ⟨hidle 1 (by omega), hidle 5 (by omega), hidle 9 (by omega), hidle 12 (by omega), hidle 14 (by omega)⟩
  obtain ⟨u, new, e, -, hld, hlog, hlen, htransfers, -⟩ := wireSearch_idle h.notExhausted hstart
    (fun i => ⟨hidle _ (by omega), hidle _ (by omega)⟩) (by rw [hbyte 12 (by omega), hpresence])
    (fun i => by rw [hat i]; rfl)
  have hran := ran_wireSearch c s
  obtain ⟨-, -, -, hldf, -⟩ := wireSearch_found e
  rw [e] at hran ⊢
  refine ⟨rfl, by rw [hran.params]; exact h.wf, hran.resetIn.trans h.noReset, ?_, fun k hk => ?_⟩
  · rcases hld with ⟨-, hnone⟩ | ⟨i, hi, -⟩
    · have := hnone 0
      rw [hat 0] at this; cases this
    · rw [hldf, hi]; simp
  · rw [hran.replyAt_of_log hlog, transfersIn_eq_length htransfers, hlen, hran.params]
    exact h.answers _ (by omega)

/-- A turn on the bus goes on, whether the identifier found is valid or not. -/
theorem EndlessBus.turn {c : Fin 8} {m : Nat} {s : State} (h : EndlessBus c (m + 1) s) (n : Nat) :
    (∃ n', (searchAllPass c n s).running = some ⟨c, n'⟩) ∧ EndlessBus c m (searchAllPass c n s) := by
  obtain ⟨hfound, hbus⟩ := h.pass
  rcases searchAllPass_cases c n s with ⟨-, -, e⟩ | ⟨-, -, e⟩ | ⟨hnone, -⟩
  · rw [e]; exact ⟨⟨_, rfl⟩, hbus.wf, hbus.noReset, hbus.notExhausted, hbus.answers⟩
  · rw [e]; exact ⟨⟨_, rfl⟩, hbus.wf, hbus.noReset, hbus.notExhausted, hbus.answers⟩
  · rw [hfound] at hnone; cases hnone

theorem EndlessBus.run {c : Fin 8} {m n : Nat} {s : State} (h : EndlessBus c m s) (hrunning : s.running = some ⟨c, n⟩) :
    ∃ t : State, Host.Core.run Sys2Proof.core m s = .next t ∧ t.running.isSome = true := by
  induction m generalizing n s with
  | zero => exact ⟨s, rfl, by rw [hrunning]; rfl⟩
  | succ m ih =>
    obtain ⟨⟨n', hrunning'⟩, hbus⟩ := h.turn n
    obtain ⟨t, hrun, ht⟩ := ih hbus hrunning'
    have hstep : step s = .next (searchAllPass c n s) :=
      (step_of_noReset h.noReset).trans (advance_of_running hrunning)
    exact ⟨t, (run_of_step m hstep).trans hrun, ht⟩

/-- A controller to which `SR.ALL c` is offered on a bus that serves `m` turns. -/
def endlessState (p : Params) (c : Fin 8) (m : Nat) : State :=
  { State.reset with
    params := p
    requests := [encode (.srAll c)]
    replies := List.replicate (336 * m) ⟨true, presentByte p, 0⟩ }

/-- Settles O49: the step that serves the request is the first turn on the bus, and `n` more turns follow. -/
theorem searchAllHasNoPassBound : Obligations.SearchAllHasNoPassBound := by
  intro p c n hwf hc
  let s₀ := wireResetSearch c { endlessState p c (n + 1) with requests := [] }
  have hbus : EndlessBus c (n + 1) s₀ :=
    ⟨hwf, rfl, congrArg SearchState.ldf (setSearch_ss_self _ c _), answers_replicate (s := s₀) rfl⟩
  obtain ⟨⟨n', hrunning⟩, hbus'⟩ := hbus.turn 0
  obtain ⟨t, hrun, ht⟩ := hbus'.run hrunning
  have hdecode : decode p.numChannels (encode (.srAll c)) = .ok (.srAll c) :=
    decodeOfEncode p.numChannels (.srAll c) (decide_eq_true hc)
  have hstep : step (endlessState p c (n + 1)) = .next (searchAllPass c 0 s₀) :=
    (step_of_noReset rfl).trans (advance_of_legal (s := endlessState p c (n + 1)) rfl rfl hdecode)
  exact ⟨endlessState p c (n + 1), t, rfl, rfl, rfl, rfl, (run_of_step n hstep).trans hrun, ht⟩

end Sys2Proof.Machine
end

section
/-! Enumeration on a well-behaved bus: `SR.NEXT` from fresh finds the devices in the order of R198
(spec/43_search.md R198, R199). -/

namespace Sys2Proof.Machine

/-- A position of the buffer is a bit of the packed identifier (R24, R58). -/
theorem identBit_identOf (buf : Vector Byte 8) (i : Fin 64) : identBit (identOf buf) i = romBit buf i :=
  (bufferBitsAreIdentifierBits buf i).1.trans (bufferBitsAreIdentifierBits buf i).2.symm

/-- The next pass from the search state `x` finds `w` among `ds`: it drives `w`'s bit wherever a device that agreed with
`w` so far parts from it. -/
structure Awaits (ds : List Ident) (w : Ident) (x : SearchState) : Prop where
  notExhausted : x.ldf = false
  drives : ∀ i : Fin 64, (∃ v ∈ ds, (∀ j, j < i → identBit v j = identBit w j) ∧ identBit v i ≠ identBit w i) →
    searchDirection x i = identBit w i

/-- A fresh channel awaits the first device. -/
theorem awaits_first {ds : List Ident} (hp : ds.Pairwise precedes) (h : 0 < ds.length) : Awaits ds ds[0] .fresh := by
  cases ds with
  | nil => cases h
  | cons w ws => exact ⟨rfl, dir_first hp rfl⟩

section
variable {c : Fin 8} {ds : List Ident} {k : Nat} {s : State}

/-- A pass that finds device `k` leaves the channel exhausted where it is the last, and awaiting the next one where it is
not (R196, R198). -/
theorem Awaits.pass (hp : ds.Pairwise precedes) (hk : k < ds.length) (h : Awaits ds ds[k] (s.ss c))
    (hbus : wellBehavedPass c ds s = true) :
    ∃ u, wireSearch c s = (true, u) ∧ identOf u.addr = ds[k] ∧ (u.ss c).ldf = decide (k + 1 = ds.length) ∧
      ∀ hk' : k + 1 < ds.length, Awaits ds ds[k + 1] (u.ss c) := by
  obtain ⟨u, e, hfound, haddr, hldf⟩ := wireSearch_finds c ds ds[k] s h.notExhausted (List.getElem_mem hk) hbus h.drives
  have hident : identOf u.addr = ds[k] :=
    ident_ext fun i => by rw [haddr, identBit_identOf]; exact hfound.1 i
  refine ⟨u, e, hident, ?_⟩
  rcases Nat.lt_or_ge (k + 1) ds.length with hlt | hge
  · obtain ⟨i, hld, -⟩ := found_ld hlt hp hfound
    have hfalse : (u.ss c).ldf = false := by rw [hldf, hld]; simp
    exact ⟨hfalse.trans (decide_eq_false (by omega)).symm, fun hk' => ⟨hfalse, dir_next hk' hp hfound⟩⟩
  · have hlast : k + 1 = ds.length := by omega
    refine ⟨?_, fun hk' => absurd hk' (by omega)⟩
    rw [hldf, found_last hk hlast hp hfound, decide_eq_true hlast, decide_eq_true rfl]

/-- Before call `k` of `SR.NEXT` from fresh, counted from 0, the channel awaits device `k`. -/
theorem awaits_afterNexts (hfresh : s.ss c = .fresh) (hp : ds.Pairwise precedes)
    (hbus : ∀ k, k < ds.length → wellBehavedPass c ds (afterNexts c k s) = true) (hk : k < ds.length) :
    Awaits ds ds[k] ((afterNexts c k s).ss c) := by
  induction k with
  | zero => exact hfresh ▸ awaits_first hp hk
  | succ k ih =>
    obtain ⟨u, e, -, -, hnext⟩ := (ih (by omega)).pass hp (by omega) (hbus k (by omega))
    rw [afterNexts, finish_ss, e]
    exact hnext hk

/-- Call `k` of `SR.NEXT` from fresh finds device `k`, and leaves the channel exhausted exactly where it is the last. -/
theorem afterNexts_found (hfresh : s.ss c = .fresh) (hp : ds.Pairwise precedes)
    (hbus : ∀ k, k < ds.length → wellBehavedPass c ds (afterNexts c k s) = true) (hk : k < ds.length) :
    (afterNexts c (k + 1) s).res = 0x01#8 ∧ identOf (afterNexts c (k + 1) s).addr = ds[k] ∧
      ((afterNexts c (k + 1) s).ss c).ldf = decide (k + 1 = ds.length) := by
  obtain ⟨u, e, hident, hldf, -⟩ := (awaits_afterNexts hfresh hp hbus hk).pass hp hk (hbus k hk)
  rw [afterNexts, finish_res, finish_addr, finish_ss, e]
  exact ⟨rfl, hident, hldf⟩

end

/-- Settles O50: each call by `afterNexts_found`; after the last the channel is exhausted. -/
theorem searchEnumeratesInBitOrder : Obligations.SearchEnumeratesInBitOrder := by
  intro s c ds hfresh hne hp hbus
  refine ⟨fun k hk => ⟨rfl, afterNexts_found hfresh hp hbus hk⟩, ?_⟩
  obtain ⟨m, hm⟩ : ∃ m, ds.length = m + 1 := Nat.exists_eq_add_one.2 (List.length_pos_iff.2 hne)
  obtain ⟨-, -, hldf⟩ := afterNexts_found hfresh hp hbus (k := m) (by omega)
  refine exhaustedSearchIsIdempotent _ c ?_
  rw [hm, hldf, decide_eq_true hm.symm]

end Sys2Proof.Machine
end

section
/-! `SR.ALL` on a well-behaved bus: one turn a device and a last one, which responds (spec/43_search.md R198, R199, R205
to R207). -/

namespace Sys2Proof.Machine

/-! ### The events among the outputs (R30, R206) -/

theorem eventsIn_append {xs ys : List Output} (h : Output.reset ∉ ys) :
    eventsIn (xs ++ ys) = eventsIn xs ++ eventsIn ys := by
  induction xs with
  | nil => rfl
  | cons o xs ih =>
    cases o with
    | found id =>
      have hreset : (xs ++ ys).contains .reset = xs.contains .reset := by simp [h]
      rw [List.cons_append, eventsIn, eventsIn, hreset, ih]
      split <;> rfl
    | _ => exact ih

/-- What goes to the upstream port is no event and no reset. -/
theorem eventsIn_upstream {dev : BitVec 7} {os : List Output} (h : ∀ o ∈ os, o.upstream dev = true) :
    Output.reset ∉ os ∧ eventsIn os = [] := by
  refine ⟨fun hr => ?_, ?_⟩
  · cases h _ hr
  induction os with
  | nil => rfl
  | cons o os ih =>
    have ih := ih fun o ho => h o (List.mem_cons_of_mem _ ho)
    cases o with
    | found id => cases h _ List.mem_cons_self
    | _ => exact ih

/-- `t` adds these events to the outputs of `s`, and no reset. -/
def Emits (s t : State) (ids : List Ident) : Prop :=
  ∃ new, t.log = s.log ++ new ∧ Output.reset ∉ new ∧ eventsIn new = ids

theorem Emits.trans {s t u : State} {ids ids' : List Ident} (h : Emits s t ids) (h' : Emits t u ids') :
    Emits s u (ids ++ ids') := by
  obtain ⟨new, hlog, hreset, hids⟩ := h
  obtain ⟨new', hlog', hreset', hids'⟩ := h'
  refine ⟨new ++ new', by rw [hlog', hlog, List.append_assoc], by simp [hreset, hreset'], ?_⟩
  rw [eventsIn_append hreset', hids, hids']

/-- A part of a rule emits nothing. -/
theorem Ran.emits {f : Byte} {lo hi : Nat} {s t : State} (h : Ran f lo hi s t) : Emits s t [] := by
  obtain ⟨new, hlog, hnew, -⟩ := h.port
  exact ⟨new, hlog, eventsIn_upstream hnew⟩

/-! ### The turn of a device found (R205) -/

theorem identByte_identOf (buf : Vector Byte 8) (k : Fin 8) : identByte (identOf buf) k.val = buf[k] :=
  BitVec.eq_of_getLsbD_eq fun j hj => by rw [getLsbD_identByte _ _ hj, getLsbD_identOf buf k hj]

/-- The check of `ADDR` is the check of the identifier it holds (R236). -/
theorem addrValid_eq (u : State) : addrValid u = identValid u.params.crcInit (identOf u.addr) := by
  have hbytes : (List.range 7).map (identByte (identOf u.addr)) = u.addr.toList.take 7 := by
    refine List.ext_getElem (by simp) fun k hk _ => ?_
    have hk : k < 7 := by simpa using hk
    rw [List.getElem_map, List.getElem_range, identByte_identOf u.addr ⟨k, by omega⟩]
    simp
  have hlast : identByte (identOf u.addr) 7 = u.addrByte 7 := identByte_identOf u.addr 7
  rw [addrValid, identValid, hbytes, hlast, crcOfAddr]

/-- What a turn that finds a device leaves beside what its pass left. -/
theorem searchAllPass_found {c : Fin 8} {n : Nat} {s u : State} (e : wireSearch c s = (true, u)) :
    let valid := identValid u.params.crcInit (identOf u.addr)
    let t := searchAllPass c n s
    t.running = some ⟨c, n + valid.toNat⟩ ∧ t.resetIn = u.resetIn ∧ t.requests = u.requests ∧ t.params = u.params ∧
      t.addr = u.addr ∧ t.ss c = u.ss c ∧ Emits u t (if valid then [identOf u.addr] else []) ∧
      t.err.getLsbD 5 = (u.err.getLsbD 5 || !valid) := by
  intro valid t
  have hfound : (wireSearch c s).1 = true := by rw [e]
  have hcheck : addrValid (wireSearch c s).2 = valid := by rw [e]; exact addrValid_eq u
  cases hvalid : valid with
  | true =>
    have ht : t = { emitFound (identOf u.addr) u with running := some ⟨c, n + 1⟩ } := by
      rw [show t = _ from searchAllPass_of_valid hfound (hcheck.trans hvalid), e]
    rw [ht]
    exact ⟨rfl, rfl, rfl, rfl, rfl, rfl, ⟨[.found (identOf u.addr)], rfl, by simp, rfl⟩, (Bool.or_false _).symm⟩
  | false =>
    have ht : t = { raiseErr .crcValidationFailure u with running := some ⟨c, n⟩ } := by
      rw [show t = _ from searchAllPass_of_invalid hfound (hcheck.trans hvalid), e]
    rw [ht]
    exact ⟨rfl, rfl, rfl, rfl, rfl, rfl, ⟨[], (List.append_nil _).symm, by simp, rfl⟩,
      getLsbD_raiseErr .crcValidationFailure u 5⟩

/-! ### The turns in order -/

/-- The valid identifiers among the first `k` devices. -/
def validFound (init : Byte) (ds : List Ident) (k : Nat) : List Ident := (ds.take k).filter (identValid init)

section
variable {init : Byte} {ds : List Ident} {k : Nat}

theorem validFound_succ (hk : k < ds.length) :
    validFound init ds (k + 1) = validFound init ds k ++ if identValid init ds[k] then [ds[k]] else [] := by
  rw [validFound, ← List.take_append_getElem hk, List.filter_append, List.filter_singleton, cond_eq_ite, validFound]

theorem length_validFound_succ (hk : k < ds.length) :
    (validFound init ds (k + 1)).length = (validFound init ds k).length + (identValid init ds[k]).toNat := by
  rw [validFound_succ hk, List.length_append]
  cases identValid init ds[k] <;> rfl

theorem validFound_length : validFound init ds ds.length = ds.filter (identValid init) := by
  rw [validFound, List.take_length]

end

/-- `u` is the state before turn `k`, counted from 0, of the `SR.ALL` on channel `c` that `s` has accepted: each earlier
turn has found its device. -/
structure BeforeTurn (c : Fin 8) (ds : List Ident) (s : State) (k : Nat) (u : State) : Prop where
  noReset : u.resetIn = none
  requests : u.requests = s.requests
  params : u.params = s.params
  emits : Emits s u (validFound s.params.crcInit ds k)
  crcFlag : u.err.getLsbD 5 = (s.err.getLsbD 5 || !(ds.take k).all (identValid s.params.crcInit))
  awaits : ∀ hk : k < ds.length, Awaits ds ds[k] (u.ss c)
  last : k = ds.length → (u.ss c).ldf = !ds.isEmpty ∧ ∀ h : ds ≠ [], identOf u.addr = ds.getLast h

section
variable {c : Fin 8} {ds : List Ident} {s u : State} {k : Nat}

/-- Before the first turn. -/
theorem beforeTurn_zero (hp : ds.Pairwise precedes) (hreset : s.resetIn = none) :
    BeforeTurn c ds s 0 (wireResetSearch c s) where
  noReset := hreset
  requests := rfl
  params := rfl
  emits := ⟨[], (List.append_nil _).symm, by simp, rfl⟩
  crcFlag := (Bool.or_false _).symm
  awaits hk := by
    have hss : (wireResetSearch c s).ss c = .fresh := setSearch_ss_self s c .fresh
    exact hss ▸ awaits_first hp hk
  last hk := by
    obtain rfl := List.length_eq_zero_iff.1 hk.symm
    exact ⟨congrArg SearchState.ldf (setSearch_ss_self s c .fresh), fun h => absurd rfl h⟩

/-- A turn on a well-behaved bus that has a device left finds it and goes on. -/
theorem BeforeTurn.turn (h : BeforeTurn c ds s k u) (hp : ds.Pairwise precedes) (hk : k < ds.length)
    (hbus : wellBehavedPass c ds u = true) :
    let t := searchAllPass c (validFound s.params.crcInit ds k).length u
    t.running = some ⟨c, (validFound s.params.crcInit ds (k + 1)).length⟩ ∧ BeforeTurn c ds s (k + 1) t := by
  obtain ⟨v, e, hident, hldf, hnext⟩ := (h.awaits hk).pass hp hk hbus
  have hran := ran_wireSearch c u
  rw [e] at hran
  obtain ⟨hrunning, hreset, hrequests, hparams, haddr, hss, hemits, hflag⟩ :=
    searchAllPass_found (n := (validFound s.params.crcInit ds k).length) e
  rw [hran.params, h.params, hident] at hrunning hemits hflag
  refine ⟨by rw [hrunning, length_validFound_succ hk], ?_⟩
  refine ⟨hreset.trans (hran.resetIn.trans h.noReset), hrequests.trans (hran.requests.trans h.requests),
    hparams.trans (hran.params.trans h.params), ?_, ?_, fun hk' => hss ▸ hnext hk', fun hlast => ⟨?_, fun hne => ?_⟩⟩
  · rw [validFound_succ hk]
    simpa using (h.emits.trans hran.emits).trans hemits
  · rw [hflag, hran.flag 5 rfl, h.crcFlag, ← List.take_append_getElem hk, List.all_append, Bool.not_and, Bool.or_assoc]
    simp
  · rw [hss, hldf, decide_eq_true hlast]
    cases ds with
    | nil => cases hk
    | cons _ _ => rfl
  · rw [haddr, hident, List.getLast_eq_getElem]
    congr 1
    omega

/-- After the last device, or where there is none, a pass finds nothing and writes no register. -/
theorem BeforeTurn.pass_after_last (h : BeforeTurn c ds s ds.length u)
    (hbus : ds = [] → wellBehavedPass c ds u = true) :
    ∃ v, wireSearch c u = (false, v) ∧ SameRegs u v := by
  obtain ⟨hldf, -⟩ := h.last rfl
  cases ds with
  | nil =>
    have hpresence : (wireReset u).1 = false := by simpa [wellBehavedPass] using hbus rfl
    exact ⟨_, wireSearch_of_noPresence hldf hpresence, same_wireReset u⟩
  | cons _ _ => exact ⟨u, wireSearch_of_exhausted hldf, SameRegs.refl u⟩

end

/-- A run, and one step more. -/
theorem run_then_step {M : Host.Core} {k : Nat} {s t u : M.State} (h : M.run k s = .next t) (hstep : M.step t = .next u) :
    M.run (k + 1) s = .next u := by
  induction k generalizing s with
  | zero =>
    cases h
    exact run_next 0 hstep
  | succ k ih =>
    unfold Host.Core.run at h
    split at h
    · next s' hs => exact (run_next (k + 1) hs).trans (ih h)
    · cases h
    · cases h

section
variable {c : Fin 8} {ds : List Ident} {s : State} {w : Request} {ws : List Request}

/-- The run of an `SR.ALL` on a well-behaved bus up to turn `k`: the step that serves the request is turn 0. -/
theorem run_beforeTurn (hreset : s.resetIn = none) (hrunning : s.running = none) (hrequests : s.requests = w :: ws)
    (hdecode : decode s.params.numChannels w = .ok (.srAll c)) (hp : ds.Pairwise precedes)
    (hfirst : wellBehavedPass c ds (wireResetSearch c { s with requests := ws }) = true)
    (hbus : ∀ k u, 0 < k → k < ds.length → Host.Core.run Sys2Proof.core k s = .next u → wellBehavedPass c ds u = true)
    {k : Nat} (hk : k ≤ ds.length) :
    ∃ u, BeforeTurn c ds { s with requests := ws } k u ∧ (k < ds.length ∨ k = 0 → wellBehavedPass c ds u = true) ∧
      Host.Core.run Sys2Proof.core (k + 1) s =
        .next (searchAllPass c (validFound s.params.crcInit ds k).length u) := by
  induction k with
  | zero =>
    refine ⟨_, beforeTurn_zero hp hreset, fun _ => hfirst, run_of_step 0 ?_⟩
    exact (step_of_noReset hreset).trans (advance_of_legal hrunning hrequests hdecode)
  | succ k ih =>
    obtain ⟨u, hturn, hwell, hrun⟩ := ih (by omega)
    obtain ⟨hrunning', hturn'⟩ := hturn.turn hp hk (hwell (.inl hk))
    refine ⟨_, hturn', fun h => hbus (k + 1) _ (by omega) (by omega) hrun, run_then_step (M := Sys2Proof.core) hrun ?_⟩
    exact (step_of_noReset hturn'.noReset).trans (advance_of_running hrunning')

end

/-- Settles O51: the last turn follows those that found the devices, finds nothing and responds. -/
theorem searchAllFindsEveryValidDevice : Obligations.SearchAllFindsEveryValidDevice := by
  intro s c w ws ds hreset hrunning hrequests hdecode hp hfirst hbus valid
  obtain ⟨u, hturn, hwell, hrun⟩ :=
    run_beforeTurn hreset hrunning hrequests hdecode hp hfirst hbus (le_refl ds.length)
  obtain ⟨v, e, hsame⟩ := hturn.pass_after_last fun h => hwell (.inr (h ▸ rfl))
  have hran := ran_wireSearch c u
  rw [e] at hran
  have hnone : (wireSearch c u).1 = false := by rw [e]
  obtain ⟨new, hlog, hnew, hevents⟩ := hturn.emits.trans hran.emits
  rw [searchAllPass_of_none hnone, e, validFound_length] at hrun
  refine ⟨_, new ++ [.response .ok (BitVec.ofNat 8 (min (ds.filter valid).length 255))], hrun, rfl,
    hran.requests.trans hturn.requests, ?_, ?_, rfl, ?_, ?_, fun hne => ?_⟩
  · rw [finish_log, ← List.append_assoc]
    exact congrArg (· ++ _) hlog
  · rw [eventsIn_append (by simp), hevents, validFound_length]
    simp [eventsIn, valid]
  · rw [finish_err, ← List.take_length (l := ds), ← hturn.crcFlag]
    exact hran.flag 5 rfl
  · exact (congrArg SearchState.ldf (ss_congr hsame.search c)).trans (hturn.last rfl).1
  · exact (congrArg identOf hsame.addr).trans ((hturn.last rfl).2 hne)

end Sys2Proof.Machine
end

section
/-! The CRC-8 engine: the table form, the algebraic laws, and the two checks (spec/44_crc.md R230 to R238). -/

namespace Sys2Proof.Machine

/-! ### One round of the update (R230) -/

/-- What a round adds to the shifted register: the polynomial where the mixed bit is 1. -/
def mixPoly (mix : Bool) : Byte := if mix then Config.crcPoly else 0#8

theorem crcRounds_succ (n : Nat) (c b : Byte) :
    crcRounds (n + 1) c b = crcRounds n (c >>> 1 ^^^ mixPoly ((c ^^^ b).getLsbD 0)) (b >>> 1) := by
  rw [crcRounds]
  cases (c ^^^ b).getLsbD 0 with
  | false => rw [show mixPoly false = 0#8 from rfl, BitVec.xor_zero]; rfl
  | true => rfl

theorem mixPoly_xor (m₁ m₂ : Bool) : mixPoly (m₁ ^^ m₂) = mixPoly m₁ ^^^ mixPoly m₂ := by
  revert m₁ m₂; decide

/-- The polynomial has its top bit set, which the shift has cleared: the top bit of the new register is the mixed bit. -/
theorem getLsbD_shift_mixPoly (c : Byte) (mix : Bool) : (c >>> 1 ^^^ mixPoly mix).getLsbD 7 = mix := by
  cases mix <;> simp [mixPoly, Config.crcPoly]

/-- A round with the data bit 0 loses nothing of the register. -/
theorem eq_zero_of_shift_mixPoly {c : Byte} (h : c >>> 1 ^^^ mixPoly (c.getLsbD 0) = 0#8) : c = 0#8 := by
  have hlow : c.getLsbD 0 = false := by rw [← getLsbD_shift_mixPoly c (c.getLsbD 0), h]; rfl
  rw [hlow, show mixPoly false = 0#8 from rfl, BitVec.xor_zero] at h
  refine BitVec.eq_of_getLsbD_eq fun i hi => ?_
  cases i with
  | zero => exact hlow
  | succ i =>
    have hbit := congrArg (·.getLsbD i) h
    simpa [Nat.add_comm] using hbit

/-! ### The update is linear, and 0 exactly where the byte is the register (R238) -/

theorem crcRounds_linear (n : Nat) (c₁ c₂ b₁ b₂ : Byte) :
    crcRounds n (c₁ ^^^ c₂) (b₁ ^^^ b₂) = crcRounds n c₁ b₁ ^^^ crcRounds n c₂ b₂ := by
  induction n generalizing c₁ c₂ b₁ b₂ with
  | zero => rfl
  | succ n ih =>
    have hmix : (c₁ ^^^ c₂ ^^^ (b₁ ^^^ b₂)).getLsbD 0 = ((c₁ ^^^ b₁).getLsbD 0 ^^ (c₂ ^^^ b₂).getLsbD 0) := by
      rw [show c₁ ^^^ c₂ ^^^ (b₁ ^^^ b₂) = c₁ ^^^ b₁ ^^^ (c₂ ^^^ b₂) by ac_rfl, BitVec.getLsbD_xor]
    have hreg : (c₁ ^^^ c₂) >>> 1 ^^^ mixPoly ((c₁ ^^^ c₂ ^^^ (b₁ ^^^ b₂)).getLsbD 0) =
        (c₁ >>> 1 ^^^ mixPoly ((c₁ ^^^ b₁).getLsbD 0)) ^^^ (c₂ >>> 1 ^^^ mixPoly ((c₂ ^^^ b₂).getLsbD 0)) := by
      rw [hmix, mixPoly_xor, BitVec.ushiftRight_xor_distrib]; ac_rfl
    rw [crcRounds_succ, crcRounds_succ n c₁, crcRounds_succ n c₂, ← ih, hreg, BitVec.ushiftRight_xor_distrib]

theorem eq_zero_of_crcRounds {n : Nat} {c : Byte} (h : crcRounds n c 0#8 = 0#8) : c = 0#8 := by
  induction n generalizing c with
  | zero => exact h
  | succ n ih =>
    rw [crcRounds_succ, BitVec.xor_zero, BitVec.zero_ushiftRight] at h
    exact eq_zero_of_shift_mixPoly (ih h)

theorem crc8Update_self (c : Byte) : crc8Update c c = 0#8 := by
  rw [crc8Update_eq, BitVec.xor_self]; rfl

theorem crc8Update_eq_zero_iff {c b : Byte} : crc8Update c b = 0#8 ↔ c = b := by
  refine ⟨fun h => ?_, fun h => h ▸ crc8Update_self c⟩
  have hdiff : crc8Update (c ^^^ b) 0#8 = 0#8 := by rw [crc8Update_eq, BitVec.xor_zero, ← crc8Update_eq, h]
  exact BitVec.xor_eq_zero_iff.1 (eq_zero_of_crcRounds hdiff)

/-! ### The table form (R232) -/

/-- The printed table holds at `x` the update of register 0 by `x`. -/
theorem crcTable_eq_map : crcTable = (List.range 256).map fun x => crc8Update 0#8 (BitVec.ofNat 8 x) := by
  decide +kernel

theorem crcTable_getD (x : Byte) : crcTable.getD x.toNat 0#8 = crc8Update 0#8 x := by
  simp [crcTable_eq_map, List.getD, x.isLt]

/-- Settles O54: both forms depend on `c ^ b` alone, and the table is the update of register 0. -/
theorem tableFormAgreesWithBitSerial : Obligations.TableFormAgreesWithBitSerial := fun c b => by
  rw [crc8TableUpdate, crcTable_getD, crc8Update_eq]

/-! ### The laws of the CRC of a sequence (R238) -/

theorem crc8_concat (init : Byte) (bytes : List Byte) (x : Byte) :
    crc8 init (bytes ++ [x]) = crc8Update (crc8 init bytes) x :=
  List.foldl_concat crc8Update init x bytes

theorem crc8_zeros_append (n : Nat) (bytes : List Byte) :
    crc8 0x00#8 (List.replicate n 0x00#8 ++ bytes) = crc8 0x00#8 bytes := by
  induction n with
  | zero => rfl
  | succ n ih =>
    rw [List.replicate_succ, List.cons_append, crc8, List.foldl_cons, crc8Update_self]
    exact ih

/-- Settles O55: the append law is the fold's, the residue and zero-prefix laws rest on the update of `c` by `c`, and
linearity is that of the rounds. -/
theorem crcLaws : Obligations.CrcLaws :=
  ⟨fun init bytes x => ⟨crc8_concat init bytes x, (crc8_concat init bytes _).trans (crc8Update_self _)⟩,
    crc8_zeros_append, crcRounds_linear 8⟩

/-! ### The checks (R236, R237) -/

theorem frameValid_iff (s : State) :
    frameValid s = true ↔ crc8 s.params.crcInit (s.frame.toList.take 8) = s.frame[8] := beq_iff_eq

/-- What a check leaves: the answer 1 where it passed, else the answer 0 and `CRC` raised. -/
def checked (valid : Bool) (s : State) : State := finish (boolByte valid) (raiseIf (!valid) .crcValidationFailure s)

theorem exec_crcChkaddr (s : State) : exec .crcChkaddr s = .next (checked (addrValid s) s) := rfl

theorem exec_crcChkframe (s : State) : exec .crcChkframe s = .next (checked (frameValid s) s) := rfl

theorem checked_of_iff {valid : Bool} {p : Prop} (hvalid : valid = true ↔ p) (s : State) :
    (p → checked valid s = finish 0x01#8 s) ∧ (¬p → checked valid s = finish 0x00#8 { s with err := s.err ||| 0x20#8 }) := by
  cases valid with
  | true => exact ⟨fun _ => rfl, fun hp => absurd (hvalid.1 rfl) hp⟩
  | false => exact ⟨fun hp => absurd (hvalid.2 hp) Bool.false_ne_true, fun _ => rfl⟩

theorem checked_res_eq_one_iff {valid : Bool} {s : State} : (checked valid s).res = 0x01#8 ↔ valid = true := by
  cases valid <;> simp [checked, boolByte]

/-- Settles O56: each check passes exactly where the two sides that the statement compares are equal. -/
theorem crcChecks : Obligations.CrcChecks := by
  intro s
  obtain ⟨haddr, haddr'⟩ := checked_of_iff (addrValid_iff s) s
  obtain ⟨hframe, hframe'⟩ := checked_of_iff (frameValid_iff s) s
  exact ⟨fun h => congrArg _ (haddr h), fun h => congrArg _ (haddr' h), fun h => congrArg _ (hframe h),
    fun h => congrArg _ (hframe' h)⟩

/-! ### The residue of an identifier (R236, R238) -/

theorem crcOfAddr_eight (s : State) : crcOfAddr 8 s = crc8Update (crcOfAddr 7 s) s.addr[7] := by
  have htake : s.addr.toList.take 8 = s.addr.toList.take 7 ++ [s.addr[7]] := by
    rw [List.take_succ_eq_append_getElem (by simp)]; simp
  rw [crcOfAddr, htake, crc8_concat, crcOfAddr]

theorem addrValid_iff_residue (s : State) : addrValid s = true ↔ crcOfAddr 8 s = 0x00#8 := by
  rw [crcOfAddr_eight, crc8Update_eq_zero_iff]; exact addrValid_iff s

/-- The CRC of the prefix does not read the CRC byte. -/
theorem crcOfAddr_seven_setAddr (v : Byte) (s : State) : crcOfAddr 7 (setAddr 7 v s) = crcOfAddr 7 s := by
  have htake : (s.addr.set 7 v).toList.take 7 = s.addr.toList.take 7 := by
    rw [Vector.toList_set, List.take_set_of_le (le_refl 7)]
  exact congrArg (crc8 s.params.crcInit) htake

theorem addrValid_setAddr_iff (v : Byte) (s : State) : addrValid (setAddr 7 v s) = true ↔ v = crcOfAddr 7 s := by
  rw [addrValid, crcOfAddr_seven_setAddr, setAddr_addrByte, if_pos rfl, beq_iff_eq, eq_comm]

/-- Settles O57: the CRC with byte 7 is an update, which is 0 exactly where byte 7 is the CRC of the prefix; that CRC is
the one byte that passes. -/
theorem validIdentifierHasZeroResidue : Obligations.ValidIdentifierHasZeroResidue := by
  intro s
  refine ⟨_, _, exec_crcChkaddr s, rfl, checked_res_eq_one_iff.trans (addrValid_iff_residue s), crcOfAddr 7 s, fun v => ?_⟩
  constructor
  · rintro ⟨t', e, h⟩
    rw [exec_crcChkaddr] at e
    cases e
    exact (addrValid_setAddr_iff v s).1 (checked_res_eq_one_iff.1 h)
  · exact fun h => ⟨_, exec_crcChkaddr _, checked_res_eq_one_iff.2 ((addrValid_setAddr_iff v s).2 h)⟩

end Sys2Proof.Machine
end

section
/-! Error flags and buffers: `ERR.CLR` and the two buffer writes (spec/45_buffers_errors.md R261, R262, R264). -/

namespace Sys2Proof.Machine

/-! ### The requests as updates of the state, then `finish` -/

theorem exec_errClr (m : BitVec 7) (s : State) :
    exec (.errClr m) s = .next (finish (clearErr m s).err (clearErr m s)) := rfl

theorem exec_addrSetb (k : Fin 8) (v : Byte) (s : State) :
    exec (.addrSetb k v) s = .next (finish 0x00#8 (setAddr k v s)) := rfl

theorem exec_frameSetb (k : Fin 9) (v : Byte) (s : State) :
    exec (.frameSetb k v) s = .next (finish 0x00#8 (setFrame k v s)) := rfl

/-! ### The written byte and the others -/

theorem setAddr_addrByte_self (k : Fin 8) (v : Byte) (s : State) : (setAddr k v s).addrByte k = v := by
  rw [setAddr_addrByte, if_pos rfl]

theorem setAddr_addrByte_ne {j k : Fin 8} (h : j ≠ k) (v : Byte) (s : State) :
    (setAddr k v s).addrByte j = s.addrByte j := by
  rw [setAddr_addrByte, if_neg h]

theorem setFrame_frameByte_self (k : Fin 9) (v : Byte) (s : State) : (setFrame k v s).frameByte k = v := by
  rw [setFrame_frameByte, if_pos rfl]

theorem setFrame_frameByte_ne {j k : Fin 9} (h : j ≠ k) (v : Byte) (s : State) :
    (setFrame k v s).frameByte j = s.frameByte j := by
  rw [setFrame_frameByte, if_neg h]

/-! ### The statements -/

/-- Settles O58: the meaning is `clearErr` and then `finish` of the `ERR` it leaves, and the two together are the state
the statement writes out. -/
theorem errClrClearsTheMask : Obligations.ErrClrClearsTheMask := fun s m => exec_errClr m s

/-- Settles O59: each meaning is one buffer update and then `finish`, which keeps the buffers. -/
theorem bufferWrites : Obligations.BufferWrites := by
  intro s v
  constructor
  · exact fun k => ⟨_, exec_addrSetb k v s, rfl, setAddr_addrByte_self k v s, fun _ h => setAddr_addrByte_ne h v s⟩
  · exact fun k => ⟨_, exec_frameSetb k v s, rfl, setFrame_frameByte_self k v s, fun _ h => setFrame_frameByte_ne h v s⟩

end Sys2Proof.Machine
end

section
/-! No step stops, and `ERR` grows by the kinds listed for a request (spec/60_exceptions.md R280, R282, R290, R294,
R296). -/

namespace Sys2Proof.Machine

/-! ### No step stops -/

/-- Settles O10, by when the reset input arrives: without one the step is that of the undisturbed controller, which
always goes on (`advance_next`); a reset between requests needs nothing, and one during a request abandons that step. -/
theorem everyStepGoesOn : Obligations.EveryStepGoesOn := by
  intro s
  obtain ⟨u, hu⟩ := advance_next s
  cases hreset : s.resetIn with
  | none => exact ⟨u, (step_of_noReset hreset).trans hu⟩
  | some d =>
    cases htime : d.time with
    | beforeRequest => exact ⟨_, step_of_resetBefore hreset htime⟩
    | during k => exact ⟨_, step_of_resetDuring hreset htime hu⟩

/-! ### The kinds a request raises -/

/-- `SR.ALL` lists every kind but `CSM`, bit 3 (R282). -/
theorem flagMask_srAll (c : Fin 8) : flagMask (mayRaise (.srAll c)) = 0x77#8 := rfl

theorem searchAllPass_raises (c : Fin 8) (n : Nat) (s : State) :
    ∃ raised, (searchAllPass c n s).err = s.err ||| raised ∧
      raised &&& ~~~flagMask (mayRaise (.srAll c)) = 0x00#8 := by
  obtain ⟨u, hran, herr, -⟩ := searchAllPass_ran c n s
  rw [herr, flagMask_srAll]
  exact hran.err

/-- Settles O15, by what a request can be: the first turn of `SR.ALL`, whose search reset keeps `ERR`; `ERR.CLR`, which
is excluded; or a part of a rule that raises only its kinds, and then `finish`, which keeps `ERR`. -/
theorem errorsAccumulateByOr : Obligations.ErrorsAccumulateByOr := by
  refine ⟨fun i s t hclr e => ?_, searchAllPass_raises⟩
  obtain ⟨c, rfl, rfl⟩ | ⟨m, rfl, -⟩ | ⟨v, u, rfl, hran⟩ := exec_cases e
  · exact searchAllPass_raises c 0 (wireResetSearch c s)
  · exact absurd rfl (hclr m)
  · exact hran.err

end Sys2Proof.Machine
end

section
/-! A reset during a request abandons it (spec/70_reset_and_hazards.md R311). -/

namespace Sys2Proof.Machine

/-- What `cutAfter` keeps is a transfer or a delay, so no event and no response. -/
theorem not_final_of_mem_cutAfter {k : Nat} {os : List Output} {o : Output} (h : o ∈ cutAfter k os) :
    ¬ o.final = true := by
  intro hfinal
  obtain ⟨-, htransfer | ⟨us, rfl⟩⟩ := mem_cutAfter h
  · exact Output.final_not_isTransfer hfinal htransfer
  · cases hfinal

/-- Cut after any number of transfers, the outputs of a request are upstream ones alone: the event or response at their
end is not kept. -/
theorem upstream_of_mem_cutAfter {dev : BitVec 7} {k : Nat} {new tail : List Output}
    (hnew : ∀ o ∈ new, o.upstream dev = true) (htail : ∀ o ∈ tail, o.final = true) {o : Output}
    (h : o ∈ cutAfter k (new ++ tail)) : o.upstream dev = true := by
  rcases List.mem_append.1 (mem_cutAfter h).1 with ho | ho
  · exact hnew o ho
  · exact absurd (htail o ho) (not_final_of_mem_cutAfter h)

/-- Settles O13: of what the undisturbed step puts out (`advance_served`), `abandon` issues the part that `cutAfter`
keeps, whose transfers are the first `k` (`filter_cutAfter`); the registers are those of the reset, and its mark in the
log empties the event output (`eventsIn_reset`). -/
theorem resetAbandonsTheRequest : Obligations.ResetAbandonsTheRequest := by
  intro s u d k hreset hduring hadvance
  obtain ⟨-, -, new, tail, hlog, hnew, -, htail⟩ := advance_served hadvance
  rw [List.append_assoc] at hlog
  have hissued : (abandon k d s u).log = s.log ++ cutAfter k (new ++ tail) ++ [.reset] := by
    rw [abandon_log, hlog, List.drop_left]
  have hfresh : ∀ c, (abandon k d s u).ss c = .fresh := ss_of_search_replicate_fresh rfl
  have hevents : (abandon k d s u).events = [] := eventsIn_reset _
  exact ⟨abandon k d s u, cutAfter k (new ++ tail), new ++ tail, step_of_resetDuring hreset hduring hadvance, hlog,
    hissued, fun _ => upstream_of_mem_cutAfter hnew htail, filter_cutAfter k _, rfl, rfl, rfl, rfl, hfresh, hevents,
    rfl, rfl, rfl, rfl⟩

end Sys2Proof.Machine
end

section
/-! The number of transfers of a request and of a turn of `SR.ALL` (spec/20_memory.md R50, R61; spec/43_search.md R207;
spec/70_reset_and_hazards.md R331). -/

namespace Sys2Proof.Machine

/-- From `s` to `t` between `lo` and `hi` transfers are made, every one of them to the bridge. -/
def TransfersBetween (lo hi : Nat) (s t : State) : Prop :=
  ∃ new, t.log = s.log ++ new ∧ lo ≤ transfersIn new ∧ transfersIn new ≤ hi ∧
    ∀ o ∈ new, o.isTransfer = true → o.upstream s.params.bridgeAddr = true

theorem transfersIn_final {os : List Output} (h : ∀ o ∈ os, o.final = true) : transfersIn os = 0 :=
  List.countP_eq_zero.2 fun o ho => Output.final_not_isTransfer (h o ho)

/-- The events and responses after a part of a rule add nothing to its transfers. -/
theorem Ran.transfersBetween {f : Byte} {lo hi : Nat} {s u t : State} (h : Ran f lo hi s u) {tail : List Output}
    (hlog : t.log = u.log ++ tail) (htail : ∀ o ∈ tail, o.final = true) : TransfersBetween lo hi s t := by
  obtain ⟨new, hnewLog, hnew, hlo, hhi, -⟩ := h.port
  have hcount : transfersIn (new ++ tail) = transfersIn new := by
    rw [transfersIn_append, transfersIn_final htail, Nat.add_zero]
  refine ⟨new ++ tail, by rw [hlog, hnewLog, List.append_assoc], by omega, by omega, fun o ho htransfer => ?_⟩
  rcases List.mem_append.1 ho with ho | ho
  · exact hnew o ho
  · exact absurd htransfer (Output.final_not_isTransfer (htail o ho))

theorem Ran.transfersBetween_finish {f : Byte} {lo hi : Nat} {s u : State} (h : Ran f lo hi s u) (v : Byte) :
    TransfersBetween lo hi s (finish v u) :=
  h.transfersBetween (finish_log u v) (by simp [Output.final])

/-- One turn of `SR.ALL`: a search on an exhausted channel makes no transfer, any other at least a bus reset. -/
theorem searchAllPass_transfersBetween (c : Fin 8) (n : Nat) (s : State) :
    TransfersBetween (if (s.ss c).ldf then 0 else 13) (mostTransfers (.srAll c)) s (searchAllPass c n s) := by
  obtain ⟨u, hran, -, -, -, -, -, -, tail, hlog, -, htail⟩ := searchAllPass_ran c n s
  rw [mostTransfers_srAll]
  exact hran.transfersBetween hlog htail

/-- `SR.ALL` begins on a fresh channel, so its first turn resets the bus. -/
theorem firstPass_transfersBetween (c : Fin 8) (s : State) :
    TransfersBetween 13 (mostTransfers (.srAll c)) s (searchAllPass c 0 (wireResetSearch c s)) := by
  have h := searchAllPass_transfersBetween c 0 (wireResetSearch c s)
  rw [wireResetSearch, setSearch_ss_self] at h
  exact h

/-- R331, the "all waits time out" number of `ERR.CLR`. -/
theorem mostTransfers_errClr (m : BitVec 7) : mostTransfers (.errClr m) = 0 := by
  simp [mostTransfers, requestCost, costOf]

/-- `ERR.CLR` makes no transfer. -/
theorem errClr_transfersBetween (m : BitVec 7) (s : State) (v : Byte) :
    TransfersBetween (fewestTransfers (.errClr m)) (mostTransfers (.errClr m)) s (finish v (clearErr m s)) := by
  rw [mostTransfers_errClr]
  exact (Ran.refl s).transfersBetween (tail := [.response .ok v]) rfl (by simp [Output.final])

theorem exec_transfersBetween {i : Instr} {s t : State} (e : exec i s = .next t) :
    TransfersBetween (fewestTransfers i) (mostTransfers i) s t := by
  obtain ⟨c, rfl, rfl⟩ | ⟨m, rfl, rfl⟩ | ⟨v, u, rfl, hran⟩ := exec_cases e
  · exact firstPass_transfersBetween c s
  · exact errClr_transfersBetween m s _
  · exact hran.transfersBetween_finish v

/-- Settles O17: every request answers a next state, within the bounds of `exec_transfersBetween`; a turn of `SR.ALL` is
within those of a pass. -/
theorem transfersStayWithinBounds : Obligations.TransfersStayWithinBounds := by
  refine ⟨fun i s => ?_, fun c n s => ?_⟩
  · obtain ⟨t, e⟩ := exec_next i s
    obtain ⟨new, hbounds⟩ := exec_transfersBetween e
    exact ⟨t, new, e, hbounds⟩
  · obtain ⟨new, hlog, -, hmost, hbridge⟩ := searchAllPass_transfersBetween c n s
    exact ⟨new, hlog, hmost, hbridge⟩

end Sys2Proof.Machine
end
